-- ==== Sys2Proof/Word.lean ====
section
/-! DEFINITION. The words of the block: 64-bit registers and command words (R23, R70), and bytes. -/

namespace Sys2Proof

/-- A register value or a command word (10_state.md R23: "Every register is 64 bits wide"). -/
abbrev Word := BitVec 64

/-- One byte of IBUF, OBUF or of a byte string (10_state.md R44). -/
abbrev Byte := BitVec 8

end Sys2Proof
end

