-- ==== Sys2Proof/Syntax.lean ====
section
/-! DEFINITION. The commands of the block: one constructor per row of spec/opcode_table.json (30_encoding.md R71). -/

namespace Sys2Proof

/-- A command. The only operand a command word carries is W, the digit width of the two Base91 digit commands (R70);
every other operand is a register or the input window. -/
inductive Instr where
  | nop
  | b91Enc (w : BitVec 3)
  | b91Dec (w : BitVec 3)
  | latPre
  | lonPre
  | latDec
  | lonDec
  | altEnc
  | altDec
  | csDec
  | rngDec
  | dmmEncLat
  | dmmEncLon
  | dmmDecLat
  | dmmDecLon
  | aprsClass
  | aprsEncU
  | aprsEncC
  | aprsDecU
  | aprsDecT
  | aprsDecC
  | ax25EncA
  | ax25DecA
  | ax25EncF
  | ax25DecF
  deriving DecidableEq, Repr

/-- Why a command word is illegal (R74), with the fields the dispatch has read when it finds out (40_command_cycle.md R91). -/
inductive Illegal where
  /-- A RES bit is set (R73). -/
  | reserved
  /-- OP is not in R71's table. -/
  | opcode (op : Byte)
  /-- W breaks R72. -/
  | width (op : Byte) (w : BitVec 3)
  deriving DecidableEq, Repr

end Sys2Proof
end

