-- ==== Sys2Proof/WellFormed.lean ====
section
/-! DEFINITION. Which terms of Instr are commands: the width of a Base91 digit command is 1, 2 or 4 (30_encoding.md R72). -/

namespace Sys2Proof

/-- The digit widths R72 admits for B91.ENC and B91.DEC: 4, 2 and 1; 0, 3, 5, 6 and 7 are illegal. -/
def widthLegal (w : BitVec 3) : Bool :=
  w == 1 || w == 2 || w == 4

/-- A term of Instr is a command of R71's table with operands R72 admits. -/
def Instr.wf : Instr → Bool
  | .nop => true
  | .b91Enc w => widthLegal w
  | .b91Dec w => widthLegal w
  | .latPre => true
  | .lonPre => true
  | .latDec => true
  | .lonDec => true
  | .altEnc => true
  | .altDec => true
  | .csDec => true
  | .rngDec => true
  | .dmmEncLat => true
  | .dmmEncLon => true
  | .dmmDecLat => true
  | .dmmDecLon => true
  | .aprsClass => true
  | .aprsEncU => true
  | .aprsEncC => true
  | .aprsDecU => true
  | .aprsDecT => true
  | .aprsDecC => true
  | .ax25EncA => true
  | .ax25DecA => true
  | .ax25EncF => true
  | .ax25DecF => true

end Sys2Proof
end

