-- ==== Sys2Proof/Decode.lean ====
section
/-! DEFINITION. The command word (30_encoding.md R70): its fields, the decoder with the checks of 40_command_cycle.md R91
in their order, and the encoder. -/

namespace Sys2Proof

/-- OP, bits [7:0] of a command word (R70). -/
def opField (c : Word) : Byte := c.extractLsb' 0 8

/-- W, bits [10:8] (R70), an unsigned 3-bit number. -/
def wField (c : Word) : BitVec 3 := c.extractLsb' 8 3

/-- RES, bits [63:11] (R70, R73). -/
def resField (c : Word) : BitVec 53 := c.extractLsb' 11 53

/-- R71's opcode map, read as "which command does OP name"; W is passed on to the two commands that use it. -/
def commandOf (op : Byte) (w : BitVec 3) : Option Instr :=
  match op.toNat with
  | 0x00 => some .nop
  | 0x10 => some (.b91Enc w)
  | 0x11 => some (.b91Dec w)
  | 0x12 => some .latPre
  | 0x13 => some .lonPre
  | 0x14 => some .latDec
  | 0x15 => some .lonDec
  | 0x16 => some .altEnc
  | 0x17 => some .altDec
  | 0x18 => some .csDec
  | 0x19 => some .rngDec
  | 0x20 => some .dmmEncLat
  | 0x21 => some .dmmEncLon
  | 0x22 => some .dmmDecLat
  | 0x23 => some .dmmDecLon
  | 0x30 => some .aprsClass
  | 0x31 => some .aprsEncU
  | 0x32 => some .aprsEncC
  | 0x33 => some .aprsDecU
  | 0x34 => some .aprsDecT
  | 0x35 => some .aprsDecC
  | 0x40 => some .ax25EncA
  | 0x41 => some .ax25DecA
  | 0x42 => some .ax25EncF
  | 0x43 => some .ax25DecF
  | _ => none

/-- R72, R91: OP 0x10 and 0x11 take the widths 1, 2 and 4; every other command takes W = 0. -/
def widthAdmitted (op : Byte) (w : BitVec 3) : Bool :=
  if op == 0x10 || op == 0x11 then widthLegal w else w == 0

/-- The decoder, total on every word: R91's checks in its order, RES, then OP, then W. -/
def decode (c : Word) : Except Illegal Instr :=
  if resField c ≠ 0 then .error .reserved
  else
    match commandOf (opField c) (wField c) with
    | none => .error (.opcode (opField c))
    | some i => if widthAdmitted (opField c) (wField c) then .ok i else .error (.width (opField c) (wField c))

/-- The host's view of the decoder: the command word is the `nbits` bits of `w`, every higher bit 0. The block takes a
command as the value of one 64-bit write (R61, R75), so the words of a command are not laid out in memory. -/
def decodeTableWord (nbits w : Nat) : Option Instr :=
  if 2 ^ 64 ≤ w % 2 ^ nbits then none
  else
    match decode (BitVec.ofNat 64 (w % 2 ^ nbits)) with
    | .ok i => some i
    | .error _ => none

/-- OP of a command (R71). -/
def Instr.opcode : Instr → Byte
  | .nop => 0x00
  | .b91Enc _ => 0x10
  | .b91Dec _ => 0x11
  | .latPre => 0x12
  | .lonPre => 0x13
  | .latDec => 0x14
  | .lonDec => 0x15
  | .altEnc => 0x16
  | .altDec => 0x17
  | .csDec => 0x18
  | .rngDec => 0x19
  | .dmmEncLat => 0x20
  | .dmmEncLon => 0x21
  | .dmmDecLat => 0x22
  | .dmmDecLon => 0x23
  | .aprsClass => 0x30
  | .aprsEncU => 0x31
  | .aprsEncC => 0x32
  | .aprsDecU => 0x33
  | .aprsDecT => 0x34
  | .aprsDecC => 0x35
  | .ax25EncA => 0x40
  | .ax25DecA => 0x41
  | .ax25EncF => 0x42
  | .ax25DecF => 0x43

/-- W of a command: the digit width of the Base91 digit commands, 0 for every other (R72). -/
def Instr.width : Instr → BitVec 3
  | .nop => 0
  | .b91Enc w => w
  | .b91Dec w => w
  | .latPre => 0
  | .lonPre => 0
  | .latDec => 0
  | .lonDec => 0
  | .altEnc => 0
  | .altDec => 0
  | .csDec => 0
  | .rngDec => 0
  | .dmmEncLat => 0
  | .dmmEncLon => 0
  | .dmmDecLat => 0
  | .dmmDecLon => 0
  | .aprsClass => 0
  | .aprsEncU => 0
  | .aprsEncC => 0
  | .aprsDecU => 0
  | .aprsDecT => 0
  | .aprsDecC => 0
  | .ax25EncA => 0
  | .ax25DecA => 0
  | .ax25EncF => 0
  | .ax25DecF => 0

/-- The encoder: the value written to CMD is zext_64 of RES, W and OP with RES = 0 (R70, R73). -/
def encode (i : Instr) : Word :=
  (0#53 ++ i.width ++ i.opcode : BitVec (53 + 3 + 8))

end Sys2Proof
end

