-- ==== Sys2Proof/Config.lean ====
section
/-! DEFINITION. What the spec leaves open: the OPEN parameters of 00_scope.md R5 as plain data, and the free values,
which are constants without a body. -/

namespace Sys2Proof

/-- The OPEN parameters of the block (00_scope.md R5, 20_memory.md R50, 93 U10). The model takes them as an argument: a
state carries them and no step changes them (log 1). -/
structure Params where
  /-- BASE: where the block space stands in the host's physical address map (R50). -/
  base : Nat
  /-- IBUF_SIZE. -/
  ibufSize : Nat
  /-- OBUF_SIZE. -/
  obufSize : Nat
  /-- MAX_ADDR: entries of the address table. -/
  maxAddr : Nat
  deriving DecidableEq, Repr

/-- The ranges R5 admits. BASE is any value. -/
abbrev Params.valid (p : Params) : Prop :=
  (32 ≤ p.ibufSize ∧ p.ibufSize ≤ 4096) ∧ (32 ≤ p.obufSize ∧ p.obufSize ≤ 4096) ∧ (2 ≤ p.maxAddr ∧ p.maxAddr ≤ 16)

/-- R5's reference values; BASE is 0 here (log 1: DESIGN CHOICE). -/
def Params.reference : Params :=
  { base := 0, ibufSize := 512, obufSize := 512, maxAddr := 10 }

/-- FREE VALUE: the byte that a buffer offset holds after the given number of resets, before anything is written to it
(R45, R260, 93 U1: "any value, drawn once at reset, per byte"; log 2). -/
opaque Config.bufferByte : Nat → Nat → Byte

/-- FREE VALUE: what the n-th open value read by a host access during BUSY is (40 R86, 93 U2: "any value, per read"; log 3). -/
opaque Config.busyRead : Nat → Word

/-- FREE VALUE: LATENCY of an accepted command, in host-observable steps (R5, R267, 93 U11: finite, may differ between
commands and between runs; log 4). -/
opaque Config.latency : Nat → Nat

end Sys2Proof
end

