-- ==== Sys2Proof/Machine/State.lean ====
section
/-! DEFINITION. The state of the block as plain data: the registers of 10_state.md R23, the hidden state of R40, the
buffers of R44, the RST level of R260, the parameters of R5, and what the host will do next. -/

namespace Sys2Proof.Machine

/-- The contents of IBUF and OBUF that have been written since the last reset: (block offset, byte) cells, offsets
strictly rising (R44, R50; log 2). An offset without a cell has not been written since the reset. -/
abbrev Memory := List Host.Cell

/-- The one form of a memory: offsets strictly rising. An unlisted offset holds no written byte, and no cell says so,
so equal written contents are equal lists (log 2). -/
abbrev Memory.wf (m : Memory) : Prop := m.Pairwise (fun x y => x.1 < y.1)

/-- Faults: none. 60_exceptions.md R236 and 93 section 1: "No behaviour of this block is treated as `fault` or `stuck`". -/
inductive Fault where
  deriving DecidableEq, Repr

/-- Where the model gives no behaviour (93 section 1, treatment `refuse`). -/
inductive Refusal where
  /-- Raised by exec for a command that has no meaning yet. Safe: nothing is claimed of it. -/
  | notModelled (mnemonic : String)
  /-- Raised by a host access of a shape R53 gives no behaviour (93 U3). Safe: nothing is claimed of it. -/
  | unsupportedAccess
  /-- Raised by a host access outside the block space of R50: below BASE, or at offset 0x3000 or above (R53, 93 U3).
  Safe: nothing is claimed of it. -/
  | outsideBlockSpace
  /-- Raised by a host access while RST is asserted (R260, 93 U4). Safe: nothing is claimed of it. -/
  | accessDuringReset
  deriving DecidableEq, Repr

/-- STATUS (R25) but for BUSY, which is whether a command is pending (R40; log 8). Reserved bits are not stored: they
read 0 (R25, R41). -/
structure Status where
  done : Bool
  /-- MATCH. -/
  matched : Bool
  ovr : Bool
  err : Byte
  efield : Byte
  ebyte : Byte
  epos : BitVec 16
  deriving DecidableEq, Repr

/-- P_FLAGS (R33). -/
structure PointFlags where
  msgcap : Bool
  tskind : BitVec 3
  extra : BitVec 2
  deriving DecidableEq, Repr

/-- The Point registers (R42): P_LAT, P_LON, P_ALT, P_COURSE, P_SPEED, P_RANGE, P_FLAGS and P_TIME. -/
structure Point where
  lat : Word
  lon : Word
  alt : Word
  course : Word
  speed : Word
  range : Word
  flags : PointFlags
  time : Word
  deriving DecidableEq, Repr

/-- P_SYM (R35): SYMTAB and SYMCODE. -/
structure Symbol where
  table : Byte
  code : Byte
  deriving DecidableEq, Repr

/-- FRAMEHDR (R36): CTRL and PID. -/
structure FrameHdr where
  ctrl : Byte
  pid : Byte
  deriving DecidableEq, Repr

/-- ADDR_META (R39): CLEN, SSID, CH, LAST and RSV. -/
structure AddrMeta where
  clen : Byte
  ssid : Byte
  ch : Bool
  last : Bool
  rsv : BitVec 2
  deriving DecidableEq, Repr

/-- One entry of the address table (R43): ADDR_CALL, six callsign bytes with byte k in bits [8k+7:8k] (R38), and ADDR_META. -/
structure AddrEntry where
  call : BitVec 48
  info : AddrMeta
  deriving DecidableEq, Repr

/-- The size of a host access, in bits. -/
inductive AccessSize where
  | b8
  | b16
  | b32
  | b64
  deriving DecidableEq, Repr

/-- What the host or the platform does to the block (R20, R51 to R53, R260). Addresses are physical: the block space
begins at BASE (R50). -/
inductive HostEvent where
  /-- A read of the given size. -/
  | read (size : AccessSize) (addr : Nat)
  /-- A write of the given size; a write narrower than 64 bits carries its value in the low bits of `data`. -/
  | write (size : AccessSize) (addr : Nat) (data : Word)
  /-- The platform drives RST to the given level (R260). -/
  | rst (level : Bool)
  deriving DecidableEq, Repr

/-- The error of a command (60_exceptions.md R231): its name. -/
inductive Err where
  | validation
  | decodeField
  | invalidDigit
  | addressTooLong
  | ssidOutOfRange
  | truncatedFrame
  | illegalCommand
  | capacityExceeded
  | inputLength
  deriving DecidableEq, Repr

/-- The field of an error (60_exceptions.md R232). -/
inductive Field where
  | none
  | lat
  | lon
  | alt
  | courseSpeed
  | range
  | value
  | type
  | latDeg
  | latMin
  | lonDeg
  | lonMin
  | latHemi
  | lonHemi
  | address
  | window
  | obuf
  | naddr
  deriving DecidableEq, Repr

/-- What `raise E(f, b, p)` carries (00_scope.md R10, R230). The byte and the position are numbers here and are reduced
when STATUS is written. -/
structure Raise where
  err : Err
  field : Field
  byte : Nat
  pos : Nat
  deriving DecidableEq, Repr

/-- The state of the block, of its inputs, and the counters its free values are applied to. -/
structure State where
  /-- The OPEN parameters (R5, R21); no step changes them. -/
  params : Params
  /-- CMD (R24): the last command word accepted. -/
  cmd : Word
  /-- PEND (R40): the command word accepted and not yet completed; STATUS.BUSY is whether there is one. -/
  pend : Option Word
  /-- STATUS (R25) but for BUSY. -/
  status : Status
  /-- IOFF (R26). -/
  ioff : Word
  /-- ILEN (R26). -/
  ilen : Word
  /-- OLEN (R27). -/
  olen : Word
  /-- REM_OFF (R28). -/
  remOff : Word
  /-- REM_LEN (R28). -/
  remLen : Word
  /-- VAL (R29). -/
  val : Word
  /-- The Point registers (R30 to R34, R42). -/
  point : Point
  /-- P_SYM (R35). -/
  sym : Symbol
  /-- NOW (R34). -/
  now : Word
  /-- NOW_S (R34, R40), hidden. -/
  nowS : Word
  /-- FRAMEHDR (R36). -/
  frameHdr : FrameHdr
  /-- NADDR (R37). -/
  naddr : BitVec 8
  /-- The address table (R38, R39, R43), MAX_ADDR entries. -/
  addrs : List AddrEntry
  /-- IBUF and OBUF (R44): the bytes written since the last reset. -/
  mem : Memory
  /-- The level of RST (R260). -/
  rst : Bool
  /-- The model's own: host-observable steps still to pass before the engine step (LATENCY, R267; log 4). -/
  delay : Nat
  /-- The model's own: what the host and the platform do next, oldest first (log 5). -/
  inputs : List HostEvent
  /-- The model's own: the values host reads returned, oldest first (log 5). -/
  replies : List Word
  /-- The model's own: resets so far, the counter of `Config.bufferByte` (log 2). -/
  resets : Nat
  /-- The model's own: open values drawn so far, the counter of `Config.busyRead` and `Config.latency` (log 3, log 4). -/
  draws : Nat
  deriving DecidableEq, Repr

/-- STATUS after reset (R45): every field 0. -/
def Status.zero : Status :=
  { done := false, matched := false, ovr := false, err := 0, efield := 0, ebyte := 0, epos := 0 }

/-- P_FLAGS = 0: TSKIND NONE, EXTRA None, MSGCAP 0 (R42). -/
def PointFlags.zero : PointFlags := { msgcap := false, tskind := 0, extra := 0 }

/-- The zero-value point (R42): every Point register 0. -/
def Point.zero : Point :=
  { lat := 0, lon := 0, alt := 0, course := 0, speed := 0, range := 0, flags := PointFlags.zero, time := 0 }

/-- An entry of the address table after reset (R45). -/
def AddrEntry.zero : AddrEntry :=
  { call := 0, info := { clen := 0, ssid := 0, ch := false, last := false, rsv := 0 } }

/-- The reset state of a block with the given parameters (R45, R260): every register 0, no command pending, the buffers
unwritten. NOW_S, which R45 leaves unspecified and unobservable, is 0 (log 9). -/
def State.resetWith (p : Params) : State :=
  { params := p
    cmd := 0, pend := none, status := Status.zero
    ioff := 0, ilen := 0, olen := 0, remOff := 0, remLen := 0, val := 0
    point := Point.zero, sym := { table := 0, code := 0 }
    now := 0, nowS := 0
    frameHdr := { ctrl := 0, pid := 0 }, naddr := 0
    addrs := List.replicate p.maxAddr AddrEntry.zero
    mem := [], rst := false
    delay := 0, inputs := [], replies := [], resets := 0, draws := 0 }

/-- The machine right after reset, with R5's reference parameters (log 1), RST released and nothing sent by the host. -/
def State.reset : State := State.resetWith Params.reference

end Sys2Proof.Machine
end

