-- ==== Sys2Proof/Machine/Flags.lean ====
section
/-! DEFINITION. STATUS and the other registers with fields: the error and field codes, the register words, and what
acceptance, completion and an error write to STATUS (10_state.md R25 to R39, 60_exceptions.md R230 to R233). -/

namespace Sys2Proof.Machine

/-- The ERR code of an error (R231). -/
def Err.code : Err → Byte
  | .validation => 1
  | .decodeField => 2
  | .invalidDigit => 3
  | .addressTooLong => 4
  | .ssidOutOfRange => 5
  | .truncatedFrame => 6
  | .illegalCommand => 7
  | .capacityExceeded => 8
  | .inputLength => 9

/-- The EFIELD code of a field (R232). -/
def Field.code : Field → Byte
  | .none => 0x00
  | .lat => 0x01
  | .lon => 0x02
  | .alt => 0x03
  | .courseSpeed => 0x04
  | .range => 0x05
  | .value => 0x06
  | .type => 0x07
  | .latDeg => 0x10
  | .latMin => 0x11
  | .lonDeg => 0x12
  | .lonMin => 0x13
  | .latHemi => 0x14
  | .lonHemi => 0x15
  | .address => 0x20
  | .window => 0x30
  | .obuf => 0x31
  | .naddr => 0x32

/-- TSKIND of a decoded time (R33): 1 NOW, 2 DHM_UTC, 3 DHM_LOCAL, 4 HMS_UTC. -/
def tsNow : BitVec 3 := 1
def tsDhmUtc : BitVec 3 := 2
def tsDhmLocal : BitVec 3 := 3
def tsHmsUtc : BitVec 3 := 4

/-- EXTRA of a decoded report (R33): 0 None, 1 Altitude, 2 CourseSpeed, 3 RadioRange. -/
def extraNone : BitVec 2 := 0
def extraAltitude : BitVec 2 := 1
def extraCourseSpeed : BitVec 2 := 2
def extraRadioRange : BitVec 2 := 3

/-- STATUS.BUSY (R25, R40): a command has been accepted and not completed. -/
def State.busy (s : State) : Bool := s.pend.isSome

/-- One flag as a bit. -/
def flagBit (b : Bool) : BitVec 1 := BitVec.ofBool b

/-- STATUS as the host reads it (R25); the reserved bits [7:4] and [63:48] read 0. -/
def State.statusWord (s : State) : Word :=
  (0#16 ++ s.status.epos ++ s.status.ebyte ++ s.status.efield ++ s.status.err ++ 0#4
    ++ flagBit s.status.ovr ++ flagBit s.status.matched ++ flagBit s.status.done ++ flagBit s.busy
    : BitVec (16 + 16 + 8 + 8 + 8 + 4 + 1 + 1 + 1 + 1))

/-- P_FLAGS as the host reads it (R33, R41). -/
def PointFlags.word (f : PointFlags) : Word :=
  (0#58 ++ f.extra ++ f.tskind ++ flagBit f.msgcap : BitVec (58 + 2 + 3 + 1))

/-- P_FLAGS from a value the host writes; reserved bits are dropped (R33, R41). -/
def PointFlags.ofWord (v : Word) : PointFlags :=
  { msgcap := v.getLsbD 0, tskind := v.extractLsb' 1 3, extra := v.extractLsb' 4 2 }

/-- P_SYM as the host reads it (R35). -/
def Symbol.word (y : Symbol) : Word :=
  (0#48 ++ y.code ++ y.table : BitVec (48 + 8 + 8))

/-- P_SYM from a value the host writes (R35, R41). -/
def Symbol.ofWord (v : Word) : Symbol :=
  { table := v.extractLsb' 0 8, code := v.extractLsb' 8 8 }

/-- FRAMEHDR as the host reads it (R36). -/
def FrameHdr.word (h : FrameHdr) : Word :=
  (0#48 ++ h.pid ++ h.ctrl : BitVec (48 + 8 + 8))

/-- ADDR_META[i] as the host reads it (R39). -/
def AddrMeta.word (m : AddrMeta) : Word :=
  (0#44 ++ m.rsv ++ flagBit m.last ++ flagBit m.ch ++ m.ssid ++ m.clen : BitVec (44 + 2 + 1 + 1 + 8 + 8))

/-- ADDR_META[i] from a value the host writes; any field value is stored as written (R39, R41). -/
def AddrMeta.ofWord (v : Word) : AddrMeta :=
  { clen := v.extractLsb' 0 8, ssid := v.extractLsb' 8 8, ch := v.getLsbD 16, last := v.getLsbD 17
    rsv := v.extractLsb' 18 2 }

/-- The STATUS writes of acceptance (40_command_cycle.md R85): DONE, MATCH and the error fields cleared, OVR kept. -/
def Status.accepted (t : Status) : Status :=
  { t with done := false, matched := false, err := 0, efield := 0, ebyte := 0, epos := 0 }

/-- The error fields of STATUS written by `raise E(f, b, p)`: EBYTE is b mod 256 and EPOS is p mod 2^16 (R230, R233). -/
def Status.raised (t : Status) (r : Raise) : Status :=
  { t with err := r.err.code, efield := r.field.code, ebyte := BitVec.ofNat 8 r.byte, epos := BitVec.ofNat 16 r.pos }

end Sys2Proof.Machine
end

