-- ==== Sys2Proof/Machine/Ops.lean ====
section
/-! DEFINITION. The shared operations: memory, the command cycle (acceptance, completion, the error mechanism), the
window and output procedures of 40_command_cycle.md R89 and R92, and reset. -/

namespace Sys2Proof.Machine

/-! ### Memory -/

/-- Offset of IBUF[0] in the block space (20_memory.md R50). -/
def ibufBase : Nat := 0x1000

/-- Offset of OBUF[0] in the block space (R50). -/
def obufBase : Nat := 0x2000

/-- The size of the block space (R50). -/
def blockSize : Nat := 0x3000

/-- The byte written last at an offset, if one was written. -/
def Memory.find : Memory → Nat → Option Byte
  | [], _ => none
  | (b, v) :: m, a => if a = b then some v else Memory.find m a

/-- Write one byte, keeping the offsets strictly rising. -/
def Memory.write : Memory → Nat → Byte → Memory
  | [], a, x => [(a, x)]
  | (b, v) :: m, a, x =>
    if a < b then (a, x) :: (b, v) :: m
    else if a = b then (a, x) :: m
    else (b, v) :: Memory.write m a x

/-- Write bytes at consecutive offsets, the first at `a`. -/
def Memory.writeBytes (m : Memory) (a : Nat) : List Byte → Memory
  | [] => m
  | x :: xs => Memory.writeBytes (m.write a x) (a + 1) xs

/-- The byte at an offset of a buffer: what was written last, or the free value it holds since the reset (R44, R45, U1). -/
def State.readByte (s : State) (a : Nat) : Byte :=
  (s.mem.find a).getD (Config.bufferByte s.resets a)

/-! ### The command cycle -/

/-- Acceptance of the word `c` (R85). `d` is the command's LATENCY (R267; log 4). -/
def State.accept (s : State) (c : Word) (d : Nat) : State :=
  { s with cmd := c, pend := some c, delay := d, status := s.status.accepted }

/-- NOW_S <- NOW, the first action of the engine step (R87). -/
def State.sampleNow (s : State) : State :=
  { s with nowS := s.now }

/-- Completion (R87): STATUS.BUSY <- 0 and STATUS.DONE <- 1. -/
def State.retire (s : State) : State :=
  { s with pend := none, status := { s.status with done := true } }

/-- THE ERROR MECHANISM (60_exceptions.md R230): completion that writes ERR, EFIELD, EBYTE and EPOS. It is applied to
the state whose writes are kept: the one before the command, or that one with the command's "on error write" outputs. -/
def State.fail (s : State) (r : Raise) : State :=
  { s with pend := none, status := { s.status.raised r with done := true } }

/-- The end of every command (R87). `kept` is the state an error leaves: the state before the command, every write
undone, but for the writes of an "on error write" clause (R10, R234). -/
def complete (kept : State) : Except Raise State → Host.Outcome State Fault Refusal
  | .ok t => .next t.retire
  | .error r => .next (kept.fail r)

/-- What an illegal command word raises (R91, R233): EBYTE carries OP and EPOS carries W, where the check that failed had
read them. -/
def illegalRaise : Illegal → Raise
  | .reserved => { err := .illegalCommand, field := .none, byte := 0, pos := 0 }
  | .opcode op => { err := .illegalCommand, field := .none, byte := op.toNat, pos := 0 }
  | .width op w => { err := .illegalCommand, field := .none, byte := op.toNat, pos := w.toNat }

/-- Execution of an illegal command word: it writes nothing but STATUS (R74, R91). -/
def execIllegal (e : Illegal) (s : State) : Host.Outcome State Fault Refusal :=
  complete s (.error (illegalRaise e))

/-! ### Procedures of the commands -/

/-- CheckWindow (R89): IOFF + ILEN as an unbounded sum. -/
def checkWindow (s : State) : Except Raise Unit :=
  if s.ioff.toNat + s.ilen.toNat > s.params.ibufSize then
    .error { err := .capacityExceeded, field := .window, byte := 0, pos := 0 }
  else .ok ()

/-- NeedLen (R89): the window must hold exactly `n` bytes. -/
def needLen (s : State) (n : Nat) : Except Raise Unit := do
  checkWindow s
  if s.ilen.toNat ≠ n then
    .error { err := .inputLength, field := .window, byte := 0, pos := s.ilen.toNat }
  else .ok ()

/-- Emit (R92): the bytes go to OBUF[0], OBUF[1], …, and OLEN is their number. -/
def emit (s : State) (bs : List Byte) : Except Raise State :=
  if bs.length > s.params.obufSize then
    .error { err := .capacityExceeded, field := .obuf, byte := 0, pos := 0 }
  else .ok { s with mem := s.mem.writeBytes obufBase bs, olen := BitVec.ofNat 64 bs.length }

/-- In(i) (R9): input byte IBUF[IOFF + i]. -/
def State.inByte (s : State) (i : Nat) : Byte :=
  s.readByte (ibufBase + (s.ioff.toNat + i))

/-- InLen (R9). -/
def State.inLen (s : State) : Nat := s.ilen.toNat

/-- The bytes In(i) … In(i + n − 1). -/
def State.inBytes (s : State) (i n : Nat) : List Byte :=
  (List.range n).map fun k => s.inByte (i + k)

/-- The remainder after the first `n` bytes of the window (R28). -/
def State.withRemainder (s : State) (n : Nat) : State :=
  { s with remOff := BitVec.ofNat 64 (s.ioff.toNat + n), remLen := BitVec.ofNat 64 (s.ilen.toNat - n) }

/-- Entry i of the address table (R43). Every command that reads an entry has checked that i < MAX_ADDR (log 17). -/
def State.entry (s : State) (i : Nat) : AddrEntry := s.addrs.getD i AddrEntry.zero

/-! ### Reset -/

/-- RST is asserted (70_reset_and_hazards.md R260): every register takes its reset value, a command accepted and not
yet executed is discarded, and the buffers hold any value, drawn anew. What the host does next, what it has read and
the counters of the free values are not the block's registers and stay (log 7). -/
def State.assertReset (s : State) : State :=
  { State.resetWith s.params with
    rst := true, inputs := s.inputs, replies := s.replies, resets := s.resets + 1, draws := s.draws }

/-- RST is released: the block is idle (R261). -/
def State.releaseReset (s : State) : State := { s with rst := false }

end Sys2Proof.Machine
end

