-- ==== Sys2Proof/Machine/Operands.lean ====
section
/-! DEFINITION. The operand forms of the commands: rounding, Base91 digits, the conversions of 41_base91.md, the
degrees-decimal-minutes text of 42_geopoint.md, the report fields of 43_aprs_position.md and the 7-byte address of
44_ax25.md. -/

namespace Sys2Proof.Machine

/-! ### Rounding and characters -/

/-- rhu(n/d) for d > 0 (00_scope.md R8): floor(n/d + 1/2), as an exact integer division.
`Sys2Proof.Laws.rhu_eq_floor` shows that it is that floor of that rational. -/
def rhu (n : Int) (d : Nat) : Int := (2 * n + d) / (2 * d)

/-- DIGIT (R12). -/
def isDigit (b : Byte) : Bool := 0x30 ≤ b.toNat && b.toNat ≤ 0x39

/-- LETTER = UPPER ∪ LOWER (R12). -/
def isLetter (b : Byte) : Bool :=
  (0x41 ≤ b.toNat && b.toNat ≤ 0x5A) || (0x61 ≤ b.toNat && b.toNat ≤ 0x7A)

/-- SPACE (R12). -/
def space : Byte := 0x20

/-- The ASCII text of one decimal digit, 0 ≤ n ≤ 9 (R12). -/
def ascDigit (n : Nat) : Byte := BitVec.ofNat 8 (0x30 + n)

/-- asc2 (R12): two-byte zero-padded decimal text. -/
def asc2 (n : Nat) : List Byte := [ascDigit (n / 10 % 10), ascDigit (n % 10)]

/-- asc3 (R12): three-byte zero-padded decimal text. -/
def asc3 (n : Nat) : List Byte := [ascDigit (n / 100 % 10), ascDigit (n / 10 % 10), ascDigit (n % 10)]

/-! ### Base91 digits -/

/-- chr91 (R11). -/
def chr91 (v : Nat) : Byte := BitVec.ofNat 8 (33 + v)

/-- d(b, f, p) (R11): the value of a Base91 digit, or InvalidDigit. -/
def digit (b : Byte) (f : Field) (p : Nat) : Except Raise Nat :=
  if 33 ≤ b.toNat ∧ b.toNat ≤ 123 then .ok (b.toNat - 33)
  else .error { err := .invalidDigit, field := f, byte := b.toNat, pos := p }

/-- The code point of `n` Base91 digits from window offset `i` on, checked in increasing order (R101, R102); `acc` is
the value of the digits before them. -/
def digitsFrom (s : State) (f : Field) : (n i acc : Nat) → Except Raise Nat
  | 0, _, acc => .ok acc
  | n + 1, i, acc => do
    let d ← digit (s.inByte i) f i
    digitsFrom s f n (i + 1) (91 * acc + d)

/-- The `w`-digit Base91 text of a code point, most significant digit first (R101). -/
def b91Text (v w : Nat) : List Byte :=
  (List.range w).map fun i => chr91 (v / 91 ^ (w - 1 - i) % 91)

/-! ### Conversions of 41_base91.md -/

/-- LAT.PRE's transform (R107). -/
def latCode (l : Int) : Int := rhu (380926 * (900000000 - l)) (10 ^ 7)

/-- LON.PRE's transform (R108). -/
def lonCode (l : Int) : Int := rhu (190463 * (1800000000 + l)) (10 ^ 7)

/-- LAT.DEC's inverse (R109). -/
def latValue (y : Nat) : Int := 900000000 - rhu (y * 10 ^ 7) 380926

/-- LON.DEC's inverse (R110). -/
def lonValue (x : Nat) : Int := rhu (x * 10 ^ 7) 190463 - 1800000000

/-- ALT.DEC's value (R112): rhu(1000 · (501/500)^c). -/
def altValue (c : Nat) : Int := rhu (1000 * 501 ^ c) (500 ^ c)

/-- CS.DEC's speed (R113): rhu(1000 · ((27/25)^d − 1)). -/
def speedValue (d : Nat) : Int := rhu (1000 * (27 ^ d - 25 ^ d)) (25 ^ d)

/-- RNG.DEC's range (R114): rhu(2000 · (27/25)^v). -/
def rangeValue (v : Nat) : Int := rhu (2000 * 27 ^ v) (25 ^ v)

/-- The test R115 counts: the altitude `a` exceeds threshold `j`. -/
def exceeds (a j : Nat) : Bool := decide (a ^ 2 * 500 ^ (2 * j - 1) > 10 ^ 6 * 501 ^ (2 * j - 1))

/-- The greatest threshold in [lo, hi] that `a` exceeds, `lo` itself where it exceeds none above; the thresholds a
value exceeds are a prefix of them all, so bisection finds it. -/
def altSearch (a : Nat) : (fuel lo hi : Nat) → Nat
  | 0, lo, _ => lo
  | fuel + 1, lo, hi =>
    if hi ≤ lo then lo
    else if exceeds a ((lo + hi + 1) / 2) then altSearch a fuel ((lo + hi + 1) / 2) hi
    else altSearch a fuel lo ((lo + hi + 1) / 2 - 1)

/-- AltCode(A) for A > 0 (R115): the number of thresholds j in [1, 8280] that `a` exceeds. It is found by bisection, in
14 tests; `Sys2Proof.Laws.altCode_eq_count` shows that it is R115's count (log 13). -/
def altCode (a : Nat) : Nat := altSearch a 14 0 8280

/-- The altitude code of P_ALT (R111, R157): 0 where P_ALT ≤ 0. -/
def altCodeOf (pAlt : Word) : Nat :=
  if pAlt.toInt ≤ 0 then 0 else altCode pAlt.toInt.toNat

/-- |P_LAT| > 90° (R107, R135, R156, R157). -/
def checkLat (s : State) : Except Raise Unit :=
  if s.point.lat.toInt.natAbs > 900000000 then
    .error { err := .validation, field := .lat, byte := 0, pos := 0 }
  else .ok ()

/-- |P_LON| > 180° (R108, R136, R156, R157). -/
def checkLon (s : State) : Except Raise Unit :=
  if s.point.lon.toInt.natAbs > 1800000000 then
    .error { err := .validation, field := .lon, byte := 0, pos := 0 }
  else .ok ()

/-! ### Degrees-decimal-minutes (42_geopoint.md) -/

/-- Hundredths of a minute of a value: rhu(6·F / 10^4) with F the fractional degrees (R130). -/
def minuteHundredths (m : Nat) : Nat := (rhu (6 * (m % 10 ^ 7 : Nat)) (10 ^ 4)).toNat

/-- DmmText with the degree field given by `asc` (R130). -/
def dmmText (asc : Nat → List Byte) (l : Int) (pos neg : Byte) : List Byte :=
  asc (l.natAbs / 10 ^ 7)
    ++ asc2 (minuteHundredths l.natAbs / 100) ++ [0x2E] ++ asc2 (minuteHundredths l.natAbs % 100)
    ++ [if 0 ≤ l then pos else neg]

/-- DmmText(L, 2, "N", "S") (R130). -/
def latText (l : Int) : List Byte := dmmText asc2 l 0x4E 0x53

/-- DmmText(L, 3, "E", "W") (R130). -/
def lonText (l : Int) : List Byte := dmmText asc3 l 0x45 0x57

/-- DmmValue(D, h, negative) (R131). -/
def dmmValue (d h : Nat) (negative : Bool) : Int :=
  if negative then -(d * 10 ^ 7 + rhu (h * 10 ^ 7) 6000) else d * 10 ^ 7 + rhu (h * 10 ^ 7) 6000

/-- A byte that breaks the grammar of a field (R132). -/
def fieldError (s : State) (f : Field) (i : Nat) : Raise :=
  { err := .decodeField, field := f, byte := (s.inByte i).toNat, pos := i }

/-- The value of the DIGIT byte at window offset `i` (R12, R132). -/
def decimalAt (s : State) (f : Field) (i : Nat) : Except Raise Nat :=
  if isDigit (s.inByte i) then .ok ((s.inByte i).toNat - 0x30) else .error (fieldError s f i)

/-- The value of `n` DIGIT bytes from window offset `i` on, checked in increasing order (R12, R132). -/
def decimalsFrom (s : State) (f : Field) : (n i acc : Nat) → Except Raise Nat
  | 0, _, acc => .ok acc
  | n + 1, i, acc => do
    let d ← decimalAt s f i
    decimalsFrom s f n (i + 1) (10 * acc + d)

/-- A degree field of `n` DIGIT bytes (R132). -/
def degreeField (s : State) (f : Field) (i n : Nat) : Except Raise Nat := decimalsFrom s f n i 0

/-- The point between minutes and hundredths (R132). -/
def pointAt (s : State) (f : Field) (i : Nat) : Except Raise Unit :=
  if s.inByte i = 0x2E then .ok () else .error (fieldError s f i)

/-- A minutes field, DIGIT DIGIT `.` DIGIT DIGIT, as hundredths of a minute (R132). -/
def minutesField (s : State) (f : Field) (i : Nat) : Except Raise Nat := do
  let mm ← decimalsFrom s f 2 i 0
  pointAt s f (i + 2)
  let hh ← decimalsFrom s f 2 (i + 3) 0
  .ok (100 * mm + hh)

/-- A latitude hemisphere letter, one of N S n s (R133). -/
def isLatHemi (b : Byte) : Bool := b == 0x4E || b == 0x53 || b == 0x6E || b == 0x73

/-- S and s make a latitude negative (R133). -/
def isSouth (b : Byte) : Bool := b == 0x53 || b == 0x73

/-- A longitude hemisphere letter, one of E W e w (R133). -/
def isLonHemi (b : Byte) : Bool := b == 0x45 || b == 0x57 || b == 0x65 || b == 0x77

/-- W and w make a longitude negative (R133). -/
def isWest (b : Byte) : Bool := b == 0x57 || b == 0x77

/-- The hemisphere check of DMM.DECLAT and DMM.DECLON (R137, R138). -/
def hemisphereAt (s : State) (ok : Byte → Bool) (f : Field) (i : Nat) : Except Raise Unit :=
  if ok (s.inByte i) then .ok () else .error (fieldError s f i)

/-! ### Position reports (43_aprs_position.md) -/

/-- The value of a signed register: v mod 2^64 (R7). -/
def signedWord (v : Int) : Word := BitVec.ofInt 64 v

/-- The outputs of a decoder whose pattern does not match (R152). -/
def State.noMatch (s : State) : State :=
  { s with
    point := Point.zero, sym := { table := space, code := space }
    remOff := s.ioff, remLen := s.ilen, status := { s.status with matched := false } }

/-- The outputs a matched decoder writes first and keeps on an error (R153): the zero point, P_SYM from the window
offsets of SYMTAB and SYMCODE, the remainder after a layout of `n` bytes, and MATCH. -/
def State.matchedReport (s : State) (n symtab symcode : Nat) : State :=
  { s with
    point := Point.zero, sym := { table := s.inByte symtab, code := s.inByte symcode }
    remOff := BitVec.ofNat 64 (s.ioff.toNat + n), remLen := BitVec.ofNat 64 (s.ilen.toNat - n)
    status := { s.status with matched := true } }

/-- The marker of a real-time report, `!` or `=` (R150, R151). -/
def isRealtimeMarker (b : Byte) : Bool := b == 0x21 || b == 0x3D

/-- The marker of a timestamped report, `/` or `@` (R150, R151). -/
def isTimestampMarker (b : Byte) : Bool := b == 0x2F || b == 0x40

/-- The latitude and longitude of an uncompressed report whose latitude field begins at window offset `i`: the fields of
R151's no-timestamp layout at the same distances, checked in the order of R158. -/
def dmmPosition (s : State) (i : Nat) : Except Raise (Int × Int) := do
  let d ← degreeField s .latDeg i 2
  let h ← minutesField s .latMin (i + 2)
  let dl ← degreeField s .lonDeg (i + 9) 3
  let hl ← minutesField s .lonMin (i + 12)
  .ok (dmmValue d h (isSouth (s.inByte (i + 7))), dmmValue dl hl (isWest (s.inByte (i + 17))))

/-- The timestamp of a timestamped report (R159): TSKIND and P_TIME from the format code at window offset 7 and the
six digits before it. -/
def timestamp (s : State) : BitVec 3 × Word :=
  let dec2 (i : Nat) : Nat := 10 * ((s.inByte i).toNat - 0x30) + ((s.inByte (i + 1)).toNat - 0x30)
  let stamp : Word := BitVec.ofNat 64 (dec2 1 * 2 ^ 16 + dec2 3 * 2 ^ 8 + dec2 5)
  if s.inByte 7 = 0x7A then (tsDhmUtc, stamp)
  else if s.inByte 7 = 0x2F then (tsDhmLocal, stamp)
  else if s.inByte 7 = 0x68 then (tsHmsUtc, stamp)
  else (tsNow, s.nowS)

/-- What the trailing field of a compressed report holds (R161). -/
inductive Extra where
  | none
  | altitude (c : Nat)
  | courseSpeed (d1 d2 : Nat)
  | radioRange (v : Nat)
  deriving DecidableEq, Repr

/-- ExtraClass (R161), the literal tests on the type byte, in their order. -/
def extraClass (t1 t2 ty : Byte) : Except Raise Extra := do
  if t1 = space then return .none
  let t ← digit ty .type 13
  if t &&& 0x18 = 0x10 then
    let a ← digit t1 .alt 11
    let b ← digit t2 .alt 12
    return .altitude (91 * a + b)
  if t ≤ 89 then
    let d1 ← digit t1 .courseSpeed 11
    let d2 ← digit t2 .courseSpeed 12
    return .courseSpeed d1 d2
  if t1 = 0x7B then
    let v ← digit t2 .range 12
    return .radioRange v
  return .none

/-- The extra fields of the Point (R160): EXTRA with P_ALT, with P_COURSE and P_SPEED, or with P_RANGE. -/
def Point.withExtra (p : Point) : Extra → Point
  | .none => { p with flags := { p.flags with extra := extraNone } }
  | .altitude c =>
    { p with flags := { p.flags with extra := extraAltitude }, alt := signedWord (altValue c) }
  | .courseSpeed d1 d2 =>
    { p with
      flags := { p.flags with extra := extraCourseSpeed }
      course := BitVec.ofNat 64 (4 * d1), speed := signedWord (speedValue d2) }
  | .radioRange v =>
    { p with flags := { p.flags with extra := extraRadioRange }, range := signedWord (rangeValue v) }

/-! ### AX.25 addresses (44_ax25.md) -/

/-- Byte k of a callsign (R38). -/
def AddrEntry.callByte (e : AddrEntry) (k : Nat) : Byte := e.call.extractLsb' (8 * k) 8

/-- The callsign byte k of an encoded address (R191): shifted left, bit 7 lost; a pad byte at and above CLEN. -/
def AddrEntry.shiftedByte (e : AddrEntry) (k : Nat) : Byte :=
  if k < e.info.clen.toNat then e.callByte k <<< 1 else 0x40

/-- The SSID byte (R192). -/
def ssidByte (ch : Bool) (ssid : Nat) (last : Bool) : Byte :=
  BitVec.ofNat 8 (ch.toNat * 0x80 + 0x60 + ssid * 2 + last.toNat)

/-- CheckAddr(i) (R193): the length first. -/
def checkAddr (s : State) (i : Nat) : Except Raise Unit :=
  if (s.entry i).info.clen.toNat > 6 then
    .error { err := .addressTooLong, field := .address, byte := (s.entry i).info.clen.toNat, pos := i }
  else if (s.entry i).info.ssid.toNat > 15 then
    .error { err := .ssidOutOfRange, field := .address, byte := (s.entry i).info.ssid.toNat, pos := i }
  else .ok ()

/-- EncAddr(i, last) (R194): the 7 bytes of entry i. -/
def encAddr (s : State) (i : Nat) (last : Bool) : Except Raise (List Byte) := do
  checkAddr s i
  .ok ((List.range 6).map (s.entry i).shiftedByte
    ++ [ssidByte (s.entry i).info.ch (s.entry i).info.ssid.toNat last])

/-- The addresses of a frame (R202): `k` more entries from entry `i` on, LAST on the final one only. -/
def encAddrs (s : State) : (k i : Nat) → Except Raise (List Byte)
  | 0, _ => .ok []
  | k + 1, i => do
    let a ← encAddr s i (k == 0)
    let rest ← encAddrs s k (i + 1)
    .ok (a ++ rest)

/-- The length of a callsign without its trailing spaces (R196). -/
def trimmedLength (c : Nat → Byte) : Nat → Nat
  | 0 => 0
  | n + 1 => if c n = space then trimmedLength c n else n + 1

/-- DecAddr (R196) on the 7 bytes from window offset `p` on. -/
def decAddr (s : State) (p : Nat) : AddrEntry :=
  let c (k : Nat) : Byte := s.inByte (p + k) >>> 1
  let b6 : Byte := s.inByte (p + 6)
  { call := (c 5 ++ c 4 ++ c 3 ++ c 2 ++ c 1 ++ c 0 : BitVec (8 + 8 + 8 + 8 + 8 + 8))
    info :=
      { clen := BitVec.ofNat 8 (trimmedLength c 6), ssid := (b6 >>> 1) &&& 0xF
        ch := b6.getLsbD 7, last := b6.getLsbD 0, rsv := b6.extractLsb' 5 2 } }

/-- The loop of AX25.DECF (R203): the entries from address `i` on, where `left` more fit the table, up to the one whose
LAST is set. -/
def decAddrs (s : State) : (left i : Nat) → Except Raise (List AddrEntry)
  | left, i =>
    if s.inLen < 7 * i + 7 then
      .error { err := .truncatedFrame, field := .address, byte := 0, pos := i }
    else
      match left with
      | 0 => .error { err := .capacityExceeded, field := .naddr, byte := 0, pos := i }
      | left' + 1 =>
        if (decAddr s (7 * i)).info.last then .ok [decAddr s (7 * i)]
        else do
          let rest ← decAddrs s left' (i + 1)
          .ok (decAddr s (7 * i) :: rest)

end Sys2Proof.Machine
end

