-- ==== Sys2Proof/Machine/AprsPosition.lean ====
section
/-! DEFINITION. The APRS position-field commands (43_aprs_position.md). -/

namespace Sys2Proof.Machine

/-- The VAL of APRS.CLASS (R155, R29): KIND + 4·MSGCAP from the first two bytes of the window. -/
def classOf (s : State) : Nat :=
  if 1 ≤ s.inLen ∧ isTimestampMarker (s.inByte 0) then 3 + 4 * (s.inByte 0 == 0x40).toNat
  else if 2 ≤ s.inLen ∧ isRealtimeMarker (s.inByte 0) then
    if s.inByte 1 = 0x2F ∨ s.inByte 1 = 0x5C then 1 + 4 * (s.inByte 0 == 0x3D).toNat
    else if isDigit (s.inByte 1) || isLetter (s.inByte 1) then 2 + 4 * (s.inByte 0 == 0x3D).toNat
    else 0
  else 0

/-- APRS.CLASS (R155). -/
def execAprsClass (s : State) : Host.Outcome State Fault Refusal :=
  complete s do
    checkWindow s
    .ok { s with val := BitVec.ofNat 64 (classOf s) }

/-- APRS.ENCU (R156): marker, latitude text, SYMTAB, longitude text, SYMCODE. -/
def execAprsEncU (s : State) : Host.Outcome State Fault Refusal :=
  complete s do
    checkLat s
    checkLon s
    emit s ([if s.point.flags.msgcap then 0x3D else 0x21] ++ latText s.point.lat.toInt ++ [s.sym.table]
      ++ lonText s.point.lon.toInt ++ [s.sym.code])

/-- APRS.ENCC (R157): `!`, SYMTAB, latitude and longitude digits, SYMCODE, altitude digits, the type byte 0x32 + 33.
VAL is not written. -/
def execAprsEncC (s : State) : Host.Outcome State Fault Refusal :=
  complete s do
    checkLat s
    checkLon s
    emit s ([0x21, s.sym.table] ++ b91Text (latCode s.point.lat.toInt).toNat 4
      ++ b91Text (lonCode s.point.lon.toInt).toNat 4 ++ [s.sym.code] ++ b91Text (altCodeOf s.point.alt) 2
      ++ [0x53])

/-- The pattern of APRS.DECU (R151, R152, R158). -/
def matchesU (s : State) : Bool :=
  decide (20 ≤ s.inLen) && isRealtimeMarker (s.inByte 0) && isLatHemi (s.inByte 8) && isLonHemi (s.inByte 18)

/-- The Point that a matched report without a timestamp, compressed or not, starts from (R158, R160): the marker `=`
gives MSGCAP, and the time is NOW. -/
def untimedPoint (s : State) (lat lon : Int) : Point :=
  { Point.zero with
    lat := signedWord lat, lon := signedWord lon, time := s.nowS
    flags := { msgcap := s.inByte 0 == 0x3D, tskind := tsNow, extra := extraNone } }

/-- APRS.DECU (R158). On an error the writes of `matchedReport` are kept (R153). -/
def execAprsDecU (s : State) : Host.Outcome State Fault Refusal :=
  match checkWindow s with
  | .error r => complete s (.error r)
  | .ok _ =>
    if matchesU s then
      complete (s.matchedReport 20 9 19) do
        let (lat, lon) ← dmmPosition s 1
        .ok { s.matchedReport 20 9 19 with point := untimedPoint s lat lon }
    else complete s (.ok s.noMatch)

/-- The pattern of APRS.DECT (R151, R152, R159). -/
def matchesT (s : State) : Bool :=
  decide (27 ≤ s.inLen) && isTimestampMarker (s.inByte 0) && (s.inBytes 1 6).all isDigit
    && isLatHemi (s.inByte 15) && isLonHemi (s.inByte 25)

/-- APRS.DECT (R159). -/
def execAprsDecT (s : State) : Host.Outcome State Fault Refusal :=
  match checkWindow s with
  | .error r => complete s (.error r)
  | .ok _ =>
    if matchesT s then
      complete (s.matchedReport 27 16 26) do
        let (lat, lon) ← dmmPosition s 8
        .ok { s.matchedReport 27 16 26 with
          point :=
            { Point.zero with
              lat := signedWord lat, lon := signedWord lon, time := (timestamp s).2
              flags := { msgcap := s.inByte 0 == 0x40, tskind := (timestamp s).1, extra := extraNone } } }
    else complete s (.ok s.noMatch)

/-- The pattern of APRS.DECC (R151, R152, R160): SYMTAB may be any byte. -/
def matchesC (s : State) : Bool :=
  decide (14 ≤ s.inLen) && isRealtimeMarker (s.inByte 0)

/-- APRS.DECC (R160). The digits are checked in the order latitude, longitude, type byte, extra (R235). -/
def execAprsDecC (s : State) : Host.Outcome State Fault Refusal :=
  match checkWindow s with
  | .error r => complete s (.error r)
  | .ok _ =>
    if matchesC s then
      complete (s.matchedReport 14 1 10) do
        let y ← digitsFrom s .lat 4 2 0
        let x ← digitsFrom s .lon 4 6 0
        let e ← extraClass (s.inByte 11) (s.inByte 12) (s.inByte 13)
        .ok { s.matchedReport 14 1 10 with point := (untimedPoint s (latValue y) (lonValue x)).withExtra e }
    else complete s (.ok s.noMatch)

end Sys2Proof.Machine
end

