-- ==== Sys2Proof/Machine/Ax25.lean ====
section
/-! DEFINITION. The AX.25 address and frame commands (44_ax25.md). -/

namespace Sys2Proof.Machine

/-- AX25.ENCA (R200): LAST comes from ADDR_META[0]. -/
def execAx25EncA (s : State) : Host.Outcome State Fault Refusal :=
  complete s do
    let a ← encAddr s 0 (s.entry 0).info.last
    emit s a

/-- AX25.DECA (R201). -/
def execAx25DecA (s : State) : Host.Outcome State Fault Refusal :=
  complete s do
    checkWindow s
    if s.inLen < 7 then
      .error { err := .truncatedFrame, field := .address, byte := 0, pos := 0 }
    else .ok { s.withRemainder 7 with addrs := s.addrs.set 0 (decAddr s 0) }

/-- The bounds of NADDR (R202). -/
def checkNaddr (s : State) : Except Raise Unit :=
  if s.naddr.toNat < 2 then
    .error { err := .validation, field := .naddr, byte := 0, pos := s.naddr.toNat }
  else if s.naddr.toNat > s.params.maxAddr then
    .error { err := .capacityExceeded, field := .naddr, byte := 0, pos := s.naddr.toNat }
  else .ok ()

/-- AX25.ENCF (R202): the addresses with LAST from their position, control 0x03, PID 0xF0, the window unmodified. -/
def execAx25EncF (s : State) : Host.Outcome State Fault Refusal :=
  complete s do
    checkWindow s
    checkNaddr s
    let a ← encAddrs s s.naddr.toNat 0
    emit s (a ++ [0x03, 0xF0] ++ s.inBytes 0 s.inLen)

/-- AX25.DECF (R203). Entries at or above the new NADDR keep their contents. -/
def execAx25DecF (s : State) : Host.Outcome State Fault Refusal :=
  complete s do
    checkWindow s
    let t ← decAddrs s s.params.maxAddr 0
    if s.inLen < 7 * t.length + 2 then
      .error { err := .truncatedFrame, field := .address, byte := 0, pos := t.length }
    else
      .ok { s.withRemainder (7 * t.length + 2) with
        addrs := t ++ s.addrs.drop t.length
        naddr := BitVec.ofNat 8 t.length
        frameHdr := { ctrl := s.inByte (7 * t.length), pid := s.inByte (7 * t.length + 1) } }

end Sys2Proof.Machine
end

