-- ==== Sys2Proof/Machine/Base91.lean ====
section
/-! DEFINITION. The Base91 codec commands (41_base91.md). -/

namespace Sys2Proof.Machine

/-- R91's check of W for the two digit commands. `decode` makes it first, so it fails only for a term of Instr that is
no command (log 12). -/
def checkWidth (op : Byte) (w : BitVec 3) : Except Raise Unit :=
  if widthLegal w then .ok () else .error (illegalRaise (.width op w))

/-- B91.ENC (R105). -/
def execB91Enc (w : BitVec 3) (s : State) : Host.Outcome State Fault Refusal :=
  complete s do
    checkWidth 0x10 w
    if s.val.toNat > 91 ^ w.toNat - 1 then
      .error { err := .validation, field := .value, byte := 0, pos := 0 }
    else emit s (b91Text s.val.toNat w.toNat)

/-- B91.DEC (R106). -/
def execB91Dec (w : BitVec 3) (s : State) : Host.Outcome State Fault Refusal :=
  complete s do
    checkWidth 0x11 w
    needLen s w.toNat
    let v ← digitsFrom s .value w.toNat 0 0
    .ok { s with val := BitVec.ofNat 64 v }

/-- LAT.PRE (R107). -/
def execLatPre (s : State) : Host.Outcome State Fault Refusal :=
  complete s do
    checkLat s
    .ok { s with val := signedWord (latCode s.point.lat.toInt) }

/-- LON.PRE (R108). -/
def execLonPre (s : State) : Host.Outcome State Fault Refusal :=
  complete s do
    checkLon s
    .ok { s with val := signedWord (lonCode s.point.lon.toInt) }

/-- LAT.DEC (R109). The range is not validated (R30). -/
def execLatDec (s : State) : Host.Outcome State Fault Refusal :=
  complete s do
    needLen s 4
    let y ← digitsFrom s .lat 4 0 0
    .ok { s with val := BitVec.ofNat 64 y, point := { s.point with lat := signedWord (latValue y) } }

/-- LON.DEC (R110). The range is not validated. -/
def execLonDec (s : State) : Host.Outcome State Fault Refusal :=
  complete s do
    needLen s 4
    let x ← digitsFrom s .lon 4 0 0
    .ok { s with val := BitVec.ofNat 64 x, point := { s.point with lon := signedWord (lonValue x) } }

/-- ALT.ENC (R111): every P_ALT value has a code. -/
def execAltEnc (s : State) : Host.Outcome State Fault Refusal :=
  complete s
    (emit { s with val := BitVec.ofNat 64 (altCodeOf s.point.alt) }
      [chr91 (altCodeOf s.point.alt / 91), chr91 (altCodeOf s.point.alt % 91)])

/-- ALT.DEC (R112). -/
def execAltDec (s : State) : Host.Outcome State Fault Refusal :=
  complete s do
    needLen s 2
    let c ← digitsFrom s .alt 2 0 0
    .ok { s with val := BitVec.ofNat 64 c, point := { s.point with alt := signedWord (altValue c) } }

/-- CS.DEC (R113). -/
def execCsDec (s : State) : Host.Outcome State Fault Refusal :=
  complete s do
    needLen s 2
    let d1 ← digit (s.inByte 0) .courseSpeed 0
    let d2 ← digit (s.inByte 1) .courseSpeed 1
    .ok { s with
      val := BitVec.ofNat 64 (91 * d1 + d2)
      point := { s.point with course := BitVec.ofNat 64 (4 * d1), speed := signedWord (speedValue d2) } }

/-- RNG.DEC (R114). -/
def execRngDec (s : State) : Host.Outcome State Fault Refusal :=
  complete s do
    needLen s 1
    let v ← digit (s.inByte 0) .range 0
    .ok { s with val := BitVec.ofNat 64 v, point := { s.point with range := signedWord (rangeValue v) } }

end Sys2Proof.Machine
end

