-- ==== Sys2Proof/Machine/Control.lean ====
section
/-! DEFINITION. The control command NOP (40_command_cycle.md). -/

namespace Sys2Proof.Machine

/-- NOP (R90): Exec does nothing; the command completes. -/
def execNop (s : State) : Host.Outcome State Fault Refusal :=
  complete s (.ok s)

end Sys2Proof.Machine
end

