-- ==== Sys2Proof/Machine/GeoPoint.lean ====
section
/-! DEFINITION. The degrees-decimal-minutes commands (42_geopoint.md). -/

namespace Sys2Proof.Machine

/-- DMM.ENCLAT (R135). -/
def execDmmEncLat (s : State) : Host.Outcome State Fault Refusal :=
  complete s do
    checkLat s
    emit s (latText s.point.lat.toInt)

/-- DMM.ENCLON (R136). -/
def execDmmEncLon (s : State) : Host.Outcome State Fault Refusal :=
  complete s do
    checkLon s
    emit s (lonText s.point.lon.toInt)

/-- DMM.DECLAT (R137): degrees, then minutes, then the hemisphere. The range is not validated. -/
def execDmmDecLat (s : State) : Host.Outcome State Fault Refusal :=
  complete s do
    needLen s 8
    let d ← degreeField s .latDeg 0 2
    let h ← minutesField s .latMin 2
    hemisphereAt s isLatHemi .latHemi 7
    .ok { s with point := { s.point with lat := signedWord (dmmValue d h (isSouth (s.inByte 7))) } }

/-- DMM.DECLON (R138). -/
def execDmmDecLon (s : State) : Host.Outcome State Fault Refusal :=
  complete s do
    needLen s 9
    let d ← degreeField s .lonDeg 0 3
    let h ← minutesField s .lonMin 3
    hemisphereAt s isLonHemi .lonHemi 8
    .ok { s with point := { s.point with lon := signedWord (dmmValue d h (isWest (s.inByte 8))) } }

end Sys2Proof.Machine
end

