-- ==== Sys2Proof/Machine/Dispatch.lean ====
section
/-! DEFINITION. The dispatch of commands to their meanings (30_encoding.md R71, column "rule"). -/

namespace Sys2Proof.Machine

def exec (i : Instr) (s : State) : Host.Outcome State Fault Refusal :=
  match i with
  | .nop => Sys2Proof.Machine.execNop s
  | .b91Enc w => Sys2Proof.Machine.execB91Enc w s
  | .b91Dec w => Sys2Proof.Machine.execB91Dec w s
  | .latPre => Sys2Proof.Machine.execLatPre s
  | .lonPre => Sys2Proof.Machine.execLonPre s
  | .latDec => Sys2Proof.Machine.execLatDec s
  | .lonDec => Sys2Proof.Machine.execLonDec s
  | .altEnc => Sys2Proof.Machine.execAltEnc s
  | .altDec => Sys2Proof.Machine.execAltDec s
  | .csDec => Sys2Proof.Machine.execCsDec s
  | .rngDec => Sys2Proof.Machine.execRngDec s
  | .dmmEncLat => Sys2Proof.Machine.execDmmEncLat s
  | .dmmEncLon => Sys2Proof.Machine.execDmmEncLon s
  | .dmmDecLat => Sys2Proof.Machine.execDmmDecLat s
  | .dmmDecLon => Sys2Proof.Machine.execDmmDecLon s
  | .aprsClass => Sys2Proof.Machine.execAprsClass s
  | .aprsEncU => Sys2Proof.Machine.execAprsEncU s
  | .aprsEncC => Sys2Proof.Machine.execAprsEncC s
  | .aprsDecU => Sys2Proof.Machine.execAprsDecU s
  | .aprsDecT => Sys2Proof.Machine.execAprsDecT s
  | .aprsDecC => Sys2Proof.Machine.execAprsDecC s
  | .ax25EncA => Sys2Proof.Machine.execAx25EncA s
  | .ax25DecA => Sys2Proof.Machine.execAx25DecA s
  | .ax25EncF => Sys2Proof.Machine.execAx25EncF s
  | .ax25DecF => Sys2Proof.Machine.execAx25DecF s

end Sys2Proof.Machine
end

