-- ==== Sys2Proof/Machine/HostPort.lean ====
section
/-! DEFINITION. The host port: the register map (10_state.md R23), the access shapes (20_memory.md R51 to R53), and what
a host access does while the block is idle, while it is busy (40_command_cycle.md R85, R86) and during reset (R260). -/

namespace Sys2Proof.Machine

/-- The registers of R23. -/
inductive Reg where
  | cmd
  | status
  | ioff
  | ilen
  | olen
  | remOff
  | remLen
  | val
  | pLat
  | pLon
  | pAlt
  | pCourse
  | pSpeed
  | pRange
  | pFlags
  | pTime
  | pSym
  | now
  | frameHdr
  | naddr
  | addrCall (i : Nat)
  | addrMeta (i : Nat)
  deriving DecidableEq, Repr

/-- ADDR_CALL[i] and ADDR_META[i] (R23): offsets 0x0A0 + 0x10·i and 0x0A8 + 0x10·i for i < MAX_ADDR. -/
def addrRegAt (maxAddr off : Nat) : Option Reg :=
  if 0x0A0 ≤ off ∧ (off - 0x0A0) / 0x10 < maxAddr then
    if (off - 0x0A0) % 0x10 = 0 then some (.addrCall ((off - 0x0A0) / 0x10))
    else if (off - 0x0A0) % 0x10 = 8 then some (.addrMeta ((off - 0x0A0) / 0x10))
    else none
  else none

/-- The register at an offset of the register space (R23); none at a reserved offset (R52). -/
def regAt (maxAddr off : Nat) : Option Reg :=
  match off with
  | 0x000 => some .cmd
  | 0x008 => some .status
  | 0x010 => some .ioff
  | 0x018 => some .ilen
  | 0x020 => some .olen
  | 0x028 => some .remOff
  | 0x030 => some .remLen
  | 0x038 => some .val
  | 0x040 => some .pLat
  | 0x048 => some .pLon
  | 0x050 => some .pAlt
  | 0x058 => some .pCourse
  | 0x060 => some .pSpeed
  | 0x068 => some .pRange
  | 0x070 => some .pFlags
  | 0x078 => some .pTime
  | 0x080 => some .pSym
  | 0x088 => some .now
  | 0x090 => some .frameHdr
  | 0x098 => some .naddr
  | off => addrRegAt maxAddr off

/-- What a host read of a register returns while the block is idle (R23 to R39): reserved bits read 0 (R41). -/
def State.readReg (s : State) : Reg → Word
  | .cmd => s.cmd
  | .status => s.statusWord
  | .ioff => s.ioff
  | .ilen => s.ilen
  | .olen => s.olen
  | .remOff => s.remOff
  | .remLen => s.remLen
  | .val => s.val
  | .pLat => s.point.lat
  | .pLon => s.point.lon
  | .pAlt => s.point.alt
  | .pCourse => s.point.course
  | .pSpeed => s.point.speed
  | .pRange => s.point.range
  | .pFlags => s.point.flags.word
  | .pTime => s.point.time
  | .pSym => s.sym.word
  | .now => s.now
  | .frameHdr => s.frameHdr.word
  | .naddr => s.naddr.setWidth 64
  | .addrCall i => (s.entry i).call.setWidth 64
  | .addrMeta i => (s.entry i).info.word

/-- A host write of 1 to STATUS bit 3 clears OVR; its other bits are ignored (R25, R56). -/
def State.writeStatus (s : State) (v : Word) : State :=
  if v.getLsbD 3 then { s with status := { s.status with ovr := false } } else s

/-- A host write to a register while the block is idle. A CMD write is accepted (R85) with the LATENCY drawn for it;
reserved bits are dropped (R41); a write to an "R" register is ignored (R23). -/
def State.writeReg (s : State) (v : Word) : Reg → State
  | .cmd => { s.accept v (Config.latency s.draws) with draws := s.draws + 1 }
  | .status => s.writeStatus v
  | .ioff => { s with ioff := v }
  | .ilen => { s with ilen := v }
  | .olen => s
  | .remOff => s
  | .remLen => s
  | .val => { s with val := v }
  | .pLat => { s with point := { s.point with lat := v } }
  | .pLon => { s with point := { s.point with lon := v } }
  | .pAlt => { s with point := { s.point with alt := v } }
  | .pCourse => { s with point := { s.point with course := v } }
  | .pSpeed => { s with point := { s.point with speed := v } }
  | .pRange => { s with point := { s.point with range := v } }
  | .pFlags => { s with point := { s.point with flags := PointFlags.ofWord v } }
  | .pTime => { s with point := { s.point with time := v } }
  | .pSym => { s with sym := Symbol.ofWord v }
  | .now => { s with now := v }
  | .frameHdr => s
  | .naddr => { s with naddr := v.setWidth 8 }
  | .addrCall i => { s with addrs := s.addrs.set i { s.entry i with call := v.setWidth 48 } }
  | .addrMeta i => { s with addrs := s.addrs.set i { s.entry i with info := AddrMeta.ofWord v } }

/-- Whether a block offset is IBUF[k] with k < IBUF_SIZE or OBUF[k] with k < OBUF_SIZE (R50). -/
def inBuffer (p : Params) (off : Nat) : Bool :=
  (decide (ibufBase ≤ off) && decide (off < ibufBase + p.ibufSize))
    || (decide (obufBase ≤ off) && decide (off < obufBase + p.obufSize))

/-- The byte an idle host read finds at a buffer offset; a reserved one reads 0 (R52). -/
def State.bufRead (s : State) (off : Nat) : Byte :=
  if inBuffer s.params off then s.readByte off else 0

/-- A byte written to a buffer offset; a reserved one ignores it (R52). -/
def State.bufWrite (s : State) (off : Nat) (b : Byte) : State :=
  if inBuffer s.params off then { s with mem := s.mem.write off b } else s

/-- Bytes written to consecutive buffer offsets. -/
def State.bufWriteAll (s : State) (off : Nat) : List Byte → State
  | [] => s
  | b :: bs => (s.bufWrite off b).bufWriteAll (off + 1) bs

/-- Byte k of a little-endian value (R54): bits [8k+7:8k]. -/
def leByte (v : Word) (k : Nat) : Byte := v.extractLsb' (8 * k) 8

/-- The value of bytes in little-endian order, zero-extended (R54). -/
def leWord : List Byte → Word
  | [] => 0
  | b :: bs => leWord bs <<< 8 ||| b.setWidth 64

/-- What a supported access reaches (R51): a register offset, or `n` bytes of a buffer region. -/
inductive Target where
  | register (off : Nat)
  | buffer (off n : Nat)
  deriving DecidableEq, Repr

/-- The supported access shapes (R51); none is every other (R53). -/
def targetOf (size : AccessSize) (off : Nat) : Option Target :=
  match size with
  | .b8 => if ibufBase ≤ off ∧ off < blockSize then some (.buffer off 1) else none
  | .b16 => none
  | .b32 => none
  | .b64 =>
    if off % 8 ≠ 0 then none
    else if off < ibufBase then some (.register off)
    else if off < blockSize then some (.buffer off 8)
    else none

/-- Whether a read returns an unspecified value (R86): the block is busy and the read is of a register other than STATUS
and CMD, or of a buffer. A reserved register offset is no register (log 10). -/
def State.readIsFree (s : State) : Target → Bool
  | .register off =>
    match regAt s.params.maxAddr off with
    | some .status => false
    | some .cmd => false
    | some _ => s.busy
    | none => false
  | .buffer _ _ => s.busy

/-- A defined read (R23, R51, R52). -/
def State.readValue (s : State) : Target → Word
  | .register off =>
    match regAt s.params.maxAddr off with
    | some r => s.readReg r
    | none => 0
  | .buffer off n => leWord ((List.range n).map fun k => s.bufRead (off + k))

/-- An unspecified read that draws `free`: reserved bytes within a buffer access read 0 all the same (R52, log 10). -/
def State.drawnValue (s : State) (free : Word) : Target → Word
  | .register _ => free
  | .buffer off n =>
    leWord ((List.range n).map fun k => if inBuffer s.params (off + k) then leByte free k else 0)

/-- A supported host read (R56): its value is the reply, and it has no other effect on the block. -/
def State.hostRead (s : State) (t : Target) : State :=
  if s.readIsFree t then
    { s with replies := s.replies ++ [s.drawnValue (Config.busyRead s.draws) t], draws := s.draws + 1 }
  else { s with replies := s.replies ++ [s.readValue t] }

/-- A host write dropped during BUSY (R86, R263). -/
def State.overrun (s : State) : State :=
  { s with status := { s.status with ovr := true } }

/-- A write while the block is idle. -/
def State.writeIdle (s : State) (v : Word) : Target → State
  | .register off =>
    match regAt s.params.maxAddr off with
    | some r => s.writeReg v r
    | none => s
  | .buffer off n => s.bufWriteAll off ((List.range n).map (leByte v))

/-- Whether a target is the STATUS register. -/
def State.isStatus (s : State) : Target → Bool
  | .register off => regAt s.params.maxAddr off == some .status
  | .buffer _ _ => false

/-- A supported host write (R85, R86): to STATUS it is honoured at all times; any other is honoured while the block is
idle, and dropped with OVR set while it is busy. -/
def State.hostWrite (s : State) (v : Word) (t : Target) : State :=
  if s.isStatus t then s.writeStatus v
  else if s.busy then s.overrun
  else s.writeIdle v t

/-- Whether a physical address is in the block space (R50). -/
def inBlock (p : Params) (addr : Nat) : Bool :=
  decide (p.base ≤ addr) && decide (addr < p.base + blockSize)

/-- The block offset that a host access of the given size reaches, or why the model refuses it (R53, R260). -/
def accessTarget (s : State) (size : AccessSize) (addr : Nat) : Except Refusal Target :=
  if s.rst then .error .accessDuringReset
  else if inBlock s.params addr then
    match targetOf size (addr - s.params.base) with
    | some t => .ok t
    | none => .error .unsupportedAccess
  else .error .outsideBlockSpace

/-- What one event of the host or the platform does. -/
def hostEvent (s : State) : HostEvent → Host.Outcome State Fault Refusal
  | .read size addr =>
    match accessTarget s size addr with
    | .ok t => .next (s.hostRead t)
    | .error r => .refused r
  | .write size addr data =>
    match accessTarget s size addr with
    | .ok t => .next (s.hostWrite data t)
    | .error r => .refused r
  | .rst true => .next s.assertReset
  | .rst false => .next s.releaseReset

/-- The turn of the host: its next event, if it has one. Without one the block holds its state (R244, R268). -/
def hostTurn (s : State) : Host.Outcome State Fault Refusal :=
  match s.inputs with
  | [] => .next s
  | e :: es => hostEvent { s with inputs := es } e

/-- One host-observable step of LATENCY passes (R267; log 4). -/
def State.tick (s : State) : State := { s with delay := s.delay - 1 }

end Sys2Proof.Machine
end

