-- ==== Sys2Proof/Machine/Engine.lean ====
section
/-! DEFINITION. The engine step (40_command_cycle.md R87). -/

namespace Sys2Proof.Machine

/-- The engine step on the pending word (R87, R91): NOW is sampled, then the word is dispatched. -/
def engineStep (c : Word) (s : State) : Host.Outcome State Fault Refusal :=
  match decode c with
  | .ok i => exec i s.sampleNow
  | .error e => execIllegal e s.sampleNow

end Sys2Proof.Machine
end

