-- ==== Sys2Proof/Machine/Step.lean ====
section
/-! DEFINITION. One step of the block: the engine step of 40_command_cycle.md R87 where it is due, else the host's turn. -/

namespace Sys2Proof.Machine

/-- One step. While RST is asserted no command is pending (R260) and only the host or the platform acts. A pending
command is executed once its LATENCY has passed (R87, R88; log 4); until then, and while none is pending, the host acts. -/
def step (s : State) : Host.Outcome State Fault Refusal :=
  if s.rst then hostTurn s
  else
    match s.pend with
    | none => hostTurn s
    | some c => if s.delay = 0 then engineStep c s else hostTurn s.tick

/-- `s` with a command word of `nbits` bits accepted and due (R85), so that the next step executes it; RST is released,
because the engine does not run while it is asserted. Bits of the word above `nbits` are 0 (log 6). -/
def State.withFetchWord (s : State) (nbits w : Nat) : State :=
  { s.accept (BitVec.ofNat 64 (w % 2 ^ nbits)) 0 with rst := false }

end Sys2Proof.Machine
end

