-- ==== Sys2Proof/Safety.lean ====
section
/-! DEFINITION. The terms the claims use: the invariant of the block, the shape of a completed and of a failed command,
and the spec's own notions (rounding, code points, field grammars) in mathematical form. -/

namespace Sys2Proof.Machine

/-! ### The invariant -/

/-- What holds of every state the block can be in, whatever its parameters and its host. -/
structure State.Inv (s : State) : Prop where
  /-- The parameters are in the ranges of R5. -/
  params : s.params.valid
  /-- The address table has MAX_ADDR entries (R43). -/
  table : s.addrs.length = s.params.maxAddr
  /-- The memory is in its one form (log 2). -/
  memForm : s.mem.wf
  /-- Only buffer bytes are stored (R50, R52). -/
  memInBuffers : ∀ c ∈ s.mem, inBuffer s.params c.1 = true
  /-- While BUSY, STATUS is as acceptance left it, but for OVR (R25, R85). -/
  busyStatus : s.busy = true → s.status.accepted = s.status
  /-- While RST is asserted no command is pending (R260). -/
  resetIdle : s.rst = true → s.pend = none
  /-- OLEN counts bytes of OBUF (R27). -/
  output : s.olen.toNat ≤ s.params.obufSize
  /-- The remainder is a range of IBUF (R28). -/
  remainder : s.remOff.toNat + s.remLen.toNat ≤ s.params.ibufSize
  /-- "Codes 10 to 255 are never written" (R231). -/
  errCode : s.status.err.toNat ≤ 9
  /-- Without an error the error fields are 0 (R87). -/
  noError : s.status.err = 0 → s.status.efield = 0 ∧ s.status.ebyte = 0 ∧ s.status.epos = 0

/-! ### Completion -/

/-- A command that has completed without an error and has written nothing but STATUS (R87). -/
def State.completed (s : State) : State :=
  { s with pend := none, status := { s.status with done := true } }

/-- A command that has completed with the given ERR, EFIELD, EBYTE and EPOS and has written nothing else (R230, R234). -/
def State.errored (s : State) (err efield ebyte : Byte) (epos : BitVec 16) : State :=
  { s with
    pend := none
    status := { s.status with done := true, err := err, efield := efield, ebyte := ebyte, epos := epos } }

/-- From `s` to `t`, the bytes `bs` have been written to OBUF[0], OBUF[1], …, OLEN is their number (R92), and every
other byte of the buffers reads as before (R57). -/
def Wrote (s t : State) (bs : List Byte) : Prop :=
  t.olen = BitVec.ofNat 64 bs.length
    ∧ (∀ k, (h : k < bs.length) → t.readByte (obufBase + k) = bs[k])
    ∧ ∀ a, (∀ k < bs.length, a ≠ obufBase + k) → t.readByte a = s.readByte a

/-! ### The spec's notions -/

/-- rhu of an exact rational (R8): floor(q + 1/2). -/
def roundHalfUp (q : ℚ) : ℤ := ⌊q + 1 / 2⌋

/-- The window lies in IBUF (R26). -/
def State.windowOk (s : State) : Prop := s.ioff.toNat + s.ilen.toNat ≤ s.params.ibufSize

/-- Byte `i` of the window is a Base91 digit (R100). -/
def State.b91At (s : State) (i : Nat) : Prop := 33 ≤ (s.inByte i).toNat ∧ (s.inByte i).toNat ≤ 123

/-- The value of the Base91 digit at window offset `i` (R100). -/
def State.b91Value (s : State) (i : Nat) : Nat := (s.inByte i).toNat - 33

/-- The code point of the `w` digits from window offset `i` on (R101): the sum of d(s[k])·91^(w−1−k). -/
def State.codePoint (s : State) (i w : Nat) : Nat :=
  ∑ k ∈ Finset.range w, s.b91Value (i + k) * 91 ^ (w - 1 - k)

/-- The Base91 text of width `w` of a code point (R101). -/
def codeText (v w : Nat) : List Byte :=
  (List.range w).map fun i => BitVec.ofNat 8 (33 + v / 91 ^ (w - 1 - i) % 91)

/-- R115's count: the thresholds j in [1, 8280] that `a` exceeds. -/
def thresholdCount (a : Nat) : Nat :=
  ((Finset.Icc 1 8280).filter fun j => a ^ 2 * 500 ^ (2 * j - 1) > 10 ^ 6 * 501 ^ (2 * j - 1)).card

/-- Byte `i` of the window is a DIGIT (R12). -/
def State.digitAt (s : State) (i : Nat) : Prop := 0x30 ≤ (s.inByte i).toNat ∧ (s.inByte i).toNat ≤ 0x39

/-- The value of the DIGIT at window offset `i` (R12). -/
def State.decimal (s : State) (i : Nat) : Nat := (s.inByte i).toNat - 0x30

/-- dec2 of the window bytes at `i` and `i + 1` (R12). -/
def State.dec2 (s : State) (i : Nat) : Nat := 10 * s.decimal i + s.decimal (i + 1)

/-- dec3 of the window bytes from `i` on (R12). -/
def State.dec3 (s : State) (i : Nat) : Nat := 100 * s.decimal i + 10 * s.decimal (i + 1) + s.decimal (i + 2)

/-- One byte check of the field grammar of R132: its window offset, the EFIELD code of its field, and whether the byte
must be the point between minutes and hundredths instead of a DIGIT. -/
structure GrammarByte where
  pos : Nat
  field : Byte
  isPoint : Bool

/-- A byte meets its check. -/
def State.meets (s : State) (g : GrammarByte) : Prop :=
  if g.isPoint then s.inByte g.pos = 0x2E else s.digitAt g.pos

/-- `n` degree digits from window offset `i` on, then the minutes field, in the order they are checked (R132). -/
def dmmGrammar (i n : Nat) (degrees minutes : Byte) : List GrammarByte :=
  (List.range n).map (fun k => { pos := i + k, field := degrees, isPoint := false })
    ++ (List.range 5).map (fun k => { pos := i + n + k, field := minutes, isPoint := k == 2 })

/-- The grammar of a latitude field DDMM.mm: LAT_DEG, then LAT_MIN. -/
def latGrammar (i : Nat) : List GrammarByte := dmmGrammar i 2 0x10 0x11

/-- The grammar of a longitude field DDDMM.mm: LON_DEG, then LON_MIN. -/
def lonGrammar (i : Nat) : List GrammarByte := dmmGrammar i 3 0x12 0x13

/-- The value of a latitude field at window offset `i`, in 10^-7 degree (R131, R132). -/
def State.latField (s : State) (i : Nat) (south : Bool) : ℤ :=
  (if south then -1 else 1)
    * ((s.dec2 i : ℤ) * 10 ^ 7 + roundHalfUp (((100 * s.dec2 (i + 2) + s.dec2 (i + 5) : ℕ) : ℚ) * 10 ^ 7 / 6000))

/-- The value of a longitude field at window offset `i` (R131, R132). -/
def State.lonField (s : State) (i : Nat) (west : Bool) : ℤ :=
  (if west then -1 else 1)
    * ((s.dec3 i : ℤ) * 10 ^ 7 + roundHalfUp (((100 * s.dec2 (i + 3) + s.dec2 (i + 6) : ℕ) : ℚ) * 10 ^ 7 / 6000))

/-- The minutes of a value in hundredths, rounded half up (R130). -/
def hundredthsOf (l : ℤ) : ℕ := (roundHalfUp (6 * ((l.natAbs % 10 ^ 7 : ℕ) : ℚ) / 10 ^ 4)).toNat

/-- Decimal text of `n` with `w` digits, zero-padded (R12). -/
def decimalText (n w : Nat) : List Byte :=
  (List.range w).map fun k => BitVec.ofNat 8 (0x30 + n / 10 ^ (w - 1 - k) % 10)

/-- DmmText(L, n, pos, neg) (R130). -/
def dmmTextOf (l : ℤ) (n : Nat) (pos neg : Byte) : List Byte :=
  decimalText (l.natAbs / 10 ^ 7) n ++ decimalText (hundredthsOf l / 100) 2 ++ [0x2E]
    ++ decimalText (hundredthsOf l % 100) 2 ++ [if 0 ≤ l then pos else neg]

/-- The 7 bytes of an address with callsign bytes from `call`, by the bit layout of R190 to R192. -/
def addressBytes (e : AddrEntry) (last : Bool) : List Byte :=
  (List.range 6).map (fun k =>
      if k < e.info.clen.toNat then BitVec.ofNat 8 (2 * ((e.call.toNat / 2 ^ (8 * k)) % 2 ^ 8)) else 0x40)
    ++ [BitVec.ofNat 8 ((if e.info.ch then 0x80 else 0) + 0x60 + 2 * e.info.ssid.toNat + (if last then 1 else 0))]

/-- `e` is the table entry that the 7 bytes `b 0`, …, `b 6` stand for (R196): callsign bytes without their low bit, CLEN
without the trailing spaces, and the fields of the SSID byte. -/
def IsDecodedAddress (b : Nat → Byte) (e : AddrEntry) : Prop :=
  e.call.toNat = ∑ k ∈ Finset.range 6, (b k).toNat / 2 * 2 ^ (8 * k)
    ∧ e.info.clen.toNat ≤ 6
    ∧ (∀ k, e.info.clen.toNat ≤ k → k < 6 → (b k).toNat / 2 = 0x20)
    ∧ (∀ k, k + 1 = e.info.clen.toNat → (b k).toNat / 2 ≠ 0x20)
    ∧ e.info.ssid.toNat = (b 6).toNat / 2 % 16
    ∧ (e.info.ch = true ↔ (b 6).toNat / 128 % 2 = 1)
    ∧ (e.info.last = true ↔ (b 6).toNat % 2 = 1)
    ∧ e.info.rsv.toNat = (b 6).toNat / 32 % 4

/-- Entry `i` may be encoded (R193). -/
def State.entryValid (s : State) (i : Nat) : Prop :=
  (s.entry i).info.clen.toNat ≤ 6 ∧ (s.entry i).info.ssid.toNat ≤ 15

/-! ### Shapes of commands -/

/-- A command that reads the window completes with CapacityExceeded(WINDOW) where the window is not in IBUF (R26, R89). -/
def ChecksWindow (i : Instr) : Prop :=
  ∀ s : State, ¬ s.windowOk → exec i s = .next (s.errored 8 0x30 0 0)

/-- A fixed-width decoder checks the window, then that it holds exactly `n` bytes, and completes with InputLength(WINDOW)
where it does not (R89). -/
def ChecksLength (i : Instr) (n : Nat) : Prop :=
  ChecksWindow i ∧ ∀ s : State, s.windowOk → s.ilen.toNat ≠ n →
    exec i s = .next (s.errored 9 0x30 0 (BitVec.ofNat 16 s.ilen.toNat))

/-- A decoder of exactly `n` Base91 digits with the given field code: its checks, its result where every digit is
valid, and InvalidDigit with the first invalid byte and its offset (R102). -/
def DecodesDigits (i : Instr) (n : Nat) (field : Byte) (result : State → State) : Prop :=
  ChecksLength i n ∧ ∀ s : State, s.windowOk → s.ilen.toNat = n →
    ((∀ k < n, s.b91At k) → exec i s = .next (result s))
      ∧ ∀ k < n, (∀ j < k, s.b91At j) → ¬ s.b91At k →
          exec i s = .next (s.errored 3 field (s.inByte k) (BitVec.ofNat 16 k))

/-- `g` is the first check of `gs`, in their order, that its byte does not meet (R132). -/
def State.firstBroken (s : State) (gs : List GrammarByte) (g : GrammarByte) : Prop :=
  ∃ before after, gs = before ++ g :: after ∧ (∀ b ∈ before, s.meets b) ∧ ¬ s.meets g

/-- The pattern of APRS.DECU (R151, R158). -/
def State.patternU (s : State) : Prop :=
  20 ≤ s.ilen.toNat ∧ s.inByte 0 ∈ [0x21, 0x3D] ∧ s.inByte 8 ∈ [0x4E, 0x53, 0x6E, 0x73]
    ∧ s.inByte 18 ∈ [0x45, 0x57, 0x65, 0x77]

/-- The pattern of APRS.DECT (R151, R159). -/
def State.patternT (s : State) : Prop :=
  27 ≤ s.ilen.toNat ∧ s.inByte 0 ∈ [0x2F, 0x40] ∧ (∀ k < 6, s.digitAt (1 + k))
    ∧ s.inByte 15 ∈ [0x4E, 0x53, 0x6E, 0x73] ∧ s.inByte 25 ∈ [0x45, 0x57, 0x65, 0x77]

/-- The pattern of APRS.DECC (R151, R160). -/
def State.patternC (s : State) : Prop :=
  14 ≤ s.ilen.toNat ∧ s.inByte 0 ∈ [0x21, 0x3D]

/-- What a position decoder leaves where its pattern does not match (R152). -/
def State.unmatched (s : State) : State :=
  { s with
    pend := none, point := Point.zero, sym := { table := 0x20, code := 0x20 }, remOff := s.ioff, remLen := s.ilen
    status := { s.status with done := true, matched := false } }

/-- What a position decoder leaves that matched a layout of `n` bytes, with SYMTAB and SYMCODE at the window offsets
`a` and `b`, and decoded the Point `p` (R153, R154). -/
def State.reported (s : State) (n a b : Nat) (p : Point) : State :=
  { s with
    pend := none, point := p, sym := { table := s.inByte a, code := s.inByte b }
    remOff := BitVec.ofNat 64 (s.ioff.toNat + n), remLen := BitVec.ofNat 64 (s.ilen.toNat - n)
    status := { s.status with done := true, matched := true } }

/-- What a matched position decoder leaves that raised: the "on error write" outputs of R153 and the error. -/
def State.reportError (s : State) (n a b : Nat) (err efield ebyte : Byte) (epos : BitVec 16) : State :=
  { s with
    pend := none, point := Point.zero, sym := { table := s.inByte a, code := s.inByte b }
    remOff := BitVec.ofNat 64 (s.ioff.toNat + n), remLen := BitVec.ofNat 64 (s.ilen.toNat - n)
    status :=
      { s.status with
        done := true, matched := true, err := err, efield := efield, ebyte := ebyte, epos := epos } }

/-- The Point of a compressed report without its extra field (R160). -/
def State.compressedPoint (s : State) : Point :=
  { lat := BitVec.ofInt 64 (900000000 - roundHalfUp ((s.codePoint 2 4 : ℚ) * 10 ^ 7 / 380926))
    lon := BitVec.ofInt 64 (roundHalfUp ((s.codePoint 6 4 : ℚ) * 10 ^ 7 / 190463) - 1800000000)
    alt := 0, course := 0, speed := 0, range := 0
    flags := { msgcap := decide (s.inByte 0 = 0x3D), tskind := 1, extra := 0 }
    time := s.nowS }

/-- Whether a host event is a supported access (R51) to a block with the given parameters; a change of RST is none. -/
def HostEvent.supported (p : Params) : HostEvent → Prop
  | .read size addr => inBlock p addr = true ∧ (targetOf size (addr - p.base)).isSome
  | .write size addr _ => inBlock p addr = true ∧ (targetOf size (addr - p.base)).isSome
  | .rst _ => False

end Sys2Proof.Machine
end

