-- ==== Sys2Proof/Certificates/Slice0/Obligations.lean ====
section
/-! DEFINITION. The statements about the model, each from the rules of the spec its docstring names. -/

open Sys2Proof Sys2Proof.Machine

/-! ### Encoding -/

/-- R70, R71, R72: decoding the word of a well-formed command gives the command back, with its width. -/
def Obligations.DecodeOfEncodeGivesCommand : Prop :=
  ∀ i : Instr, i.wf = true → decode (encode i) = .ok i

/-- R70, R73, R74: a word that decodes is the word of the command it decodes to, and that command is well-formed. -/
def Obligations.EncodeOfDecodeGivesWord : Prop :=
  ∀ (c : Word) (i : Instr), decode c = .ok i → i.wf = true ∧ encode i = c

/-- R77: "The command word of `cmd M w` is `OP(M) + 256·w`". -/
def Obligations.CommandWordIsOpPlusWidth : Prop :=
  ∀ i : Instr, (encode i).toNat = i.opcode.toNat + 256 * i.width.toNat

/-- R71: words written out from the opcode map decode to their commands, one or more of each family. -/
def Obligations.WordsOfEachFamilyDecode : Prop :=
  decode 0x0000 = .ok .nop ∧ decode 0x0410 = .ok (.b91Enc 4) ∧ decode 0x0211 = .ok (.b91Dec 2)
    ∧ decode 0x0111 = .ok (.b91Dec 1) ∧ decode 0x0016 = .ok .altEnc ∧ decode 0x0023 = .ok .dmmDecLon
    ∧ decode 0x0030 = .ok .aprsClass ∧ decode 0x0035 = .ok .aprsDecC ∧ decode 0x0042 = .ok .ax25EncF
    ∧ decode 0x0310 = .error (.width 0x10 3) ∧ decode 0x0810 = .error .reserved
    ∧ decode 0x001A = .error (.opcode 0x1A)

/-! ### The command cycle -/

/-- R87, R91: where a command is pending and due, one step samples NOW and executes the command its word decodes to.
"Due", a delay of 0, is the model's form of LATENCY (log 4). In particular a word placed by `withFetchWord` is executed
by the next step (log 6, the model's own notion). -/
def Obligations.StepExecutesPendingCommand : Prop :=
  (∀ (s : State) (c : Word) (i : Instr), s.rst = false → s.pend = some c → s.delay = 0 → decode c = .ok i →
      step s = exec i { s with nowS := s.now })
    ∧ ∀ (s : State) (i : Instr), i.wf = true →
        step (s.withFetchWord 64 (encode i).toNat)
          = exec i
              { s with
                rst := false, cmd := encode i, pend := some (encode i), delay := 0, nowS := s.now
                status :=
                  { done := false, matched := false, ovr := s.status.ovr, err := 0, efield := 0, ebyte := 0
                    epos := 0 } }

/-- R74, R91: an illegal word completes with IllegalCommand and writes nothing but STATUS (and the hidden NOW_S, R87);
RES is checked before OP and OP before W; EBYTE carries OP and EPOS carries W where the failed check has read them. The
command is due, a delay of 0 (log 4). -/
def Obligations.IllegalWordWritesOnlyStatus : Prop :=
  ∀ (s : State) (c : Word), s.rst = false → s.pend = some c → s.delay = 0 →
    (c.toNat / 2 ^ 11 ≠ 0 → step s = .next ({ s with nowS := s.now }.errored 7 0 0 0))
      ∧ (c.toNat / 2 ^ 11 = 0 →
          (∃ r ∈ [(0x01, 0x0F), (0x1A, 0x1F), (0x24, 0x2F), (0x36, 0x3F), (0x44, 0xFF)],
            r.1 ≤ c.toNat % 256 ∧ c.toNat % 256 ≤ r.2) →
          step s = .next ({ s with nowS := s.now }.errored 7 0 (BitVec.ofNat 8 (c.toNat % 256)) 0))
      ∧ (c.toNat / 2 ^ 11 = 0 →
          (∀ r ∈ [(0x01, 0x0F), (0x1A, 0x1F), (0x24, 0x2F), (0x36, 0x3F), (0x44, 0xFF)],
            ¬ (r.1 ≤ c.toNat % 256 ∧ c.toNat % 256 ≤ r.2)) →
          (if c.toNat % 256 ∈ [0x10, 0x11] then c.toNat / 256 ∉ [1, 2, 4] else c.toNat / 256 ≠ 0) →
          step s
            = .next
                ({ s with nowS := s.now }.errored 7 0 (BitVec.ofNat 8 (c.toNat % 256))
                  (BitVec.ofNat 16 (c.toNat / 256))))

/-- R85: a host write to CMD while the block is idle is accepted, whatever the word; OVR is not changed. The LATENCY
of the command and the counter it is drawn by are the model's (log 4). -/
def Obligations.IdleCmdWriteIsAccepted : Prop :=
  ∀ (s : State) (c : Word) (rest : List HostEvent), s.rst = false → s.pend = none →
    s.inputs = .write .b64 s.params.base c :: rest →
    ∃ delay draws, step s = .next
      { s with
        inputs := rest, cmd := c, pend := some c, delay := delay, draws := draws
        status :=
          { done := false, matched := false, ovr := s.status.ovr, err := 0, efield := 0, ebyte := 0, epos := 0 } }

/-- R86, R263: host accesses while a command is pending. A write to STATUS clears OVR where it writes 1 to bit 3; any
other supported write is dropped and sets OVR; STATUS and CMD read as they are; every other read changes nothing but the
reply. What such a read returns is a free value of the model (log 3), and where it goes is the model's (log 5). -/
def Obligations.BusyAccessesAreDroppedOrRead : Prop :=
  ∀ (s : State) (c : Word) (size : AccessSize) (addr : Nat) (t : Target), s.pend = some c →
    accessTarget s size addr = .ok t →
    (∀ v : Word,
        (t = .register 0x008 →
          hostEvent s (.write size addr v)
            = .next { s with status := { s.status with ovr := if v.getLsbD 3 then false else s.status.ovr } })
        ∧ (t ≠ .register 0x008 →
          hostEvent s (.write size addr v) = .next { s with status := { s.status with ovr := true } }))
    ∧ (t = .register 0x008 →
        hostEvent s (.read size addr) = .next { s with replies := s.replies ++ [s.statusWord] })
    ∧ (t = .register 0x000 →
        hostEvent s (.read size addr) = .next { s with replies := s.replies ++ [s.cmd] })
    ∧ ∃ v draws, hostEvent s (.read size addr) = .next { s with replies := s.replies ++ [v], draws := draws }

/-- R88, R268: every accepted command completes, once its LATENCY has passed, whatever supported accesses the host
makes meanwhile. The delay counter that stands for LATENCY is the model's (log 4), as is the list of what the host does
(log 5). -/
def Obligations.EveryAcceptedCommandCompletes : Prop :=
  ∀ (s : State) (c : Word), s.rst = false → s.pend = some c → (∀ e ∈ s.inputs, e.supported s.params) →
    ∃ t : State, Host.Core.run Sys2Proof.core (s.delay + 1) s = .next t ∧ t.pend = none ∧ t.status.done = true

/-- R88, R230: whatever the state and the operands, executing a command ends in a completed state. -/
def Obligations.ExecAlwaysCompletes : Prop :=
  ∀ (i : Instr) (s : State), ∃ t, exec i s = .next t ∧ t.pend = none ∧ t.status.done = true

/-- R53, R260, 93 U3 and U4: a step is refused only at a host access that is unsupported, or made while RST is asserted. -/
def Obligations.OnlyUnsupportedAccessesAreRefused : Prop :=
  ∀ (s : State) (r : Refusal), step s = .refused r →
    ∃ e rest, s.inputs = e :: rest ∧ (∀ level, e ≠ .rst level)
      ∧ ((s.rst = true ∧ r = .accessDuringReset)
        ∨ (s.rst = false ∧ ¬ e.supported s.params ∧ (r = .unsupportedAccess ∨ r = .outsideBlockSpace)))

/-! ### The error mechanism -/

/-- R234: a command that raises undoes every write but STATUS; a matched position decoder keeps the zeroed Point, P_SYM,
the remainder and MATCH. (ERR is 0 before a command, R85, so ERR ≠ 0 after it says that it raised.) -/
def Obligations.ErrorUndoesAllOtherWrites : Prop :=
  ∀ (i : Instr) (s t : State), exec i s = .next t → s.status.err = 0 → t.status.err ≠ 0 →
    (i ∉ [.aprsDecU, .aprsDecT, .aprsDecC] ∨ t.status.err = 8 →
        t = s.errored t.status.err t.status.efield t.status.ebyte t.status.epos)
      ∧ (∀ l ∈ [(Instr.aprsDecU, 20, 9, 19), (Instr.aprsDecT, 27, 16, 26), (Instr.aprsDecC, 14, 1, 10)],
          i = l.1 → t.status.err ≠ 8 →
          t = s.reportError l.2.1 l.2.2.1 l.2.2.2 t.status.err t.status.efield t.status.ebyte t.status.epos)

/-- R89: the window check of every command that reads the window, and after it the length check of every fixed-width
decoder, before any other check. -/
def Obligations.WindowThenLengthAreChecked : Prop :=
  (∀ i ∈ [Instr.aprsClass, .aprsDecU, .aprsDecT, .aprsDecC, .ax25DecA, .ax25EncF, .ax25DecF], ChecksWindow i)
    ∧ (∀ w : BitVec 3, widthLegal w = true → ChecksLength (.b91Dec w) w.toNat)
    ∧ ∀ l ∈ [(Instr.latDec, 4), (Instr.lonDec, 4), (Instr.altDec, 2), (Instr.csDec, 2), (Instr.rngDec, 1),
        (Instr.dmmDecLat, 8), (Instr.dmmDecLon, 9)], ChecksLength l.1 l.2

/-! ### Reset -/

/-- R45: after reset every register reads 0, so STATUS has BUSY, DONE, MATCH, OVR and ERR 0, and PEND holds no command. -/
def Obligations.ResetRegistersReadZero : Prop :=
  ∀ (p : Params) (off : Nat) (r : Reg), regAt p.maxAddr off = some r →
    (State.resetWith p).readReg r = 0 ∧ (State.resetWith p).pend = none

/-- R260: asserting RST puts the block in its reset state and discards a pending command; accesses while RST is
asserted are refused (93 U4); the buffers hold no byte written before (what they hold is a free value, log 2); releasing RST
changes only its level. The inputs' list is the model's (log 5, log 7). -/
def Obligations.AssertingRstResetsTheBlock : Prop :=
  (∀ (s : State) (rest : List HostEvent), s.rst = true ∨ s.pend = none ∨ s.delay ≠ 0 →
      s.inputs = .rst true :: rest →
      ∃ t, step s = .next t ∧ t.rst = true ∧ t.pend = none ∧ t.params = s.params ∧ t.inputs = rest
        ∧ (∀ off r, regAt t.params.maxAddr off = some r → t.readReg r = 0) ∧ ∀ a, t.mem.find a = none)
    ∧ (∀ (s : State) (e : HostEvent) (rest : List HostEvent), s.rst = true → s.inputs = e :: rest →
        (∀ level, e ≠ .rst level) → step s = .refused .accessDuringReset)
    ∧ ∀ (s : State) (rest : List HostEvent), s.rst = true → s.inputs = .rst false :: rest →
        step s = .next { s with inputs := rest, rst := false }

/-! ### The host port -/

/-- R41, R25, R56, with the fields of R24 to R39: a host write to an idle block stores every bit of a register but its
reserved ones, which read 0 in every state; it changes no other register; a write to an "R" register is ignored; a
write to STATUS clears OVR where it writes 1 to bit 3, and every other bit of it is ignored. A supported write event of
an idle block does that write; that a step of an idle block takes the next event of a list is the model's (log 5). -/
def Obligations.RegisterWriteKeepsFieldsOnly : Prop :=
  (∀ (s : State) (v : Word), s.pend = none → s.addrs.length = s.params.maxAddr →
    (∀ m ∈ [(0x010, 0xFFFFFFFFFFFFFFFF#64), (0x018, 0xFFFFFFFFFFFFFFFF#64), (0x038, 0xFFFFFFFFFFFFFFFF#64),
        (0x040, 0xFFFFFFFFFFFFFFFF#64), (0x048, 0xFFFFFFFFFFFFFFFF#64), (0x050, 0xFFFFFFFFFFFFFFFF#64),
        (0x058, 0xFFFFFFFFFFFFFFFF#64), (0x060, 0xFFFFFFFFFFFFFFFF#64), (0x068, 0xFFFFFFFFFFFFFFFF#64),
        (0x070, 0x3F#64), (0x078, 0xFFFFFFFFFFFFFFFF#64), (0x080, 0xFFFF#64), (0x088, 0xFFFFFFFFFFFFFFFF#64),
        (0x098, 0xFF#64)]
          ++ (List.range s.params.maxAddr).flatMap
              (fun i => [(0x0A0 + 0x10 * i, 0xFFFFFFFFFFFF#64), (0x0A8 + 0x10 * i, 0xFFFFF#64)]),
      (s.hostWrite v (.register m.1)).readValue (.register m.1) = v &&& m.2
        ∧ s.readValue (.register m.1) &&& ~~~ m.2 = 0
        ∧ ∀ off ≠ m.1, (s.hostWrite v (.register m.1)).readValue (.register off) = s.readValue (.register off))
    ∧ ∀ off ∈ [0x020, 0x028, 0x030, 0x090], s.hostWrite v (.register off) = s)
  ∧ ∀ s : State, s.pend = none →
    (∀ v : Word, s.hostWrite v (.register 0x008)
        = { s with status := { s.status with ovr := if v.getLsbD 3 then false else s.status.ovr } })
    ∧ (∀ (size : AccessSize) (addr : Nat) (v : Word) (t : Target), accessTarget s size addr = .ok t →
        hostEvent s (.write size addr v) = .next (s.hostWrite v t))
    ∧ ∀ (e : HostEvent) (rest : List HostEvent), s.rst = false → s.inputs = e :: rest →
        step s = hostEvent { s with inputs := rest } e

/-- R56: a supported read of an idle block has no effect on it; only the reply, which is the model's (log 5), is added.
A register reads as its value, at its offset of R23 and with its fields at the bits of R25 and R33 to R39. (BUSY is
whether a command is pending, log 8.) -/
def Obligations.IdleReadsHaveNoEffect : Prop :=
  (∀ (s : State) (size : AccessSize) (addr : Nat) (t : Target), s.pend = none → accessTarget s size addr = .ok t →
    hostEvent s (.read size addr) = .next { s with replies := s.replies ++ [s.readValue t] }
      ∧ ∀ off r, t = .register off → regAt s.params.maxAddr off = some r → s.readValue t = s.readReg r)
  ∧ ∀ s : State,
    (∀ m ∈ [(0x000, s.cmd), (0x010, s.ioff), (0x018, s.ilen), (0x020, s.olen), (0x028, s.remOff), (0x030, s.remLen),
        (0x038, s.val), (0x040, s.point.lat), (0x048, s.point.lon), (0x050, s.point.alt), (0x058, s.point.course),
        (0x060, s.point.speed), (0x068, s.point.range), (0x078, s.point.time), (0x088, s.now)],
      s.readValue (.register m.1) = m.2)
    ∧ (s.readValue (.register 0x008)).toNat
        = s.pend.isSome.toNat + s.status.done.toNat * 2 + s.status.matched.toNat * 2 ^ 2 + s.status.ovr.toNat * 2 ^ 3
          + s.status.err.toNat * 2 ^ 8 + s.status.efield.toNat * 2 ^ 16 + s.status.ebyte.toNat * 2 ^ 24
          + s.status.epos.toNat * 2 ^ 32
    ∧ (s.readValue (.register 0x070)).toNat
        = s.point.flags.msgcap.toNat + s.point.flags.tskind.toNat * 2 + s.point.flags.extra.toNat * 2 ^ 4
    ∧ (s.readValue (.register 0x080)).toNat = s.sym.table.toNat + s.sym.code.toNat * 2 ^ 8
    ∧ (s.readValue (.register 0x090)).toNat = s.frameHdr.ctrl.toNat + s.frameHdr.pid.toNat * 2 ^ 8
    ∧ (s.readValue (.register 0x098)).toNat = s.naddr.toNat
    ∧ ∀ i < s.params.maxAddr,
        (s.readValue (.register (0x0A0 + 0x10 * i))).toNat = (s.entry i).call.toNat
        ∧ (s.readValue (.register (0x0A8 + 0x10 * i))).toNat
            = (s.entry i).info.clen.toNat + (s.entry i).info.ssid.toNat * 2 ^ 8 + (s.entry i).info.ch.toNat * 2 ^ 16
              + (s.entry i).info.last.toNat * 2 ^ 17 + (s.entry i).info.rsv.toNat * 2 ^ 18

/-- R55, which the spec derives from R51 and R54, and R56: after a 64-bit write of `v` to a buffer an 8-bit read at
a + k returns v[8k+7:8k]; after an 8-bit write the byte is the value's; a 64-bit read is eight 8-bit reads; after eight
8-bit writes a 64-bit read returns their little-endian concatenation. A write of either width leaves every other byte
and every register unchanged. (That an 8-bit access carries its byte in the low bits is the model's, log 16.) -/
def Obligations.BufferAccessesAreLittleEndian : Prop :=
  (∀ (s : State) (v : Word) (a : Nat), s.pend = none →
    (∀ k < 8, inBuffer s.params (a + k) = true →
        ((s.hostWrite v (.buffer a 8)).readValue (.buffer (a + k) 1)).toNat = v.toNat / 2 ^ (8 * k) % 2 ^ 8)
    ∧ ((∀ k < 8, inBuffer s.params (a + k) = true) → (s.hostWrite v (.buffer a 8)).readValue (.buffer a 8) = v)
    ∧ (∀ b, b < a ∨ a + 8 ≤ b → (s.hostWrite v (.buffer a 8)).readByte b = s.readByte b)
    ∧ (inBuffer s.params a = true → ((s.hostWrite v (.buffer a 1)).readValue (.buffer a 1)).toNat = v.toNat % 2 ^ 8)
    ∧ (∀ b, b ≠ a → (s.hostWrite v (.buffer a 1)).readByte b = s.readByte b)
    ∧ ∀ n, s.hostWrite v (.buffer a n) = { s with mem := (s.hostWrite v (.buffer a n)).mem })
  ∧ (∀ (s : State) (a : Nat),
    (inBuffer s.params a = true → (s.readValue (.buffer a 1)).toNat = (s.readByte a).toNat)
    ∧ ∀ k < 8, (s.readValue (.buffer a 8)).toNat / 2 ^ (8 * k) % 2 ^ 8 = (s.readValue (.buffer (a + k) 1)).toNat)
  ∧ ∀ (s : State) (a : Nat) (v0 v1 v2 v3 v4 v5 v6 v7 : Byte), s.pend = none →
    (∀ k < 8, inBuffer s.params (a + k) = true) →
      ((([(0, v0), (1, v1), (2, v2), (3, v3), (4, v4), (5, v5), (6, v6), (7, v7)].foldl
          (fun u w => u.hostWrite (w.2.setWidth 64) (.buffer (a + w.1) 1)) s).readValue (.buffer a 8)).toNat)
        = v0.toNat + v1.toNat * 2 ^ 8 + v2.toNat * 2 ^ 16 + v3.toNat * 2 ^ 24 + v4.toNat * 2 ^ 32
          + v5.toNat * 2 ^ 40 + v6.toNat * 2 ^ 48 + v7.toNat * 2 ^ 56

/-- R52, for an idle block: a reserved register offset, and a buffer offset at or above its buffer's size, ignores
writes and reads 0, also byte by byte within a 64-bit buffer access. -/
def Obligations.ReservedOffsetsReadZero : Prop :=
  ∀ (s : State) (v : Word), s.pend = none →
    (∀ off, regAt s.params.maxAddr off = none →
        s.readValue (.register off) = 0 ∧ s.hostWrite v (.register off) = s)
    ∧ (∀ off, inBuffer s.params off = false →
        s.readValue (.buffer off 1) = 0 ∧ s.hostWrite v (.buffer off 1) = s)
    ∧ ∀ off, ∀ k < 8, inBuffer s.params (off + k) = false →
        (s.readValue (.buffer off 8)).toNat / 2 ^ (8 * k) % 2 ^ 8 = 0
          ∧ (s.hostWrite v (.buffer off 8)).mem.find (off + k) = s.mem.find (off + k)

/-- R53: every other access is refused: to an address outside the block space, a 16- or 32-bit one, an 8-bit one to the
register space, and a 64-bit one whose offset is not a multiple of 8. (That an address below BASE is refused like one
at offset 0x3000 or above is the model's choice, log 18.) -/
def Obligations.UnsupportedAccessesAreRefused : Prop :=
  ∀ (s : State) (size : AccessSize) (addr : Nat) (v : Word), s.rst = false →
    (addr < s.params.base ∨ s.params.base + 0x3000 ≤ addr →
        hostEvent s (.read size addr) = .refused .outsideBlockSpace
          ∧ hostEvent s (.write size addr v) = .refused .outsideBlockSpace)
    ∧ (s.params.base ≤ addr → addr < s.params.base + 0x3000 →
        (size = .b16 ∨ size = .b32 ∨ (size = .b8 ∧ addr < s.params.base + 0x1000)
          ∨ (size = .b64 ∧ (addr - s.params.base) % 8 ≠ 0)) →
        hostEvent s (.read size addr) = .refused .unsupportedAccess
          ∧ hostEvent s (.write size addr v) = .refused .unsupportedAccess)

/-! ### NOP and the Base91 commands -/

/-- R90: NOP is the word 0; it changes nothing but STATUS; executed after its acceptance from reset (R85: CMD and PEND
are 0, STATUS is BUSY only) it leaves STATUS 0x2 and every other register 0; with W or RES it is illegal. -/
def Obligations.NopChangesOnlyStatus : Prop :=
  (∀ s : State, exec .nop s = .next s.completed) ∧ decode 0 = .ok .nop
    ∧ (∀ c : Word, c.toNat % 256 = 0 → c ≠ 0 → ∃ e, decode c = .error e)
    ∧ ∀ t : State, step { State.reset with pend := some 0 } = .next t →
        t.statusWord = 2 ∧ ∀ off r, off ≠ 0x008 → regAt t.params.maxAddr off = some r → t.readReg r = 0

/-- R105, R101: B91.ENC writes the W digits of VAL, most significant first, and OLEN = W; VAL ≥ 91^W is a
ValidationError(VALUE). Nothing else changes. -/
def Obligations.Base91EncodeWritesDigits : Prop :=
  ∀ (s : State) (w : BitVec 3), s.params.valid → widthLegal w = true →
    (s.val.toNat ≤ 91 ^ w.toNat - 1 →
        ∃ t, exec (.b91Enc w) s = .next t ∧ t = { s.completed with mem := t.mem, olen := t.olen }
          ∧ Wrote s t (codeText s.val.toNat w.toNat))
    ∧ (s.val.toNat > 91 ^ w.toNat - 1 → exec (.b91Enc w) s = .next (s.errored 1 0x06 0 0))

/-- R106: B91.DEC reads exactly W digits as their code point. -/
def Obligations.Base91DecodeReadsCodePoint : Prop :=
  ∀ w : BitVec 3, widthLegal w = true →
    DecodesDigits (.b91Dec w) w.toNat 0x06
      (fun s => { s.completed with val := BitVec.ofNat 64 (s.codePoint 0 w.toNat) })

/-- R107, R108: LAT.PRE and LON.PRE write the rounded precompress transform to VAL; a value out of range is a
ValidationError. -/
def Obligations.PrecompressRoundsHalfUp : Prop :=
  ∀ s : State,
    (s.point.lat.toInt.natAbs ≤ 900000000 →
        exec .latPre s = .next
          { s.completed with
            val := BitVec.ofInt 64 (roundHalfUp (380926 * (900000000 - (s.point.lat.toInt : ℚ)) / 10 ^ 7)) })
    ∧ (900000000 < s.point.lat.toInt.natAbs → exec .latPre s = .next (s.errored 1 0x01 0 0))
    ∧ (s.point.lon.toInt.natAbs ≤ 1800000000 →
        exec .lonPre s = .next
          { s.completed with
            val := BitVec.ofInt 64 (roundHalfUp (190463 * (1800000000 + (s.point.lon.toInt : ℚ)) / 10 ^ 7)) })
    ∧ (1800000000 < s.point.lon.toInt.natAbs → exec .lonPre s = .next (s.errored 1 0x02 0 0))

/-- R109, R110: LAT.DEC and LON.DEC write the digits' code point to VAL and the rounded inverse, not range-checked, to
P_LAT or P_LON. (The spec marks the inverse as its own derivation from GB's precompress formulas.) -/
def Obligations.PositionDigitsDecode : Prop :=
  DecodesDigits .latDec 4 0x01
      (fun s =>
        { s.completed with
          val := BitVec.ofNat 64 (s.codePoint 0 4)
          point :=
            { s.point with
              lat := BitVec.ofInt 64 (900000000 - roundHalfUp ((s.codePoint 0 4 : ℚ) * 10 ^ 7 / 380926)) } })
    ∧ DecodesDigits .lonDec 4 0x02
      (fun s =>
        { s.completed with
          val := BitVec.ofNat 64 (s.codePoint 0 4)
          point :=
            { s.point with
              lon := BitVec.ofInt 64 (roundHalfUp ((s.codePoint 0 4 : ℚ) * 10 ^ 7 / 190463) - 1800000000) } })

/-- R111, R115: ALT.ENC writes the altitude code, the number of thresholds P_ALT exceeds and 0 for P_ALT ≤ 0, to VAL
and its two digits to OBUF; it never fails. -/
def Obligations.AltitudeEncodeCountsThresholds : Prop :=
  ∀ s : State, s.params.valid →
    ∃ t c, exec .altEnc s = .next t
      ∧ c = (if s.point.alt.toInt ≤ 0 then 0 else thresholdCount s.point.alt.toInt.toNat)
      ∧ t = { s.completed with val := BitVec.ofNat 64 c, mem := t.mem, olen := t.olen }
      ∧ Wrote s t [BitVec.ofNat 8 (33 + c / 91), BitVec.ofNat 8 (33 + c % 91)]

/-- R112, R113, R114: ALT.DEC, CS.DEC and RNG.DEC write the code to VAL and the rounded exact power to P_ALT; 4 times the
first digit to P_COURSE and the rounded power of the second to P_SPEED; the rounded power to P_RANGE. -/
def Obligations.AltitudeSpeedRangeDecode : Prop :=
  DecodesDigits .altDec 2 0x03
      (fun s =>
        { s.completed with
          val := BitVec.ofNat 64 (91 * s.b91Value 0 + s.b91Value 1)
          point :=
            { s.point with
              alt :=
                BitVec.ofInt 64 (roundHalfUp (1000 * (501 / 500 : ℚ) ^ (91 * s.b91Value 0 + s.b91Value 1))) } })
    ∧ DecodesDigits .csDec 2 0x04
      (fun s =>
        { s.completed with
          val := BitVec.ofNat 64 (91 * s.b91Value 0 + s.b91Value 1)
          point :=
            { s.point with
              course := BitVec.ofNat 64 (4 * s.b91Value 0)
              speed := BitVec.ofInt 64 (roundHalfUp (1000 * ((27 / 25 : ℚ) ^ s.b91Value 1 - 1))) } })
    ∧ DecodesDigits .rngDec 1 0x05
      (fun s =>
        { s.completed with
          val := BitVec.ofNat 64 (s.b91Value 0)
          point :=
            { s.point with range := BitVec.ofInt 64 (roundHalfUp (2000 * (27 / 25 : ℚ) ^ s.b91Value 0)) } })

/-! ### The degrees-decimal-minutes commands -/

/-- R135, R136, R130: DMM.ENCLAT and DMM.ENCLON write the degrees-decimal-minutes text, 8 and 9 bytes; a value out of
range is a ValidationError. -/
def Obligations.DmmEncodeWritesText : Prop :=
  ∀ s : State, s.params.valid →
    (s.point.lat.toInt.natAbs ≤ 900000000 →
        ∃ t, exec .dmmEncLat s = .next t ∧ t = { s.completed with mem := t.mem, olen := t.olen }
          ∧ Wrote s t (dmmTextOf s.point.lat.toInt 2 0x4E 0x53))
    ∧ (900000000 < s.point.lat.toInt.natAbs → exec .dmmEncLat s = .next (s.errored 1 0x01 0 0))
    ∧ (s.point.lon.toInt.natAbs ≤ 1800000000 →
        ∃ t, exec .dmmEncLon s = .next t ∧ t = { s.completed with mem := t.mem, olen := t.olen }
          ∧ Wrote s t (dmmTextOf s.point.lon.toInt 3 0x45 0x57))
    ∧ (1800000000 < s.point.lon.toInt.natAbs → exec .dmmEncLon s = .next (s.errored 1 0x02 0 0))

/-- R137, R132, R131, R133: DMM.DECLAT checks the degree field, the minutes field and the hemisphere in that order,
reports the first byte that breaks the grammar, and writes the value, not range-checked, to P_LAT. -/
def Obligations.DmmDecodeLatitude : Prop :=
  ChecksLength .dmmDecLat 8 ∧ ∀ s : State, s.windowOk → s.ilen.toNat = 8 →
    ((∀ g ∈ latGrammar 0, s.meets g) → s.inByte 7 ∈ [0x4E, 0x53, 0x6E, 0x73] →
        exec .dmmDecLat s = .next
          { s.completed with
            point :=
              { s.point with lat := BitVec.ofInt 64 (s.latField 0 (decide (s.inByte 7 ∈ [0x53, 0x73]))) } })
    ∧ (∀ g, s.firstBroken (latGrammar 0) g →
        exec .dmmDecLat s = .next (s.errored 2 g.field (s.inByte g.pos) (BitVec.ofNat 16 g.pos)))
    ∧ ((∀ g ∈ latGrammar 0, s.meets g) → s.inByte 7 ∉ [0x4E, 0x53, 0x6E, 0x73] →
        exec .dmmDecLat s = .next (s.errored 2 0x14 (s.inByte 7) 7))

/-- R138, R132, R131, R133: DMM.DECLON, the same with a 3-digit degree field and P_LON. -/
def Obligations.DmmDecodeLongitude : Prop :=
  ChecksLength .dmmDecLon 9 ∧ ∀ s : State, s.windowOk → s.ilen.toNat = 9 →
    ((∀ g ∈ lonGrammar 0, s.meets g) → s.inByte 8 ∈ [0x45, 0x57, 0x65, 0x77] →
        exec .dmmDecLon s = .next
          { s.completed with
            point :=
              { s.point with lon := BitVec.ofInt 64 (s.lonField 0 (decide (s.inByte 8 ∈ [0x57, 0x77]))) } })
    ∧ (∀ g, s.firstBroken (lonGrammar 0) g →
        exec .dmmDecLon s = .next (s.errored 2 g.field (s.inByte g.pos) (BitVec.ofNat 16 g.pos)))
    ∧ ((∀ g ∈ lonGrammar 0, s.meets g) → s.inByte 8 ∉ [0x45, 0x57, 0x65, 0x77] →
        exec .dmmDecLon s = .next (s.errored 2 0x15 (s.inByte 8) 8))

/-! ### The APRS position commands -/

/-- R155: APRS.CLASS writes KIND + 4·MSGCAP of the first two window bytes to VAL, for a window of any length. -/
def Obligations.ClassifyReportKind : Prop :=
  ChecksWindow .aprsClass ∧ ∀ s : State, s.windowOk →
    ∃ v : Nat, exec .aprsClass s = .next { s.completed with val := BitVec.ofNat 64 v }
      ∧ (s.ilen.toNat = 0 → v = 0)
      ∧ (1 ≤ s.ilen.toNat → s.inByte 0 = 0x40 → v = 7)
      ∧ (1 ≤ s.ilen.toNat → s.inByte 0 = 0x2F → v = 3)
      ∧ (1 ≤ s.ilen.toNat → s.inByte 0 ∉ [0x21, 0x3D, 0x2F, 0x40] → v = 0)
      ∧ (s.ilen.toNat = 1 → s.inByte 0 ∈ [0x21, 0x3D] → v = 0)
      ∧ (2 ≤ s.ilen.toNat → s.inByte 0 ∈ [0x21, 0x3D] → s.inByte 1 ∈ [0x2F, 0x5C] →
          v = if s.inByte 0 = 0x3D then 5 else 1)
      ∧ (2 ≤ s.ilen.toNat → s.inByte 0 ∈ [0x21, 0x3D] →
          (∃ r ∈ [(0x30, 0x39), (0x41, 0x5A), (0x61, 0x7A)], r.1 ≤ (s.inByte 1).toNat ∧ (s.inByte 1).toNat ≤ r.2) →
          v = if s.inByte 0 = 0x3D then 6 else 2)
      ∧ (2 ≤ s.ilen.toNat → s.inByte 0 ∈ [0x21, 0x3D] → s.inByte 1 ∉ [0x2F, 0x5C] →
          (∀ r ∈ [(0x30, 0x39), (0x41, 0x5A), (0x61, 0x7A)],
            ¬ (r.1 ≤ (s.inByte 1).toNat ∧ (s.inByte 1).toNat ≤ r.2)) → v = 0)

/-- R156: APRS.ENCU writes marker, latitude text, SYMTAB, longitude text and SYMCODE, 20 bytes; latitude is validated
before longitude. -/
def Obligations.UncompressedEncodeWritesReport : Prop :=
  ∀ s : State, s.params.valid →
    (s.point.lat.toInt.natAbs ≤ 900000000 → s.point.lon.toInt.natAbs ≤ 1800000000 →
        ∃ t, exec .aprsEncU s = .next t ∧ t = { s.completed with mem := t.mem, olen := t.olen }
          ∧ Wrote s t
              ([if s.point.flags.msgcap then 0x3D else 0x21] ++ dmmTextOf s.point.lat.toInt 2 0x4E 0x53
                ++ [s.sym.table] ++ dmmTextOf s.point.lon.toInt 3 0x45 0x57 ++ [s.sym.code])
          ∧ t.olen = 20)
    ∧ (900000000 < s.point.lat.toInt.natAbs → exec .aprsEncU s = .next (s.errored 1 0x01 0 0))
    ∧ (s.point.lat.toInt.natAbs ≤ 900000000 → 1800000000 < s.point.lon.toInt.natAbs →
        exec .aprsEncU s = .next (s.errored 1 0x02 0 0))

/-- R157: APRS.ENCC writes `!`, SYMTAB, the latitude and longitude digits, SYMCODE, the altitude digits and the type byte,
14 bytes. -/
def Obligations.CompressedEncodeWritesReport : Prop :=
  ∀ s : State, s.params.valid →
    (s.point.lat.toInt.natAbs ≤ 900000000 → s.point.lon.toInt.natAbs ≤ 1800000000 →
        ∃ t, exec .aprsEncC s = .next t ∧ t = { s.completed with mem := t.mem, olen := t.olen }
          ∧ Wrote s t
              ([0x21, s.sym.table]
                ++ codeText (roundHalfUp (380926 * (900000000 - (s.point.lat.toInt : ℚ)) / 10 ^ 7)).toNat 4
                ++ codeText (roundHalfUp (190463 * (1800000000 + (s.point.lon.toInt : ℚ)) / 10 ^ 7)).toNat 4
                ++ [s.sym.code]
                ++ codeText (if s.point.alt.toInt ≤ 0 then 0 else thresholdCount s.point.alt.toInt.toNat) 2
                ++ [0x32 + 33])
          ∧ t.olen = 14)
    ∧ (900000000 < s.point.lat.toInt.natAbs → exec .aprsEncC s = .next (s.errored 1 0x01 0 0))
    ∧ (s.point.lat.toInt.natAbs ≤ 900000000 → 1800000000 < s.point.lon.toInt.natAbs →
        exec .aprsEncC s = .next (s.errored 1 0x02 0 0))

/-- R152: a position decoder whose pattern does not match leaves the zero point, SPACE symbols and the whole window as
the remainder, with MATCH = 0 and no error. -/
def Obligations.PatternMismatchIsNoError : Prop :=
  ∀ s : State, s.windowOk →
    (¬ s.patternU → exec .aprsDecU s = .next s.unmatched)
      ∧ (¬ s.patternT → exec .aprsDecT s = .next s.unmatched)
      ∧ (¬ s.patternC → exec .aprsDecC s = .next s.unmatched)

/-- R158, R154: APRS.DECU on a matching report whose fields keep the grammar. -/
def Obligations.UncompressedDecodeReadsReport : Prop :=
  ∀ s : State, s.windowOk → s.patternU → (∀ g ∈ latGrammar 1 ++ lonGrammar 10, s.meets g) →
    exec .aprsDecU s = .next
      (s.reported 20 9 19
        { lat := BitVec.ofInt 64 (s.latField 1 (decide (s.inByte 8 ∈ [0x53, 0x73])))
          lon := BitVec.ofInt 64 (s.lonField 10 (decide (s.inByte 18 ∈ [0x57, 0x77])))
          alt := 0, course := 0, speed := 0, range := 0
          flags := { msgcap := decide (s.inByte 0 = 0x3D), tskind := 1, extra := 0 }
          time := s.nowS })

/-- R159, R154: APRS.DECT on a matching report whose fields keep the grammar: the format code z, / or h gives TSKIND
2, 3 or 4 and the raw digits in P_TIME; any other gives NOW. -/
def Obligations.TimestampedDecodeReadsReport : Prop :=
  ∀ s : State, s.windowOk → s.patternT → (∀ g ∈ latGrammar 8 ++ lonGrammar 17, s.meets g) →
    ∃ (kind : BitVec 3) (time : Word),
      exec .aprsDecT s = .next
        (s.reported 27 16 26
          { lat := BitVec.ofInt 64 (s.latField 8 (decide (s.inByte 15 ∈ [0x53, 0x73])))
            lon := BitVec.ofInt 64 (s.lonField 17 (decide (s.inByte 25 ∈ [0x57, 0x77])))
            alt := 0, course := 0, speed := 0, range := 0
            flags := { msgcap := decide (s.inByte 0 = 0x40), tskind := kind, extra := 0 }
            time := time })
      ∧ (s.inByte 7 = 0x7A → kind = 2) ∧ (s.inByte 7 = 0x2F → kind = 3) ∧ (s.inByte 7 = 0x68 → kind = 4)
      ∧ (s.inByte 7 ∈ [0x7A, 0x2F, 0x68] → time.toNat = s.dec2 1 * 2 ^ 16 + s.dec2 3 * 2 ^ 8 + s.dec2 5)
      ∧ (s.inByte 7 ∉ [0x7A, 0x2F, 0x68] → kind = 1 ∧ time = s.nowS)

/-- R153, R132, R158, R159: on a matching report the first byte that breaks the grammar, latitude before longitude and
degrees before minutes, is reported with its field and its offset, and the "on error write" outputs are kept. -/
def Obligations.MalformedReportKeepsSymbol : Prop :=
  ∀ (s : State) (g : GrammarByte), s.windowOk →
    (s.patternU → s.firstBroken (latGrammar 1 ++ lonGrammar 10) g →
        exec .aprsDecU s
          = .next (s.reportError 20 9 19 2 g.field (s.inByte g.pos) (BitVec.ofNat 16 g.pos)))
    ∧ (s.patternT → s.firstBroken (latGrammar 8 ++ lonGrammar 17) g →
        exec .aprsDecT s
          = .next (s.reportError 27 16 26 2 g.field (s.inByte g.pos) (BitVec.ofNat 16 g.pos)))

/-- R160, R161: APRS.DECC on a matching report with valid digits; the trailing field is classified by the literal tests
on the type byte. -/
def Obligations.CompressedDecodeReadsReport : Prop :=
  ∀ s : State, s.windowOk → s.patternC → (∀ k < 8, s.b91At (2 + k)) →
    (s.inByte 11 = 0x20 → exec .aprsDecC s = .next (s.reported 14 1 10 s.compressedPoint))
    ∧ (s.inByte 11 ≠ 0x20 → s.b91At 13 → s.b91Value 13 &&& 0x18 = 0x10 → s.b91At 11 → s.b91At 12 →
        exec .aprsDecC s = .next
          (s.reported 14 1 10
            { s.compressedPoint with
              flags := { s.compressedPoint.flags with extra := 1 }
              alt :=
                BitVec.ofInt 64 (roundHalfUp (1000 * (501 / 500 : ℚ) ^ (91 * s.b91Value 11 + s.b91Value 12))) }))
    ∧ (s.inByte 11 ≠ 0x20 → s.b91At 13 → s.b91Value 13 &&& 0x18 ≠ 0x10 → s.b91Value 13 ≤ 89 → s.b91At 11 →
        s.b91At 12 →
        exec .aprsDecC s = .next
          (s.reported 14 1 10
            { s.compressedPoint with
              flags := { s.compressedPoint.flags with extra := 2 }
              course := BitVec.ofNat 64 (4 * s.b91Value 11)
              speed := BitVec.ofInt 64 (roundHalfUp (1000 * ((27 / 25 : ℚ) ^ s.b91Value 12 - 1))) }))
    ∧ (s.b91Value 13 = 90 → s.b91At 13 → s.inByte 11 = 0x7B → s.b91At 12 →
        exec .aprsDecC s = .next
          (s.reported 14 1 10
            { s.compressedPoint with
              flags := { s.compressedPoint.flags with extra := 3 }
              range := BitVec.ofInt 64 (roundHalfUp (2000 * (27 / 25 : ℚ) ^ s.b91Value 12)) }))
    ∧ (s.b91Value 13 = 90 → s.b91At 13 → s.inByte 11 ≠ 0x20 → s.inByte 11 ≠ 0x7B →
        exec .aprsDecC s = .next (s.reported 14 1 10 s.compressedPoint))

/-- R153, R160, R161, R235: in a matching compressed report the first invalid digit is reported, in the order latitude,
longitude, type byte, extra digits, and the "on error write" outputs are kept. -/
def Obligations.CompressedDigitErrorsInOrder : Prop :=
  ∀ s : State, s.windowOk → s.patternC →
    (∀ k < 4, (∀ j < k, s.b91At (2 + j)) → ¬ s.b91At (2 + k) →
        exec .aprsDecC s
          = .next (s.reportError 14 1 10 3 0x01 (s.inByte (2 + k)) (BitVec.ofNat 16 (2 + k))))
    ∧ (∀ k < 4, (∀ j < 4 + k, s.b91At (2 + j)) → ¬ s.b91At (6 + k) →
        exec .aprsDecC s
          = .next (s.reportError 14 1 10 3 0x02 (s.inByte (6 + k)) (BitVec.ofNat 16 (6 + k))))
    ∧ ((∀ k < 8, s.b91At (2 + k)) → s.inByte 11 ≠ 0x20 →
        (¬ s.b91At 13 → exec .aprsDecC s = .next (s.reportError 14 1 10 3 0x07 (s.inByte 13) 13))
        ∧ (s.b91At 13 → s.b91Value 13 ≤ 89 → ∀ field : Byte,
            field = (if s.b91Value 13 &&& 0x18 = 0x10 then 0x03 else 0x04) →
            (¬ s.b91At 11 → exec .aprsDecC s = .next (s.reportError 14 1 10 3 field (s.inByte 11) 11))
              ∧ (s.b91At 11 → ¬ s.b91At 12 →
                exec .aprsDecC s = .next (s.reportError 14 1 10 3 field (s.inByte 12) 12)))
        ∧ (s.b91At 13 → s.b91Value 13 = 90 → s.inByte 11 = 0x7B → ¬ s.b91At 12 →
            exec .aprsDecC s = .next (s.reportError 14 1 10 3 0x05 (s.inByte 12) 12)))

/-- R154: "The block does not read any Point register it is about to overwrite, so the result does not depend on the
previous contents"; nor on the previous P_SYM and remainder. -/
def Obligations.PositionDecodeIgnoresOldPoint : Prop :=
  ∀ (s : State) (p : Point) (y : Symbol) (a b : Word), s.windowOk →
    ∀ i ∈ [Instr.aprsDecU, .aprsDecT, .aprsDecC],
      exec i { s with point := p, sym := y, remOff := a, remLen := b } = exec i s

/-! ### The AX.25 commands -/

/-- R200, R190 to R193: AX25.ENCA writes the 7 bytes of entry 0, LAST as the entry has it; the callsign length is checked
before the SSID. -/
def Obligations.AddressEncodeWritesSevenBytes : Prop :=
  ∀ s : State, s.params.valid →
    (s.entryValid 0 →
        ∃ t, exec .ax25EncA s = .next t ∧ t = { s.completed with mem := t.mem, olen := t.olen }
          ∧ Wrote s t (addressBytes (s.entry 0) (s.entry 0).info.last) ∧ t.olen = 7)
    ∧ (6 < (s.entry 0).info.clen.toNat →
        exec .ax25EncA s = .next (s.errored 4 0x20 (s.entry 0).info.clen 0))
    ∧ ((s.entry 0).info.clen.toNat ≤ 6 → 15 < (s.entry 0).info.ssid.toNat →
        exec .ax25EncA s = .next (s.errored 5 0x20 (s.entry 0).info.ssid 0))

/-- R201, R196: AX25.DECA decodes the first 7 window bytes to entry 0 and leaves the rest as the remainder; a shorter
window is a TruncatedFrame. -/
def Obligations.AddressDecodeReadsSevenBytes : Prop :=
  ChecksWindow .ax25DecA ∧ ∀ s : State, s.windowOk →
    (7 ≤ s.ilen.toNat → s.addrs.length = s.params.maxAddr → 2 ≤ s.params.maxAddr →
        ∃ e, exec .ax25DecA s = .next
            { s.completed with
              addrs := s.addrs.set 0 e, remOff := BitVec.ofNat 64 (s.ioff.toNat + 7)
              remLen := BitVec.ofNat 64 (s.ilen.toNat - 7) }
          ∧ IsDecodedAddress s.inByte e)
    ∧ (s.ilen.toNat < 7 → exec .ax25DecA s = .next (s.errored 6 0x20 0 0))

/-- R202, R195, R197: AX25.ENCF writes the addresses in table order with LAST on the final one only, the control byte,
the PID byte and the window unmodified. -/
def Obligations.FrameEncodeWritesFrame : Prop :=
  ∀ s : State, s.params.valid → s.windowOk → 2 ≤ s.naddr.toNat → s.naddr.toNat ≤ s.params.maxAddr →
    (∀ i < s.naddr.toNat, s.entryValid i) → 7 * s.naddr.toNat + 2 + s.ilen.toNat ≤ s.params.obufSize →
    ∃ t, exec .ax25EncF s = .next t ∧ t = { s.completed with mem := t.mem, olen := t.olen }
      ∧ Wrote s t
          ((List.range s.naddr.toNat).flatMap (fun i => addressBytes (s.entry i) (decide (i + 1 = s.naddr.toNat)))
            ++ [0x03, 0xF0] ++ (List.range s.ilen.toNat).map s.inByte)
      ∧ t.olen.toNat = 7 * s.naddr.toNat + 2 + s.ilen.toNat

/-- R202: the errors of AX25.ENCF in check order: the window, NADDR below 2, NADDR above MAX_ADDR, the lowest invalid
entry with its length before its SSID, and the capacity of OBUF. -/
def Obligations.FrameEncodeErrorsInOrder : Prop :=
  ChecksWindow .ax25EncF ∧ ∀ s : State, s.windowOk →
    (s.naddr.toNat < 2 → exec .ax25EncF s = .next (s.errored 1 0x32 0 (s.naddr.setWidth 16)))
    ∧ (2 ≤ s.naddr.toNat → s.params.maxAddr < s.naddr.toNat →
        exec .ax25EncF s = .next (s.errored 8 0x32 0 (s.naddr.setWidth 16)))
    ∧ (2 ≤ s.naddr.toNat → s.naddr.toNat ≤ s.params.maxAddr →
        (∀ i < s.naddr.toNat, (∀ j < i, s.entryValid j) →
          (6 < (s.entry i).info.clen.toNat →
              exec .ax25EncF s = .next (s.errored 4 0x20 (s.entry i).info.clen (BitVec.ofNat 16 i)))
          ∧ ((s.entry i).info.clen.toNat ≤ 6 → 15 < (s.entry i).info.ssid.toNat →
              exec .ax25EncF s = .next (s.errored 5 0x20 (s.entry i).info.ssid (BitVec.ofNat 16 i))))
        ∧ ((∀ i < s.naddr.toNat, s.entryValid i) →
            s.params.obufSize < 7 * s.naddr.toNat + 2 + s.ilen.toNat →
            exec .ax25EncF s = .next (s.errored 8 0x31 0 0)))

/-- R203, R196: AX25.DECF decodes addresses up to the first with LAST, then control and PID; entries at or above the
new NADDR keep their contents. -/
def Obligations.FrameDecodeReadsFrame : Prop :=
  ∀ (s : State) (n : Nat), s.windowOk → s.params.valid → s.addrs.length = s.params.maxAddr →
    1 ≤ n → n ≤ s.params.maxAddr → 7 * n + 2 ≤ s.ilen.toNat →
    (∀ i, i + 1 < n → (s.inByte (7 * i + 6)).toNat % 2 = 0) → (s.inByte (7 * (n - 1) + 6)).toNat % 2 = 1 →
    ∃ t, exec .ax25DecF s = .next t
      ∧ t =
        { s.completed with
          addrs := t.addrs, naddr := BitVec.ofNat 8 n
          frameHdr := { ctrl := s.inByte (7 * n), pid := s.inByte (7 * n + 1) }
          remOff := BitVec.ofNat 64 (s.ioff.toNat + 7 * n + 2)
          remLen := BitVec.ofNat 64 (s.ilen.toNat - 7 * n - 2) }
      ∧ t.addrs.length = s.addrs.length
      ∧ (∀ i < n, IsDecodedAddress (fun k => s.inByte (7 * i + k)) (t.entry i))
      ∧ ∀ i, n ≤ i → t.entry i = s.entry i

/-- R203: the errors of AX25.DECF: fewer than 7 bytes for address i, MAX_ADDR addresses without LAST and 7 more bytes,
or fewer than 2 bytes for control and PID after i addresses; nothing but STATUS is written. -/
def Obligations.FrameDecodeErrors : Prop :=
  ChecksWindow .ax25DecF ∧ ∀ (s : State) (i : Nat), s.windowOk →
    (i ≤ s.params.maxAddr → (∀ j < i, (s.inByte (7 * j + 6)).toNat % 2 = 0) →
        (7 * i ≤ s.ilen.toNat → s.ilen.toNat < 7 * i + 7 →
          exec .ax25DecF s = .next (s.errored 6 0x20 0 (BitVec.ofNat 16 i)))
        ∧ (i = s.params.maxAddr → 7 * i + 7 ≤ s.ilen.toNat →
          exec .ax25DecF s = .next (s.errored 8 0x32 0 (BitVec.ofNat 16 i))))
    ∧ (1 ≤ i → i ≤ s.params.maxAddr → (∀ j, j + 1 < i → (s.inByte (7 * j + 6)).toNat % 2 = 0) →
        (s.inByte (7 * (i - 1) + 6)).toNat % 2 = 1 → 7 * i ≤ s.ilen.toNat → s.ilen.toNat < 7 * i + 2 →
        exec .ax25DecF s = .next (s.errored 6 0x20 0 (BitVec.ofNat 16 i)))

/-! ### Round trips -/

/-- R116 (a), which the spec derives: B91.ENC then B91.DEC of its output, at the same width, returns VAL. -/
def Obligations.Base91RoundTrip : Prop :=
  ∀ (s t u : State) (w : BitVec 3), s.params.valid → widthLegal w = true → s.val.toNat ≤ 91 ^ w.toNat - 1 →
    exec (.b91Enc w) s = .next t → u.windowOk → u.ilen = t.olen →
    (∀ k < t.olen.toNat, u.inByte k = t.readByte (obufBase + k)) →
    exec (.b91Dec w) u = .next { u.completed with val := s.val }

/-- R116 (c), which the spec derives: LAT.PRE, then B91.ENC 4, then LAT.DEC of its output returns P_LAT within 14 units; LON within 27. -/
def Obligations.PrecompressRoundTrip : Prop :=
  ∀ s t m u : State, s.params.valid → exec (.b91Enc 4) t = .next m → u.windowOk → u.ilen = m.olen →
    (∀ k < m.olen.toNat, u.inByte k = m.readByte (obufBase + k)) →
    (s.point.lat.toInt.natAbs ≤ 900000000 → exec .latPre s = .next t →
        ∃ v, exec .latDec u = .next v ∧ (v.point.lat.toInt - s.point.lat.toInt).natAbs < 14)
    ∧ (s.point.lon.toInt.natAbs ≤ 1800000000 → exec .lonPre s = .next t →
        ∃ v, exec .lonDec u = .next v ∧ (v.point.lon.toInt - s.point.lon.toInt).natAbs < 27)

/-- R116 (b), which the spec derives: for altitudes from 1 to 100000 ft, ALT.ENC then ALT.DEC of its output is within 0.001·A + 0.5 of A. -/
def Obligations.AltitudeRoundTrip : Prop :=
  ∀ s t u : State, s.params.valid → 1000 ≤ s.point.alt.toInt → s.point.alt.toInt ≤ 100000000 →
    exec .altEnc s = .next t → u.windowOk → u.ilen = t.olen →
    (∀ k < t.olen.toNat, u.inByte k = t.readByte (obufBase + k)) →
    ∃ v, exec .altDec u = .next v
      ∧ |(v.point.alt.toInt : ℚ) - s.point.alt.toInt| ≤ (s.point.alt.toInt : ℚ) / 1000 + 1 / 2

/-- R139, which the spec derives: DMM.ENCLAT then DMM.DECLAT of its output returns P_LAT within 834 units; the same holds for longitude. -/
def Obligations.DmmRoundTrip : Prop :=
  ∀ s t u : State, s.params.valid → u.windowOk → u.ilen = t.olen →
    (∀ k < t.olen.toNat, u.inByte k = t.readByte (obufBase + k)) →
    (s.point.lat.toInt.natAbs ≤ 900000000 → exec .dmmEncLat s = .next t →
        ∃ v, exec .dmmDecLat u = .next v ∧ (v.point.lat.toInt - s.point.lat.toInt).natAbs < 834)
    ∧ (s.point.lon.toInt.natAbs ≤ 1800000000 → exec .dmmEncLon s = .next t →
        ∃ v, exec .dmmDecLon u = .next v ∧ (v.point.lon.toInt - s.point.lon.toInt).natAbs < 834)

/-- R163, which the spec derives: APRS.ENCU then APRS.DECU of its output matches, recovers both coordinates within 834 units, and returns the
symbol and the message capability. -/
def Obligations.UncompressedReportRoundTrip : Prop :=
  ∀ s t u : State, s.params.valid → s.point.lat.toInt.natAbs ≤ 900000000 →
    s.point.lon.toInt.natAbs ≤ 1800000000 → exec .aprsEncU s = .next t → u.windowOk → u.ilen = t.olen →
    (∀ k < t.olen.toNat, u.inByte k = t.readByte (obufBase + k)) →
    ∃ v, exec .aprsDecU u = .next v ∧ v.status.matched = true ∧ v.status.err = u.status.err
      ∧ (v.point.lat.toInt - s.point.lat.toInt).natAbs < 834
      ∧ (v.point.lon.toInt - s.point.lon.toInt).natAbs < 834
      ∧ v.sym = s.sym ∧ v.point.flags.msgcap = s.point.flags.msgcap

/-- R163, R157, which the spec derives: APRS.ENCC then APRS.DECC of its output matches, recovers latitude within 14 and longitude within 27
units, always with an altitude extra, and returns the symbol. -/
def Obligations.CompressedReportRoundTrip : Prop :=
  ∀ s t u : State, s.params.valid → s.point.lat.toInt.natAbs ≤ 900000000 →
    s.point.lon.toInt.natAbs ≤ 1800000000 → exec .aprsEncC s = .next t → u.windowOk → u.ilen = t.olen →
    (∀ k < t.olen.toNat, u.inByte k = t.readByte (obufBase + k)) →
    ∃ v, exec .aprsDecC u = .next v ∧ v.status.matched = true ∧ v.status.err = u.status.err
      ∧ (v.point.lat.toInt - s.point.lat.toInt).natAbs < 14
      ∧ (v.point.lon.toInt - s.point.lon.toInt).natAbs < 27
      ∧ v.point.flags.extra = 1 ∧ v.sym = s.sym

/-- R204 (b), which the spec derives: AX25.DECA then AX25.ENCA reproduces 7 bytes whose callsign bytes have bit 0 clear and whose reserved bits
are 1 1. -/
def Obligations.AddressRoundTrip : Prop :=
  ∀ s t : State, s.params.valid → s.addrs.length = s.params.maxAddr → s.windowOk → 7 ≤ s.ilen.toNat →
    (∀ k < 6, (s.inByte k).toNat % 2 = 0) → (s.inByte 6).toNat / 32 % 4 = 3 → exec .ax25DecA s = .next t →
    ∃ v, exec .ax25EncA t = .next v ∧ Wrote t v ((List.range 7).map s.inByte)

/-- R204 (a), which the spec derives: AX25.ENCF then AX25.DECF of its output restores NADDR, every entry's callsign below CLEN, CLEN, SSID and
CH, LAST on the final entry only, RSV = 3, the header and the payload as the remainder. -/
def Obligations.FrameRoundTrip : Prop :=
  ∀ s t u : State, s.params.valid → s.windowOk → 2 ≤ s.naddr.toNat → s.naddr.toNat ≤ s.params.maxAddr →
    (∀ i < s.naddr.toNat, s.entryValid i
      ∧ (∀ k < (s.entry i).info.clen.toNat, ((s.entry i).callByte k).toNat < 0x80)
      ∧ ∀ k, k + 1 = (s.entry i).info.clen.toNat → (s.entry i).callByte k ≠ 0x20) →
    7 * s.naddr.toNat + 2 + s.ilen.toNat ≤ s.params.obufSize → exec .ax25EncF s = .next t →
    u.params = s.params → u.addrs.length = u.params.maxAddr → u.windowOk → u.ilen = t.olen →
    (∀ k < t.olen.toNat, u.inByte k = t.readByte (obufBase + k)) →
    ∃ v, exec .ax25DecF u = .next v ∧ v.status.err = u.status.err ∧ v.naddr = s.naddr
      ∧ (∀ i < s.naddr.toNat,
          (v.entry i).info.clen = (s.entry i).info.clen ∧ (v.entry i).info.ssid = (s.entry i).info.ssid
            ∧ (v.entry i).info.ch = (s.entry i).info.ch
            ∧ (∀ k < (s.entry i).info.clen.toNat, (v.entry i).callByte k = (s.entry i).callByte k)
            ∧ (v.entry i).info.last = decide (i + 1 = s.naddr.toNat) ∧ (v.entry i).info.rsv = 3)
      ∧ v.frameHdr = { ctrl := 0x03, pid := 0xF0 }
      ∧ v.remOff.toNat = u.ioff.toNat + 7 * s.naddr.toNat + 2 ∧ v.remLen = s.ilen
      ∧ ∀ k < s.ilen.toNat, u.inByte (7 * s.naddr.toNat + 2 + k) = s.inByte k

/-! ### Frames and invariants -/

/-- The invariant of the block is kept by every step, from every state that meets it (R5, R25, R27, R28, R43, R50, R231). -/
def Obligations.StepKeepsTheInvariant : Prop :=
  ∀ s t : State, s.Inv → step s = .next t → t.Inv

/-- The reset state of a block with admitted parameters meets the invariant. -/
def Obligations.ResetMeetsTheInvariant : Prop :=
  (∀ p : Params, p.valid → (State.resetWith p).Inv) ∧ State.reset.Inv

/-- R20, R22, R57, R240: no command changes what only the host, the platform or acceptance changes: the parameters, CMD,
IOFF, ILEN, NOW, OVR and the level of RST; nor the sample it was given, nor the model's own fields (log 2 to log 5). -/
def Obligations.CommandsLeaveHostRegisters : Prop :=
  ∀ (i : Instr) (s t : State), exec i s = .next t →
    t.params = s.params ∧ t.cmd = s.cmd ∧ t.ioff = s.ioff ∧ t.ilen = s.ilen ∧ t.now = s.now ∧ t.nowS = s.nowS
      ∧ t.status.ovr = s.status.ovr ∧ t.rst = s.rst ∧ t.delay = s.delay ∧ t.inputs = s.inputs
      ∧ t.replies = s.replies ∧ t.resets = s.resets ∧ t.draws = s.draws

/-- R57: no command writes IBUF, and the positions of OBUF at or above OLEN keep their contents. -/
def Obligations.CommandsWriteOnlyOutputBytes : Prop :=
  ∀ (i : Instr) (s t : State), s.params.valid → exec i s = .next t →
    (∀ a < obufBase, t.readByte a = s.readByte a)
      ∧ ∀ k, t.olen.toNat ≤ k → t.readByte (obufBase + k) = s.readByte (obufBase + k)

/-- R76, the results column, with R27 and R25: a command changes no register but the ones the table lists for it and
STATUS; AX25.DECA keeps every entry but entry 0, and AX25.DECF those at or above the new NADDR; MATCH is changed by the
position decoders only. -/
def Obligations.CommandsWriteOnlyListedRegisters : Prop :=
  ∀ (i : Instr) (s t : State), exec i s = .next t →
    (i ∉ [.aprsDecU, .aprsDecT, .aprsDecC] → t.status.matched = s.status.matched)
    ∧ (i = .nop → t = { s with pend := none, status := t.status })
    ∧ ((∃ w, i = .b91Dec w) ∨ i ∈ [.latPre, .lonPre, .aprsClass] →
        t = { s with pend := none, status := t.status, val := t.val })
    ∧ ((∃ w, i = .b91Enc w) ∨ i ∈ [.dmmEncLat, .dmmEncLon, .aprsEncU, .aprsEncC, .ax25EncA, .ax25EncF] →
        t = { s with pend := none, status := t.status, mem := t.mem, olen := t.olen })
    ∧ (i = .altEnc → t = { s with pend := none, status := t.status, val := t.val, mem := t.mem, olen := t.olen })
    ∧ (i = .latDec →
        t = { s with pend := none, status := t.status, val := t.val, point := { s.point with lat := t.point.lat } })
    ∧ (i = .lonDec →
        t = { s with pend := none, status := t.status, val := t.val, point := { s.point with lon := t.point.lon } })
    ∧ (i = .altDec →
        t = { s with pend := none, status := t.status, val := t.val, point := { s.point with alt := t.point.alt } })
    ∧ (i = .csDec →
        t =
          { s with
            pend := none, status := t.status, val := t.val
            point := { s.point with course := t.point.course, speed := t.point.speed } })
    ∧ (i = .rngDec →
        t =
          { s with pend := none, status := t.status, val := t.val, point := { s.point with range := t.point.range } })
    ∧ (i = .dmmDecLat → t = { s with pend := none, status := t.status, point := { s.point with lat := t.point.lat } })
    ∧ (i = .dmmDecLon → t = { s with pend := none, status := t.status, point := { s.point with lon := t.point.lon } })
    ∧ (i ∈ [.aprsDecU, .aprsDecT, .aprsDecC] →
        t =
          { s with
            pend := none, status := t.status, point := t.point, sym := t.sym, remOff := t.remOff
            remLen := t.remLen })
    ∧ (i = .ax25DecA →
        t = { s with pend := none, status := t.status, addrs := t.addrs, remOff := t.remOff, remLen := t.remLen }
          ∧ ∀ k, 1 ≤ k → t.entry k = s.entry k)
    ∧ (i = .ax25DecF →
        t =
          { s with
            pend := none, status := t.status, addrs := t.addrs, naddr := t.naddr, frameHdr := t.frameHdr
            remOff := t.remOff, remLen := t.remLen }
          ∧ (s.params.valid → ∀ k, t.naddr.toNat ≤ k → t.entry k = s.entry k))

/-- R32 and R76, the operands column: no command but those that overwrite them is influenced by P_COURSE, P_SPEED or
P_RANGE, and no command but the position decoders is influenced by the NOW sample. -/
def Obligations.UnlistedOperandsHaveNoInfluence : Prop :=
  ∀ (i : Instr) (s t : State), exec i s = .next t →
    (i ∉ [.csDec, .rngDec, .aprsDecU, .aprsDecT, .aprsDecC] → ∀ a b c : Word,
        exec i { s with point := { s.point with course := a, speed := b, range := c } }
          = .next { t with point := { t.point with course := a, speed := b, range := c } })
    ∧ (i ∉ [.aprsDecU, .aprsDecT, .aprsDecC] → ∀ n : Word,
        exec i { s with nowS := n } = .next { t with nowS := n })
end

