-- ==== Sys2Proof/Laws/Arith.lean ====
section
/-! SUPPORT. The numeric functions of Machine/Operands.lean say what the spec says: rounding is the floor of the exact
rational (R8), the altitude code is R115's count, and the texts are the texts of R101 and R130. -/

namespace Sys2Proof.Laws

open Sys2Proof.Machine

/-- R8: rhu is floor(q + 1/2) of the exact rational. -/
theorem rhu_eq_floor (n : Int) (d : Nat) (hd : 0 < d) : rhu n d = roundHalfUp ((n : ℚ) / d) := by
  have hd' : (0 : ℚ) < d := by exact_mod_cast hd
  have h : (n : ℚ) / d + 1 / 2 = ((2 * n + d : ℤ) : ℚ) / ((2 * d : ℕ) : ℚ) := by
    push_cast
    field_simp
  rw [roundHalfUp, h, Rat.floor_intCast_div_natCast, rhu]
  push_cast
  rfl

/-- rhu(n/d) is within one half of n/d, as integer inequalities. -/
theorem rhu_bounds (n : Int) (d : Nat) (hd : 0 < d) : 2 * n - d < 2 * d * rhu n d ∧ 2 * d * rhu n d ≤ 2 * n + d := by
  have h1 := Int.emod_add_mul_ediv (2 * n + d) (2 * d)
  have h2 := Int.emod_nonneg (2 * n + d) (b := 2 * d) (by omega)
  have h3 := Int.emod_lt_of_pos (2 * n + d) (b := 2 * d) (by omega)
  rw [rhu]
  constructor <;> linarith

/-- Rounding moves a rational by at most one half. -/
theorem roundHalfUp_bounds (q : ℚ) : q - 1 / 2 < roundHalfUp q ∧ (roundHalfUp q : ℚ) ≤ q + 1 / 2 := by
  constructor
  · have := Int.lt_floor_add_one (q + 1 / 2)
    rw [roundHalfUp]
    linarith
  · exact Int.floor_le _

/-! ### The altitude code -/

/-- A value that exceeds a threshold exceeds every lower one. -/
theorem exceeds_antitone {a i j : Nat} (hi : 1 ≤ i) (hij : i ≤ j) (h : exceeds a j = true) : exceeds a i = true := by
  induction j, hij using Nat.le_induction with
  | base => exact h
  | succ j hj ih =>
    refine ih ?_
    have hj1 : 1 ≤ j := hi.trans hj
    simp only [exceeds, decide_eq_true_eq, gt_iff_lt] at h ⊢
    have e : 2 * (j + 1) - 1 = (2 * j - 1) + 2 := by omega
    rw [e, pow_add, pow_add] at h
    have hpos : 0 < 501 ^ (2 * j - 1) := by positivity
    nlinarith

/-- Bisection finds the border of a predicate that holds of a prefix of [1, hi]. -/
theorem altSearch_spec (a : Nat) : ∀ fuel lo hi : Nat, hi < lo + 2 ^ fuel → lo ≤ hi →
    (lo = 0 ∨ exceeds a lo = true) →
    lo ≤ altSearch a fuel lo hi ∧ altSearch a fuel lo hi ≤ hi ∧
      (altSearch a fuel lo hi = 0 ∨ exceeds a (altSearch a fuel lo hi) = true) ∧
      ∀ j, altSearch a fuel lo hi < j → j ≤ hi → exceeds a j = false := by
  intro fuel
  induction fuel with
  | zero =>
    intro lo hi h1 h2 h3
    simp only [altSearch]
    exact ⟨le_rfl, h2, h3, fun j hj hj' => by omega⟩
  | succ fuel ih =>
    intro lo hi h1 h2 h3
    rw [altSearch]
    split
    · exact ⟨le_rfl, h2, h3, fun j hj hj' => by omega⟩
    · rename_i hlt
      have hp : 2 ^ (fuel + 1) = 2 * 2 ^ fuel := by ring
      split
      · rename_i he
        obtain ⟨q1, q2, q3, q4⟩ := ih ((lo + hi + 1) / 2) hi (by omega) (by omega) (.inr he)
        exact ⟨by omega, q2, q3, q4⟩
      · rename_i he
        obtain ⟨q1, q2, q3, q4⟩ := ih lo ((lo + hi + 1) / 2 - 1) (by omega) (by omega) h3
        refine ⟨q1, by omega, q3, fun j hj hj' => ?_⟩
        by_cases hm : j ≤ (lo + hi + 1) / 2 - 1
        · exact q4 j hj hm
        · by_contra hne
          exact he (exceeds_antitone (j := j) (by omega) (by omega) (by simpa using hne))

/-- What `altCode` finds: the greatest threshold in [1, 8280] that is exceeded. -/
theorem altCode_spec (a : Nat) :
    altCode a ≤ 8280 ∧ (altCode a = 0 ∨ exceeds a (altCode a) = true) ∧
      ∀ j, altCode a < j → j ≤ 8280 → exceeds a j = false := by
  obtain ⟨-, h2, h3, h4⟩ := altSearch_spec a 14 0 8280 (by norm_num) (by norm_num) (.inl rfl)
  exact ⟨h2, h3, h4⟩

/-- R115: the altitude code is the number of thresholds the altitude exceeds. -/
theorem altCode_eq_count (a : Nat) : altCode a = thresholdCount a := by
  obtain ⟨h1, h2, h3⟩ := altCode_spec a
  have : (Finset.Icc 1 8280).filter
      (fun j => a ^ 2 * 500 ^ (2 * j - 1) > 10 ^ 6 * 501 ^ (2 * j - 1)) = Finset.Icc 1 (altCode a) := by
    ext j
    simp only [Finset.mem_filter, Finset.mem_Icc]
    constructor
    · rintro ⟨⟨hj1, hj2⟩, hj⟩
      refine ⟨hj1, ?_⟩
      by_contra hlt
      have := h3 j (by omega) hj2
      simp only [exceeds, decide_eq_false_iff_not] at this
      exact this hj
    · rintro ⟨hj1, hj2⟩
      refine ⟨⟨hj1, by omega⟩, ?_⟩
      have h2' : exceeds a (altCode a) = true := by
        rcases h2 with h | h
        · omega
        · exact h
      simpa only [exceeds, decide_eq_true_eq] using exceeds_antitone hj1 hj2 h2'
  rw [thresholdCount, this, Nat.card_Icc]
  omega

/-- A code is the altitude code of every value between its two thresholds. -/
theorem altCode_eq_of_bracket {a c : Nat} (hc : c ≤ 8280) (h1 : c = 0 ∨ exceeds a c = true)
    (h2 : c = 8280 ∨ exceeds a (c + 1) = false) : altCode a = c := by
  obtain ⟨g1, g2, g3⟩ := altCode_spec a
  rcases Nat.lt_trichotomy (altCode a) c with h | h | h
  · have := g3 c h hc
    rcases h1 with h1 | h1
    · omega
    · simp [h1] at this
  · exact h
  · have h2' : exceeds a (c + 1) = false := h2.resolve_left (by omega)
    have g2' : exceeds a (altCode a) = true := g2.resolve_left (by omega)
    have := exceeds_antitone (i := c + 1) (by omega) (by omega) g2'
    simp [h2'] at this

/-! ### Texts -/

/-- R101: the Base91 text of the model is the text of the rule. -/
theorem b91Text_eq (v w : Nat) : b91Text v w = codeText v w := rfl

/-- The Base91 text of width `w` has `w` bytes. -/
@[simp] theorem b91Text_length (v w : Nat) : (b91Text v w).length = w := by simp [b91Text]

/-- R130: hundredths of a minute. -/
theorem minuteHundredths_eq (l : Int) : minuteHundredths l.natAbs = hundredthsOf l := by
  rw [minuteHundredths, rhu_eq_floor _ _ (by norm_num), hundredthsOf, Int.cast_mul, Int.cast_natCast]
  norm_num

theorem asc2_eq (n : Nat) : asc2 n = decimalText n 2 := by
  simp [asc2, decimalText, ascDigit, List.range_succ]

theorem asc3_eq (n : Nat) : asc3 n = decimalText n 3 := by
  simp [asc3, decimalText, ascDigit, List.range_succ]

/-- R130: the latitude text. -/
theorem latText_eq (l : Int) : latText l = dmmTextOf l 2 0x4E 0x53 := by
  simp [latText, dmmText, dmmTextOf, minuteHundredths_eq, asc2_eq]

/-- R130: the longitude text. -/
theorem lonText_eq (l : Int) : lonText l = dmmTextOf l 3 0x45 0x57 := by
  simp [lonText, dmmText, dmmTextOf, minuteHundredths_eq, asc2_eq, asc3_eq]

/-- R130: the text is 8 bytes for latitude. -/
@[simp] theorem latText_length (l : Int) : (latText l).length = 8 := by simp [latText, dmmText, asc2]

/-- R130: the text is 9 bytes for longitude. -/
@[simp] theorem lonText_length (l : Int) : (lonText l).length = 9 := by simp [lonText, dmmText, asc2, asc3]

/-- Concatenation (R6): the more significant part first. -/
theorem append_toNat {n m : Nat} (x : BitVec n) (y : BitVec m) : (x ++ y).toNat = x.toNat * 2 ^ m + y.toNat := by
  rw [BitVec.toNat_append, ← Nat.shiftLeft_add_eq_or_of_lt y.isLt, Nat.shiftLeft_eq]

end Sys2Proof.Laws
end

