-- ==== Sys2Proof/Laws/State.lean ====
section
/-! SUPPORT. One lemma per field per named update of State, true by rfl, so that no proof unfolds a record update. -/

namespace Sys2Proof.Machine

variable (s : State)

/-! ### completion (R87) -/

@[simp] theorem State.retire_params : s.retire.params = s.params := rfl
@[simp] theorem State.retire_cmd : s.retire.cmd = s.cmd := rfl
@[simp] theorem State.retire_pend : s.retire.pend = none := rfl
@[simp] theorem State.retire_status : s.retire.status = { s.status with done := true } := rfl
@[simp] theorem State.retire_ioff : s.retire.ioff = s.ioff := rfl
@[simp] theorem State.retire_ilen : s.retire.ilen = s.ilen := rfl
@[simp] theorem State.retire_olen : s.retire.olen = s.olen := rfl
@[simp] theorem State.retire_remOff : s.retire.remOff = s.remOff := rfl
@[simp] theorem State.retire_remLen : s.retire.remLen = s.remLen := rfl
@[simp] theorem State.retire_val : s.retire.val = s.val := rfl
@[simp] theorem State.retire_point : s.retire.point = s.point := rfl
@[simp] theorem State.retire_sym : s.retire.sym = s.sym := rfl
@[simp] theorem State.retire_now : s.retire.now = s.now := rfl
@[simp] theorem State.retire_nowS : s.retire.nowS = s.nowS := rfl
@[simp] theorem State.retire_frameHdr : s.retire.frameHdr = s.frameHdr := rfl
@[simp] theorem State.retire_naddr : s.retire.naddr = s.naddr := rfl
@[simp] theorem State.retire_addrs : s.retire.addrs = s.addrs := rfl
@[simp] theorem State.retire_mem : s.retire.mem = s.mem := rfl
@[simp] theorem State.retire_rst : s.retire.rst = s.rst := rfl
@[simp] theorem State.retire_delay : s.retire.delay = s.delay := rfl
@[simp] theorem State.retire_inputs : s.retire.inputs = s.inputs := rfl
@[simp] theorem State.retire_replies : s.retire.replies = s.replies := rfl
@[simp] theorem State.retire_resets : s.retire.resets = s.resets := rfl
@[simp] theorem State.retire_draws : s.retire.draws = s.draws := rfl

/-! ### the error mechanism (R230) -/

@[simp] theorem State.fail_params (r : Raise) : (s.fail r).params = s.params := rfl
@[simp] theorem State.fail_cmd (r : Raise) : (s.fail r).cmd = s.cmd := rfl
@[simp] theorem State.fail_pend (r : Raise) : (s.fail r).pend = none := rfl
@[simp] theorem State.fail_status (r : Raise) : (s.fail r).status = { s.status.raised r with done := true } := rfl
@[simp] theorem State.fail_ioff (r : Raise) : (s.fail r).ioff = s.ioff := rfl
@[simp] theorem State.fail_ilen (r : Raise) : (s.fail r).ilen = s.ilen := rfl
@[simp] theorem State.fail_olen (r : Raise) : (s.fail r).olen = s.olen := rfl
@[simp] theorem State.fail_remOff (r : Raise) : (s.fail r).remOff = s.remOff := rfl
@[simp] theorem State.fail_remLen (r : Raise) : (s.fail r).remLen = s.remLen := rfl
@[simp] theorem State.fail_val (r : Raise) : (s.fail r).val = s.val := rfl
@[simp] theorem State.fail_point (r : Raise) : (s.fail r).point = s.point := rfl
@[simp] theorem State.fail_sym (r : Raise) : (s.fail r).sym = s.sym := rfl
@[simp] theorem State.fail_now (r : Raise) : (s.fail r).now = s.now := rfl
@[simp] theorem State.fail_nowS (r : Raise) : (s.fail r).nowS = s.nowS := rfl
@[simp] theorem State.fail_frameHdr (r : Raise) : (s.fail r).frameHdr = s.frameHdr := rfl
@[simp] theorem State.fail_naddr (r : Raise) : (s.fail r).naddr = s.naddr := rfl
@[simp] theorem State.fail_addrs (r : Raise) : (s.fail r).addrs = s.addrs := rfl
@[simp] theorem State.fail_mem (r : Raise) : (s.fail r).mem = s.mem := rfl
@[simp] theorem State.fail_rst (r : Raise) : (s.fail r).rst = s.rst := rfl
@[simp] theorem State.fail_delay (r : Raise) : (s.fail r).delay = s.delay := rfl
@[simp] theorem State.fail_inputs (r : Raise) : (s.fail r).inputs = s.inputs := rfl
@[simp] theorem State.fail_replies (r : Raise) : (s.fail r).replies = s.replies := rfl
@[simp] theorem State.fail_resets (r : Raise) : (s.fail r).resets = s.resets := rfl
@[simp] theorem State.fail_draws (r : Raise) : (s.fail r).draws = s.draws := rfl

/-! ### acceptance (R85) -/

@[simp] theorem State.accept_params (c : Word) (d : Nat) : (s.accept c d).params = s.params := rfl
@[simp] theorem State.accept_cmd (c : Word) (d : Nat) : (s.accept c d).cmd = c := rfl
@[simp] theorem State.accept_pend (c : Word) (d : Nat) : (s.accept c d).pend = some c := rfl
@[simp] theorem State.accept_status (c : Word) (d : Nat) : (s.accept c d).status = s.status.accepted := rfl
@[simp] theorem State.accept_ioff (c : Word) (d : Nat) : (s.accept c d).ioff = s.ioff := rfl
@[simp] theorem State.accept_ilen (c : Word) (d : Nat) : (s.accept c d).ilen = s.ilen := rfl
@[simp] theorem State.accept_olen (c : Word) (d : Nat) : (s.accept c d).olen = s.olen := rfl
@[simp] theorem State.accept_remOff (c : Word) (d : Nat) : (s.accept c d).remOff = s.remOff := rfl
@[simp] theorem State.accept_remLen (c : Word) (d : Nat) : (s.accept c d).remLen = s.remLen := rfl
@[simp] theorem State.accept_val (c : Word) (d : Nat) : (s.accept c d).val = s.val := rfl
@[simp] theorem State.accept_point (c : Word) (d : Nat) : (s.accept c d).point = s.point := rfl
@[simp] theorem State.accept_sym (c : Word) (d : Nat) : (s.accept c d).sym = s.sym := rfl
@[simp] theorem State.accept_now (c : Word) (d : Nat) : (s.accept c d).now = s.now := rfl
@[simp] theorem State.accept_nowS (c : Word) (d : Nat) : (s.accept c d).nowS = s.nowS := rfl
@[simp] theorem State.accept_frameHdr (c : Word) (d : Nat) : (s.accept c d).frameHdr = s.frameHdr := rfl
@[simp] theorem State.accept_naddr (c : Word) (d : Nat) : (s.accept c d).naddr = s.naddr := rfl
@[simp] theorem State.accept_addrs (c : Word) (d : Nat) : (s.accept c d).addrs = s.addrs := rfl
@[simp] theorem State.accept_mem (c : Word) (d : Nat) : (s.accept c d).mem = s.mem := rfl
@[simp] theorem State.accept_rst (c : Word) (d : Nat) : (s.accept c d).rst = s.rst := rfl
@[simp] theorem State.accept_delay (c : Word) (d : Nat) : (s.accept c d).delay = d := rfl
@[simp] theorem State.accept_inputs (c : Word) (d : Nat) : (s.accept c d).inputs = s.inputs := rfl
@[simp] theorem State.accept_replies (c : Word) (d : Nat) : (s.accept c d).replies = s.replies := rfl
@[simp] theorem State.accept_resets (c : Word) (d : Nat) : (s.accept c d).resets = s.resets := rfl
@[simp] theorem State.accept_draws (c : Word) (d : Nat) : (s.accept c d).draws = s.draws := rfl

/-! ### the sample of NOW (R87) -/

@[simp] theorem State.sampleNow_params : s.sampleNow.params = s.params := rfl
@[simp] theorem State.sampleNow_cmd : s.sampleNow.cmd = s.cmd := rfl
@[simp] theorem State.sampleNow_pend : s.sampleNow.pend = s.pend := rfl
@[simp] theorem State.sampleNow_status : s.sampleNow.status = s.status := rfl
@[simp] theorem State.sampleNow_ioff : s.sampleNow.ioff = s.ioff := rfl
@[simp] theorem State.sampleNow_ilen : s.sampleNow.ilen = s.ilen := rfl
@[simp] theorem State.sampleNow_olen : s.sampleNow.olen = s.olen := rfl
@[simp] theorem State.sampleNow_remOff : s.sampleNow.remOff = s.remOff := rfl
@[simp] theorem State.sampleNow_remLen : s.sampleNow.remLen = s.remLen := rfl
@[simp] theorem State.sampleNow_val : s.sampleNow.val = s.val := rfl
@[simp] theorem State.sampleNow_point : s.sampleNow.point = s.point := rfl
@[simp] theorem State.sampleNow_sym : s.sampleNow.sym = s.sym := rfl
@[simp] theorem State.sampleNow_now : s.sampleNow.now = s.now := rfl
@[simp] theorem State.sampleNow_nowS : s.sampleNow.nowS = s.now := rfl
@[simp] theorem State.sampleNow_frameHdr : s.sampleNow.frameHdr = s.frameHdr := rfl
@[simp] theorem State.sampleNow_naddr : s.sampleNow.naddr = s.naddr := rfl
@[simp] theorem State.sampleNow_addrs : s.sampleNow.addrs = s.addrs := rfl
@[simp] theorem State.sampleNow_mem : s.sampleNow.mem = s.mem := rfl
@[simp] theorem State.sampleNow_rst : s.sampleNow.rst = s.rst := rfl
@[simp] theorem State.sampleNow_delay : s.sampleNow.delay = s.delay := rfl
@[simp] theorem State.sampleNow_inputs : s.sampleNow.inputs = s.inputs := rfl
@[simp] theorem State.sampleNow_replies : s.sampleNow.replies = s.replies := rfl
@[simp] theorem State.sampleNow_resets : s.sampleNow.resets = s.resets := rfl
@[simp] theorem State.sampleNow_draws : s.sampleNow.draws = s.draws := rfl

/-! ### the remainder (R28) -/

@[simp] theorem State.withRemainder_params (n : Nat) : (s.withRemainder n).params = s.params := rfl
@[simp] theorem State.withRemainder_cmd (n : Nat) : (s.withRemainder n).cmd = s.cmd := rfl
@[simp] theorem State.withRemainder_pend (n : Nat) : (s.withRemainder n).pend = s.pend := rfl
@[simp] theorem State.withRemainder_status (n : Nat) : (s.withRemainder n).status = s.status := rfl
@[simp] theorem State.withRemainder_ioff (n : Nat) : (s.withRemainder n).ioff = s.ioff := rfl
@[simp] theorem State.withRemainder_ilen (n : Nat) : (s.withRemainder n).ilen = s.ilen := rfl
@[simp] theorem State.withRemainder_olen (n : Nat) : (s.withRemainder n).olen = s.olen := rfl
@[simp] theorem State.withRemainder_remOff (n : Nat) : (s.withRemainder n).remOff = BitVec.ofNat 64 (s.ioff.toNat + n) := rfl
@[simp] theorem State.withRemainder_remLen (n : Nat) : (s.withRemainder n).remLen = BitVec.ofNat 64 (s.ilen.toNat - n) := rfl
@[simp] theorem State.withRemainder_val (n : Nat) : (s.withRemainder n).val = s.val := rfl
@[simp] theorem State.withRemainder_point (n : Nat) : (s.withRemainder n).point = s.point := rfl
@[simp] theorem State.withRemainder_sym (n : Nat) : (s.withRemainder n).sym = s.sym := rfl
@[simp] theorem State.withRemainder_now (n : Nat) : (s.withRemainder n).now = s.now := rfl
@[simp] theorem State.withRemainder_nowS (n : Nat) : (s.withRemainder n).nowS = s.nowS := rfl
@[simp] theorem State.withRemainder_frameHdr (n : Nat) : (s.withRemainder n).frameHdr = s.frameHdr := rfl
@[simp] theorem State.withRemainder_naddr (n : Nat) : (s.withRemainder n).naddr = s.naddr := rfl
@[simp] theorem State.withRemainder_addrs (n : Nat) : (s.withRemainder n).addrs = s.addrs := rfl
@[simp] theorem State.withRemainder_mem (n : Nat) : (s.withRemainder n).mem = s.mem := rfl
@[simp] theorem State.withRemainder_rst (n : Nat) : (s.withRemainder n).rst = s.rst := rfl
@[simp] theorem State.withRemainder_delay (n : Nat) : (s.withRemainder n).delay = s.delay := rfl
@[simp] theorem State.withRemainder_inputs (n : Nat) : (s.withRemainder n).inputs = s.inputs := rfl
@[simp] theorem State.withRemainder_replies (n : Nat) : (s.withRemainder n).replies = s.replies := rfl
@[simp] theorem State.withRemainder_resets (n : Nat) : (s.withRemainder n).resets = s.resets := rfl
@[simp] theorem State.withRemainder_draws (n : Nat) : (s.withRemainder n).draws = s.draws := rfl

/-! ### a no-match (R152) -/

@[simp] theorem State.noMatch_params : s.noMatch.params = s.params := rfl
@[simp] theorem State.noMatch_cmd : s.noMatch.cmd = s.cmd := rfl
@[simp] theorem State.noMatch_pend : s.noMatch.pend = s.pend := rfl
@[simp] theorem State.noMatch_status : s.noMatch.status = { s.status with matched := false } := rfl
@[simp] theorem State.noMatch_ioff : s.noMatch.ioff = s.ioff := rfl
@[simp] theorem State.noMatch_ilen : s.noMatch.ilen = s.ilen := rfl
@[simp] theorem State.noMatch_olen : s.noMatch.olen = s.olen := rfl
@[simp] theorem State.noMatch_remOff : s.noMatch.remOff = s.ioff := rfl
@[simp] theorem State.noMatch_remLen : s.noMatch.remLen = s.ilen := rfl
@[simp] theorem State.noMatch_val : s.noMatch.val = s.val := rfl
@[simp] theorem State.noMatch_point : s.noMatch.point = Point.zero := rfl
@[simp] theorem State.noMatch_sym : s.noMatch.sym = { table := space, code := space } := rfl
@[simp] theorem State.noMatch_now : s.noMatch.now = s.now := rfl
@[simp] theorem State.noMatch_nowS : s.noMatch.nowS = s.nowS := rfl
@[simp] theorem State.noMatch_frameHdr : s.noMatch.frameHdr = s.frameHdr := rfl
@[simp] theorem State.noMatch_naddr : s.noMatch.naddr = s.naddr := rfl
@[simp] theorem State.noMatch_addrs : s.noMatch.addrs = s.addrs := rfl
@[simp] theorem State.noMatch_mem : s.noMatch.mem = s.mem := rfl
@[simp] theorem State.noMatch_rst : s.noMatch.rst = s.rst := rfl
@[simp] theorem State.noMatch_delay : s.noMatch.delay = s.delay := rfl
@[simp] theorem State.noMatch_inputs : s.noMatch.inputs = s.inputs := rfl
@[simp] theorem State.noMatch_replies : s.noMatch.replies = s.replies := rfl
@[simp] theorem State.noMatch_resets : s.noMatch.resets = s.resets := rfl
@[simp] theorem State.noMatch_draws : s.noMatch.draws = s.draws := rfl

/-! ### a match (R153) -/

@[simp] theorem State.matchedReport_params (n a b : Nat) : (s.matchedReport n a b).params = s.params := rfl
@[simp] theorem State.matchedReport_cmd (n a b : Nat) : (s.matchedReport n a b).cmd = s.cmd := rfl
@[simp] theorem State.matchedReport_pend (n a b : Nat) : (s.matchedReport n a b).pend = s.pend := rfl
@[simp] theorem State.matchedReport_status (n a b : Nat) : (s.matchedReport n a b).status = { s.status with matched := true } := rfl
@[simp] theorem State.matchedReport_ioff (n a b : Nat) : (s.matchedReport n a b).ioff = s.ioff := rfl
@[simp] theorem State.matchedReport_ilen (n a b : Nat) : (s.matchedReport n a b).ilen = s.ilen := rfl
@[simp] theorem State.matchedReport_olen (n a b : Nat) : (s.matchedReport n a b).olen = s.olen := rfl
@[simp] theorem State.matchedReport_remOff (n a b : Nat) : (s.matchedReport n a b).remOff = BitVec.ofNat 64 (s.ioff.toNat + n) := rfl
@[simp] theorem State.matchedReport_remLen (n a b : Nat) : (s.matchedReport n a b).remLen = BitVec.ofNat 64 (s.ilen.toNat - n) := rfl
@[simp] theorem State.matchedReport_val (n a b : Nat) : (s.matchedReport n a b).val = s.val := rfl
@[simp] theorem State.matchedReport_point (n a b : Nat) : (s.matchedReport n a b).point = Point.zero := rfl
@[simp] theorem State.matchedReport_sym (n a b : Nat) : (s.matchedReport n a b).sym = { table := s.inByte a, code := s.inByte b } := rfl
@[simp] theorem State.matchedReport_now (n a b : Nat) : (s.matchedReport n a b).now = s.now := rfl
@[simp] theorem State.matchedReport_nowS (n a b : Nat) : (s.matchedReport n a b).nowS = s.nowS := rfl
@[simp] theorem State.matchedReport_frameHdr (n a b : Nat) : (s.matchedReport n a b).frameHdr = s.frameHdr := rfl
@[simp] theorem State.matchedReport_naddr (n a b : Nat) : (s.matchedReport n a b).naddr = s.naddr := rfl
@[simp] theorem State.matchedReport_addrs (n a b : Nat) : (s.matchedReport n a b).addrs = s.addrs := rfl
@[simp] theorem State.matchedReport_mem (n a b : Nat) : (s.matchedReport n a b).mem = s.mem := rfl
@[simp] theorem State.matchedReport_rst (n a b : Nat) : (s.matchedReport n a b).rst = s.rst := rfl
@[simp] theorem State.matchedReport_delay (n a b : Nat) : (s.matchedReport n a b).delay = s.delay := rfl
@[simp] theorem State.matchedReport_inputs (n a b : Nat) : (s.matchedReport n a b).inputs = s.inputs := rfl
@[simp] theorem State.matchedReport_replies (n a b : Nat) : (s.matchedReport n a b).replies = s.replies := rfl
@[simp] theorem State.matchedReport_resets (n a b : Nat) : (s.matchedReport n a b).resets = s.resets := rfl
@[simp] theorem State.matchedReport_draws (n a b : Nat) : (s.matchedReport n a b).draws = s.draws := rfl

/-! ### a dropped write (R86) -/

@[simp] theorem State.overrun_params : s.overrun.params = s.params := rfl
@[simp] theorem State.overrun_cmd : s.overrun.cmd = s.cmd := rfl
@[simp] theorem State.overrun_pend : s.overrun.pend = s.pend := rfl
@[simp] theorem State.overrun_status : s.overrun.status = { s.status with ovr := true } := rfl
@[simp] theorem State.overrun_ioff : s.overrun.ioff = s.ioff := rfl
@[simp] theorem State.overrun_ilen : s.overrun.ilen = s.ilen := rfl
@[simp] theorem State.overrun_olen : s.overrun.olen = s.olen := rfl
@[simp] theorem State.overrun_remOff : s.overrun.remOff = s.remOff := rfl
@[simp] theorem State.overrun_remLen : s.overrun.remLen = s.remLen := rfl
@[simp] theorem State.overrun_val : s.overrun.val = s.val := rfl
@[simp] theorem State.overrun_point : s.overrun.point = s.point := rfl
@[simp] theorem State.overrun_sym : s.overrun.sym = s.sym := rfl
@[simp] theorem State.overrun_now : s.overrun.now = s.now := rfl
@[simp] theorem State.overrun_nowS : s.overrun.nowS = s.nowS := rfl
@[simp] theorem State.overrun_frameHdr : s.overrun.frameHdr = s.frameHdr := rfl
@[simp] theorem State.overrun_naddr : s.overrun.naddr = s.naddr := rfl
@[simp] theorem State.overrun_addrs : s.overrun.addrs = s.addrs := rfl
@[simp] theorem State.overrun_mem : s.overrun.mem = s.mem := rfl
@[simp] theorem State.overrun_rst : s.overrun.rst = s.rst := rfl
@[simp] theorem State.overrun_delay : s.overrun.delay = s.delay := rfl
@[simp] theorem State.overrun_inputs : s.overrun.inputs = s.inputs := rfl
@[simp] theorem State.overrun_replies : s.overrun.replies = s.replies := rfl
@[simp] theorem State.overrun_resets : s.overrun.resets = s.resets := rfl
@[simp] theorem State.overrun_draws : s.overrun.draws = s.draws := rfl

/-! ### a step of LATENCY (R267) -/

@[simp] theorem State.tick_params : s.tick.params = s.params := rfl
@[simp] theorem State.tick_cmd : s.tick.cmd = s.cmd := rfl
@[simp] theorem State.tick_pend : s.tick.pend = s.pend := rfl
@[simp] theorem State.tick_status : s.tick.status = s.status := rfl
@[simp] theorem State.tick_ioff : s.tick.ioff = s.ioff := rfl
@[simp] theorem State.tick_ilen : s.tick.ilen = s.ilen := rfl
@[simp] theorem State.tick_olen : s.tick.olen = s.olen := rfl
@[simp] theorem State.tick_remOff : s.tick.remOff = s.remOff := rfl
@[simp] theorem State.tick_remLen : s.tick.remLen = s.remLen := rfl
@[simp] theorem State.tick_val : s.tick.val = s.val := rfl
@[simp] theorem State.tick_point : s.tick.point = s.point := rfl
@[simp] theorem State.tick_sym : s.tick.sym = s.sym := rfl
@[simp] theorem State.tick_now : s.tick.now = s.now := rfl
@[simp] theorem State.tick_nowS : s.tick.nowS = s.nowS := rfl
@[simp] theorem State.tick_frameHdr : s.tick.frameHdr = s.frameHdr := rfl
@[simp] theorem State.tick_naddr : s.tick.naddr = s.naddr := rfl
@[simp] theorem State.tick_addrs : s.tick.addrs = s.addrs := rfl
@[simp] theorem State.tick_mem : s.tick.mem = s.mem := rfl
@[simp] theorem State.tick_rst : s.tick.rst = s.rst := rfl
@[simp] theorem State.tick_delay : s.tick.delay = s.delay - 1 := rfl
@[simp] theorem State.tick_inputs : s.tick.inputs = s.inputs := rfl
@[simp] theorem State.tick_replies : s.tick.replies = s.replies := rfl
@[simp] theorem State.tick_resets : s.tick.resets = s.resets := rfl
@[simp] theorem State.tick_draws : s.tick.draws = s.draws := rfl

/-! ### the release of RST (R261) -/

@[simp] theorem State.releaseReset_params : s.releaseReset.params = s.params := rfl
@[simp] theorem State.releaseReset_cmd : s.releaseReset.cmd = s.cmd := rfl
@[simp] theorem State.releaseReset_pend : s.releaseReset.pend = s.pend := rfl
@[simp] theorem State.releaseReset_status : s.releaseReset.status = s.status := rfl
@[simp] theorem State.releaseReset_ioff : s.releaseReset.ioff = s.ioff := rfl
@[simp] theorem State.releaseReset_ilen : s.releaseReset.ilen = s.ilen := rfl
@[simp] theorem State.releaseReset_olen : s.releaseReset.olen = s.olen := rfl
@[simp] theorem State.releaseReset_remOff : s.releaseReset.remOff = s.remOff := rfl
@[simp] theorem State.releaseReset_remLen : s.releaseReset.remLen = s.remLen := rfl
@[simp] theorem State.releaseReset_val : s.releaseReset.val = s.val := rfl
@[simp] theorem State.releaseReset_point : s.releaseReset.point = s.point := rfl
@[simp] theorem State.releaseReset_sym : s.releaseReset.sym = s.sym := rfl
@[simp] theorem State.releaseReset_now : s.releaseReset.now = s.now := rfl
@[simp] theorem State.releaseReset_nowS : s.releaseReset.nowS = s.nowS := rfl
@[simp] theorem State.releaseReset_frameHdr : s.releaseReset.frameHdr = s.frameHdr := rfl
@[simp] theorem State.releaseReset_naddr : s.releaseReset.naddr = s.naddr := rfl
@[simp] theorem State.releaseReset_addrs : s.releaseReset.addrs = s.addrs := rfl
@[simp] theorem State.releaseReset_mem : s.releaseReset.mem = s.mem := rfl
@[simp] theorem State.releaseReset_rst : s.releaseReset.rst = false := rfl
@[simp] theorem State.releaseReset_delay : s.releaseReset.delay = s.delay := rfl
@[simp] theorem State.releaseReset_inputs : s.releaseReset.inputs = s.inputs := rfl
@[simp] theorem State.releaseReset_replies : s.releaseReset.replies = s.replies := rfl
@[simp] theorem State.releaseReset_resets : s.releaseReset.resets = s.resets := rfl
@[simp] theorem State.releaseReset_draws : s.releaseReset.draws = s.draws := rfl

/-! ### a completed command (R87) -/

@[simp] theorem State.completed_params : s.completed.params = s.params := rfl
@[simp] theorem State.completed_cmd : s.completed.cmd = s.cmd := rfl
@[simp] theorem State.completed_pend : s.completed.pend = none := rfl
@[simp] theorem State.completed_status : s.completed.status = { s.status with done := true } := rfl
@[simp] theorem State.completed_ioff : s.completed.ioff = s.ioff := rfl
@[simp] theorem State.completed_ilen : s.completed.ilen = s.ilen := rfl
@[simp] theorem State.completed_olen : s.completed.olen = s.olen := rfl
@[simp] theorem State.completed_remOff : s.completed.remOff = s.remOff := rfl
@[simp] theorem State.completed_remLen : s.completed.remLen = s.remLen := rfl
@[simp] theorem State.completed_val : s.completed.val = s.val := rfl
@[simp] theorem State.completed_point : s.completed.point = s.point := rfl
@[simp] theorem State.completed_sym : s.completed.sym = s.sym := rfl
@[simp] theorem State.completed_now : s.completed.now = s.now := rfl
@[simp] theorem State.completed_nowS : s.completed.nowS = s.nowS := rfl
@[simp] theorem State.completed_frameHdr : s.completed.frameHdr = s.frameHdr := rfl
@[simp] theorem State.completed_naddr : s.completed.naddr = s.naddr := rfl
@[simp] theorem State.completed_addrs : s.completed.addrs = s.addrs := rfl
@[simp] theorem State.completed_mem : s.completed.mem = s.mem := rfl
@[simp] theorem State.completed_rst : s.completed.rst = s.rst := rfl
@[simp] theorem State.completed_delay : s.completed.delay = s.delay := rfl
@[simp] theorem State.completed_inputs : s.completed.inputs = s.inputs := rfl
@[simp] theorem State.completed_replies : s.completed.replies = s.replies := rfl
@[simp] theorem State.completed_resets : s.completed.resets = s.resets := rfl
@[simp] theorem State.completed_draws : s.completed.draws = s.draws := rfl

/-! ### a failed command (R230) -/

@[simp] theorem State.errored_params (e f b : Byte) (p : BitVec 16) : (s.errored e f b p).params = s.params := rfl
@[simp] theorem State.errored_cmd (e f b : Byte) (p : BitVec 16) : (s.errored e f b p).cmd = s.cmd := rfl
@[simp] theorem State.errored_pend (e f b : Byte) (p : BitVec 16) : (s.errored e f b p).pend = none := rfl
@[simp] theorem State.errored_status (e f b : Byte) (p : BitVec 16) : (s.errored e f b p).status = { s.status with done := true, err := e, efield := f, ebyte := b, epos := p } := rfl
@[simp] theorem State.errored_ioff (e f b : Byte) (p : BitVec 16) : (s.errored e f b p).ioff = s.ioff := rfl
@[simp] theorem State.errored_ilen (e f b : Byte) (p : BitVec 16) : (s.errored e f b p).ilen = s.ilen := rfl
@[simp] theorem State.errored_olen (e f b : Byte) (p : BitVec 16) : (s.errored e f b p).olen = s.olen := rfl
@[simp] theorem State.errored_remOff (e f b : Byte) (p : BitVec 16) : (s.errored e f b p).remOff = s.remOff := rfl
@[simp] theorem State.errored_remLen (e f b : Byte) (p : BitVec 16) : (s.errored e f b p).remLen = s.remLen := rfl
@[simp] theorem State.errored_val (e f b : Byte) (p : BitVec 16) : (s.errored e f b p).val = s.val := rfl
@[simp] theorem State.errored_point (e f b : Byte) (p : BitVec 16) : (s.errored e f b p).point = s.point := rfl
@[simp] theorem State.errored_sym (e f b : Byte) (p : BitVec 16) : (s.errored e f b p).sym = s.sym := rfl
@[simp] theorem State.errored_now (e f b : Byte) (p : BitVec 16) : (s.errored e f b p).now = s.now := rfl
@[simp] theorem State.errored_nowS (e f b : Byte) (p : BitVec 16) : (s.errored e f b p).nowS = s.nowS := rfl
@[simp] theorem State.errored_frameHdr (e f b : Byte) (p : BitVec 16) : (s.errored e f b p).frameHdr = s.frameHdr := rfl
@[simp] theorem State.errored_naddr (e f b : Byte) (p : BitVec 16) : (s.errored e f b p).naddr = s.naddr := rfl
@[simp] theorem State.errored_addrs (e f b : Byte) (p : BitVec 16) : (s.errored e f b p).addrs = s.addrs := rfl
@[simp] theorem State.errored_mem (e f b : Byte) (p : BitVec 16) : (s.errored e f b p).mem = s.mem := rfl
@[simp] theorem State.errored_rst (e f b : Byte) (p : BitVec 16) : (s.errored e f b p).rst = s.rst := rfl
@[simp] theorem State.errored_delay (e f b : Byte) (p : BitVec 16) : (s.errored e f b p).delay = s.delay := rfl
@[simp] theorem State.errored_inputs (e f b : Byte) (p : BitVec 16) : (s.errored e f b p).inputs = s.inputs := rfl
@[simp] theorem State.errored_replies (e f b : Byte) (p : BitVec 16) : (s.errored e f b p).replies = s.replies := rfl
@[simp] theorem State.errored_resets (e f b : Byte) (p : BitVec 16) : (s.errored e f b p).resets = s.resets := rfl
@[simp] theorem State.errored_draws (e f b : Byte) (p : BitVec 16) : (s.errored e f b p).draws = s.draws := rfl

/-! ### RST asserted (R260) -/

@[simp] theorem State.assertReset_params : s.assertReset.params = s.params := rfl
@[simp] theorem State.assertReset_cmd : s.assertReset.cmd = 0 := rfl
@[simp] theorem State.assertReset_pend : s.assertReset.pend = none := rfl
@[simp] theorem State.assertReset_status : s.assertReset.status = Status.zero := rfl
@[simp] theorem State.assertReset_ioff : s.assertReset.ioff = 0 := rfl
@[simp] theorem State.assertReset_ilen : s.assertReset.ilen = 0 := rfl
@[simp] theorem State.assertReset_olen : s.assertReset.olen = 0 := rfl
@[simp] theorem State.assertReset_remOff : s.assertReset.remOff = 0 := rfl
@[simp] theorem State.assertReset_remLen : s.assertReset.remLen = 0 := rfl
@[simp] theorem State.assertReset_val : s.assertReset.val = 0 := rfl
@[simp] theorem State.assertReset_point : s.assertReset.point = Point.zero := rfl
@[simp] theorem State.assertReset_sym : s.assertReset.sym = { table := 0, code := 0 } := rfl
@[simp] theorem State.assertReset_now : s.assertReset.now = 0 := rfl
@[simp] theorem State.assertReset_nowS : s.assertReset.nowS = 0 := rfl
@[simp] theorem State.assertReset_frameHdr : s.assertReset.frameHdr = { ctrl := 0, pid := 0 } := rfl
@[simp] theorem State.assertReset_naddr : s.assertReset.naddr = 0 := rfl
@[simp] theorem State.assertReset_addrs : s.assertReset.addrs = List.replicate s.params.maxAddr AddrEntry.zero := rfl
@[simp] theorem State.assertReset_mem : s.assertReset.mem = [] := rfl
@[simp] theorem State.assertReset_rst : s.assertReset.rst = true := rfl
@[simp] theorem State.assertReset_delay : s.assertReset.delay = 0 := rfl
@[simp] theorem State.assertReset_inputs : s.assertReset.inputs = s.inputs := rfl
@[simp] theorem State.assertReset_replies : s.assertReset.replies = s.replies := rfl
@[simp] theorem State.assertReset_resets : s.assertReset.resets = s.resets + 1 := rfl
@[simp] theorem State.assertReset_draws : s.assertReset.draws = s.draws := rfl

/-! ### BUSY, the window and the buffers read one field each -/

@[simp] theorem State.busy_iff : s.busy = true ↔ ∃ c, s.pend = some c := by
  simp [State.busy, Option.isSome_iff_exists]

@[simp] theorem Status.accepted_ovr (t : Status) : t.accepted.ovr = t.ovr := rfl

@[simp] theorem Status.accepted_accepted (t : Status) : t.accepted.accepted = t.accepted := rfl

/-- The completion of a command that has written nothing is the state the claims name. -/
theorem State.retire_eq_completed : s.retire = s.completed := rfl

/-- The error mechanism writes the four fields the claims name. -/
theorem State.fail_eq_errored (r : Raise) :
    s.fail r = s.errored r.err.code r.field.code (BitVec.ofNat 8 r.byte) (BitVec.ofNat 16 r.pos) := rfl

/-- Bytes depend on the written cells and on the number of resets only. -/
theorem State.readByte_congr {s t : State} (hm : t.mem = s.mem) (hr : t.resets = s.resets) (a : Nat) :
    t.readByte a = s.readByte a := by
  simp [State.readByte, hm, hr]

/-- The window depends on IOFF and the bytes only. -/
theorem State.inByte_congr {s t : State} (hm : t.mem = s.mem) (hr : t.resets = s.resets) (hi : t.ioff = s.ioff)
    (i : Nat) : t.inByte i = s.inByte i := by
  simp [State.inByte, State.readByte, hm, hr, hi]

end Sys2Proof.Machine
end

