-- ==== Sys2Proof/Laws/Memory.lean ====
section
/-! SUPPORT. The laws of memory: a read after a write, every other offset left alone, and the one form kept. -/

namespace Sys2Proof.Laws

open Sys2Proof.Machine

/-! ### One byte -/

@[simp] theorem find_write_same (m : Memory) (a : Nat) (x : Byte) : (m.write a x).find a = some x := by
  induction m with
  | nil => simp [Memory.write, Memory.find]
  | cons c m ih =>
    obtain ⟨b, v⟩ := c
    simp only [Memory.write]
    split
    · simp [Memory.find]
    · split
      · simp [Memory.find]
      · rename_i h
        simp [Memory.find, h, ih]

theorem find_write_ne (m : Memory) {a b : Nat} (x : Byte) (h : b ≠ a) : (m.write a x).find b = m.find b := by
  induction m with
  | nil => simp [Memory.write, Memory.find, h]
  | cons c m ih =>
    obtain ⟨k, v⟩ := c
    simp only [Memory.write]
    split
    · simp [Memory.find, h]
    · split
      · rename_i hk
        subst hk
        simp [Memory.find, h]
      · simp [Memory.find, ih]

/-- The cells of a memory after a write: the written one and some of the old ones. -/
theorem mem_write {m : Memory} {a : Nat} {x : Byte} {c : Host.Cell} (h : c ∈ m.write a x) : c = (a, x) ∨ c ∈ m := by
  induction m with
  | nil => simpa [Memory.write] using h
  | cons d m ih =>
    obtain ⟨k, v⟩ := d
    simp only [Memory.write] at h
    split at h
    · simpa using h
    · split at h
      · rcases List.mem_cons.1 h with h | h
        · exact .inl h
        · exact .inr (List.mem_cons_of_mem _ h)
      · rcases List.mem_cons.1 h with h | h
        · exact .inr (h ▸ List.mem_cons_self)
        · exact (ih h).imp id (List.mem_cons_of_mem _)

/-- A write keeps the one form of memory. -/
theorem wf_write {m : Memory} (h : m.wf) (a : Nat) (x : Byte) : (m.write a x).wf := by
  induction m with
  | nil => simp [Memory.write, Memory.wf]
  | cons d m ih =>
    obtain ⟨k, v⟩ := d
    have hk := List.pairwise_cons.1 h
    simp only [Memory.write]
    split
    · rename_i hlt
      refine List.pairwise_cons.2 ⟨fun c hc => ?_, h⟩
      rcases List.mem_cons.1 hc with hc | hc
      · simpa [hc] using hlt
      · exact hlt.trans (hk.1 c hc)
    · split
      · rename_i heq
        subst heq
        exact List.pairwise_cons.2 ⟨hk.1, hk.2⟩
      · rename_i h1 h2
        refine List.pairwise_cons.2 ⟨fun c hc => ?_, ih hk.2⟩
        rcases mem_write hc with hc | hc
        · simp only [hc]
          omega
        · exact hk.1 c hc

/-! ### Consecutive bytes -/

theorem find_writeBytes_outside (bs : List Byte) (m : Memory) (a b : Nat)
    (h : b < a ∨ a + bs.length ≤ b) : (m.writeBytes a bs).find b = m.find b := by
  induction bs generalizing m a with
  | nil => rfl
  | cons x xs ih =>
    simp only [List.length_cons] at h
    rw [Memory.writeBytes, ih _ _ (by omega), find_write_ne _ _ (by omega)]

theorem find_writeBytes_inside (bs : List Byte) (m : Memory) (a k : Nat) (h : k < bs.length) :
    (m.writeBytes a bs).find (a + k) = some bs[k] := by
  induction bs generalizing m a k with
  | nil => simp at h
  | cons x xs ih =>
    rw [Memory.writeBytes]
    cases k with
    | zero => rw [find_writeBytes_outside _ _ _ _ (by omega)]; simp
    | succ k =>
      have := ih (m.write a x) (a + 1) k (by simpa using h)
      rw [show a + (k + 1) = a + 1 + k by omega, this]
      simp

theorem wf_writeBytes (bs : List Byte) {m : Memory} (h : m.wf) (a : Nat) : (m.writeBytes a bs).wf := by
  induction bs generalizing m a with
  | nil => exact h
  | cons x xs ih => exact ih (wf_write h a x) (a + 1)

theorem mem_writeBytes {bs : List Byte} {m : Memory} {a : Nat} {c : Host.Cell} (h : c ∈ m.writeBytes a bs) :
    (a ≤ c.1 ∧ c.1 < a + bs.length) ∨ c ∈ m := by
  induction bs generalizing m a with
  | nil => exact .inr h
  | cons x xs ih =>
    simp only [List.length_cons]
    rcases ih h with h | h
    · left; omega
    · rcases mem_write h with h | h
      · left; simp [h]
      · exact .inr h

/-! ### Reading bytes of the state -/

theorem readByte_write_same (s : State) (a : Nat) (x : Byte) : { s with mem := s.mem.write a x }.readByte a = x := by
  simp [State.readByte]

theorem readByte_write_ne (s : State) {a b : Nat} (x : Byte) (h : b ≠ a) :
    { s with mem := s.mem.write a x }.readByte b = s.readByte b := by
  simp [State.readByte, find_write_ne _ _ h]

/-- A memory that is in the one form and in which every offset holds the same written byte is the same list: equal
written contents are equal data. -/
theorem eq_of_find_eq {m n : Memory} (hm : m.wf) (hn : n.wf) (h : ∀ a, m.find a = n.find a) : m = n := by
  have absent : ∀ {k : Nat} {l : Memory}, (∀ c ∈ l, k < c.1) → l.find k = none := by
    intro k l
    induction l with
    | nil => intro _; rfl
    | cons c l ih =>
      intro hl
      have := hl c List.mem_cons_self
      rw [Memory.find, if_neg (by omega), ih fun d hd => hl d (List.mem_cons_of_mem _ hd)]
  induction m generalizing n with
  | nil =>
    cases n with
    | nil => rfl
    | cons d n => simpa [Memory.find] using h d.1
  | cons c m ih =>
    cases n with
    | nil => simpa [Memory.find] using h c.1
    | cons d n =>
      have hc := List.pairwise_cons.1 hm
      have hd := List.pairwise_cons.1 hn
      have hcd : c.1 = d.1 := by
        rcases Nat.lt_trichotomy c.1 d.1 with hlt | heq | hlt
        · have e := h c.1
          rw [Memory.find, if_pos rfl, absent (l := d :: n)] at e
          · cases e
          · intro x hx
            rcases List.mem_cons.1 hx with hx | hx
            · exact hx ▸ hlt
            · exact hlt.trans (hd.1 x hx)
        · exact heq
        · have e := (h d.1).symm
          rw [Memory.find, if_pos rfl, absent (l := c :: m)] at e
          · cases e
          · intro x hx
            rcases List.mem_cons.1 hx with hx | hx
            · exact hx ▸ hlt
            · exact hlt.trans (hc.1 x hx)
      have hv : c.2 = d.2 := by
        have e := h c.1
        rw [Memory.find, if_pos rfl, Memory.find, if_pos hcd] at e
        exact Option.some.inj e
      have hmn : m = n := by
        refine ih hc.2 hd.2 fun a => ?_
        by_cases ha : a = c.1
        · rw [ha, absent hc.1, absent (hcd ▸ hd.1)]
        · have e := h a
          rwa [Memory.find, if_neg ha, Memory.find, if_neg (hcd ▸ ha)] at e
      rw [hmn, Prod.ext hcd hv]

end Sys2Proof.Laws
end

