-- ==== Sys2Proof/Laws/Ops.lean ====
section
/-! SUPPORT. What the shared operations of Machine/Ops.lean do: one lemma per outcome of each. -/

namespace Sys2Proof.Laws

open Sys2Proof.Machine

/-! ### Except -/

@[simp] theorem except_ok_bind {α β : Type} (a : α) (f : α → Except Raise β) : (Except.ok a >>= f) = f a := rfl

@[simp] theorem except_error_bind {α β : Type} (r : Raise) (f : α → Except Raise β) :
    ((Except.error r : Except Raise α) >>= f) = .error r := rfl

/-! ### Completion -/

@[simp] theorem complete_ok (k t : State) : complete k (.ok t) = .next t.completed := rfl

@[simp] theorem complete_error (k : State) (r : Raise) : complete k (.error r) =
    .next (k.errored r.err.code r.field.code (BitVec.ofNat 8 r.byte) (BitVec.ofNat 16 r.pos)) := rfl

/-- A command always completes (R88): it answers a next state that is not busy and is done. -/
theorem complete_next (k : State) (r : Except Raise State) :
    ∃ t, complete k r = .next t ∧ t.pend = none ∧ t.status.done = true := by
  cases r with
  | ok t => exact ⟨_, complete_ok k t, rfl, rfl⟩
  | error e => exact ⟨_, complete_error k e, rfl, rfl⟩

/-- What completion answers: the state without an error, or the kept one with the error in STATUS. -/
theorem complete_cases {k t : State} {r : Except Raise State} (h : complete k r = .next t) :
    (∃ u, r = .ok u ∧ t = u.completed) ∨
      ∃ e, r = .error e ∧
        t = k.errored e.err.code e.field.code (BitVec.ofNat 8 e.byte) (BitVec.ofNat 16 e.pos) := by
  cases r with
  | ok u => exact .inl ⟨u, rfl, (Host.Outcome.next.inj (complete_ok k u ▸ h)).symm⟩
  | error e => exact .inr ⟨e, rfl, (Host.Outcome.next.inj (complete_error k e ▸ h)).symm⟩

/-- Every error code is between 1 and 9 (R231). -/
theorem Err.code_range (e : Err) : 1 ≤ e.code.toNat ∧ e.code.toNat ≤ 9 := by
  cases e <;> decide

theorem Err.code_ne_zero (e : Err) : e.code ≠ 0 := by
  cases e <;> decide

/-! ### The window -/

/-- The procedure of R89 on a window in IBUF. -/
theorem checkWindow_ok {s : State} (h : s.windowOk) : checkWindow s = .ok () := by
  rw [checkWindow, if_neg (by simpa [State.windowOk] using h)]

/-- The procedure of R89 on a window that passes the end of IBUF. -/
theorem checkWindow_error {s : State} (h : ¬ s.windowOk) :
    checkWindow s = .error { err := .capacityExceeded, field := .window, byte := 0, pos := 0 } := by
  rw [checkWindow, if_pos (by simpa [State.windowOk] using h)]

theorem checkWindow_eq_ok_iff {s : State} : checkWindow s = .ok () ↔ s.windowOk := by
  by_cases h : s.windowOk
  · simp [checkWindow_ok h, h]
  · simp [checkWindow_error h, h]

theorem needLen_ok {s : State} {n : Nat} (h : s.windowOk) (hn : s.ilen.toNat = n) : needLen s n = .ok () := by
  simp [needLen, checkWindow_ok h, hn]

theorem needLen_window {s : State} {n : Nat} (h : ¬ s.windowOk) :
    needLen s n = .error { err := .capacityExceeded, field := .window, byte := 0, pos := 0 } := by
  simp [needLen, checkWindow_error h]

theorem needLen_length {s : State} {n : Nat} (h : s.windowOk) (hn : s.ilen.toNat ≠ n) :
    needLen s n = .error { err := .inputLength, field := .window, byte := 0, pos := s.ilen.toNat } := by
  simp [needLen, checkWindow_ok h, hn]

/-! ### Output -/

/-- The procedure of R92 where the bytes fit. -/
theorem emit_ok {s : State} {bs : List Byte} (h : bs.length ≤ s.params.obufSize) :
    emit s bs = .ok { s with mem := s.mem.writeBytes obufBase bs, olen := BitVec.ofNat 64 bs.length } := by
  rw [emit, if_neg (by omega)]

/-- The procedure of R92 where they do not. -/
theorem emit_error {s : State} {bs : List Byte} (h : s.params.obufSize < bs.length) :
    emit s bs = .error { err := .capacityExceeded, field := .obuf, byte := 0, pos := 0 } := by
  rw [emit, if_pos h]

/-- Everything `emit` can do. -/
theorem emit_cases (s : State) (bs : List Byte) :
    (bs.length ≤ s.params.obufSize ∧
        emit s bs = .ok { s with mem := s.mem.writeBytes obufBase bs, olen := BitVec.ofNat 64 bs.length }) ∨
      (s.params.obufSize < bs.length ∧
        emit s bs = .error { err := .capacityExceeded, field := .obuf, byte := 0, pos := 0 }) := by
  rcases Nat.lt_or_ge s.params.obufSize bs.length with h | h
  · exact .inr ⟨h, emit_error h⟩
  · exact .inl ⟨h, emit_ok h⟩

/-- What the bytes of a memory with the output written read as. -/
theorem wrote_writeBytes {s t : State} (bs : List Byte) (hm : t.mem = s.mem.writeBytes obufBase bs)
    (hr : t.resets = s.resets) (ho : t.olen = BitVec.ofNat 64 bs.length) : Wrote s t bs := by
  refine ⟨ho, fun k h => ?_, fun a ha => ?_⟩
  · simp [State.readByte, hm, find_writeBytes_inside bs s.mem obufBase k h]
  · have : a < obufBase ∨ obufBase + bs.length ≤ a := by
      by_contra hc
      have := ha (a - obufBase)
      omega
    simp [State.readByte, hm, hr, find_writeBytes_outside bs s.mem obufBase a this]

/-! ### Validation -/

theorem checkLat_ok {s : State} (h : s.point.lat.toInt.natAbs ≤ 900000000) : checkLat s = .ok () := by
  rw [checkLat, if_neg (by omega)]

theorem checkLat_error {s : State} (h : 900000000 < s.point.lat.toInt.natAbs) :
    checkLat s = .error { err := .validation, field := .lat, byte := 0, pos := 0 } := by
  rw [checkLat, if_pos (by omega)]

theorem checkLon_ok {s : State} (h : s.point.lon.toInt.natAbs ≤ 1800000000) : checkLon s = .ok () := by
  rw [checkLon, if_neg (by omega)]

theorem checkLon_error {s : State} (h : 1800000000 < s.point.lon.toInt.natAbs) :
    checkLon s = .error { err := .validation, field := .lon, byte := 0, pos := 0 } := by
  rw [checkLon, if_pos (by omega)]

end Sys2Proof.Laws
end

