-- ==== Sys2Proof/Laws/Operands.lean ====
section
/-! SUPPORT. What the operand forms of Machine/Operands.lean read: Base91 digits, decimal fields, addresses. -/

namespace Sys2Proof.Laws

open Sys2Proof.Machine

/-! ### Base91 digits -/

theorem digit_ok {b : Byte} (f : Field) (p : Nat) (h : 33 ≤ b.toNat ∧ b.toNat ≤ 123) :
    digit b f p = .ok (b.toNat - 33) := by
  rw [digit, if_pos h]

theorem digit_error {b : Byte} (f : Field) (p : Nat) (h : ¬ (33 ≤ b.toNat ∧ b.toNat ≤ 123)) :
    digit b f p = .error { err := .invalidDigit, field := f, byte := b.toNat, pos := p } := by
  rw [digit, if_neg h]

/-- R101: the code point of one digit more. -/
theorem codePoint_succ (s : State) (i n : Nat) :
    s.codePoint i (n + 1) = s.b91Value i * 91 ^ n + s.codePoint (i + 1) n := by
  rw [State.codePoint, Finset.sum_range_succ', State.codePoint, Nat.add_comm]
  congr 1
  refine Finset.sum_congr rfl fun k _ => ?_
  rw [show i + (k + 1) = i + 1 + k by omega, show n + 1 - 1 - (k + 1) = n - 1 - k by omega]

@[simp] theorem codePoint_zero (s : State) (i : Nat) : s.codePoint i 0 = 0 := by simp [State.codePoint]

/-- R101, R102: valid digits are read as their code point. -/
theorem digitsFrom_ok (s : State) (f : Field) (n i acc : Nat) (h : ∀ k < n, s.b91At (i + k)) :
    digitsFrom s f n i acc = .ok (acc * 91 ^ n + s.codePoint i n) := by
  induction n generalizing i acc with
  | zero => simp [digitsFrom]
  | succ n ih =>
    rw [digitsFrom, digit_ok (b := s.inByte i) f i (h 0 (by omega)), except_ok_bind,
      ih _ _ fun k hk => by rw [show i + 1 + k = i + (k + 1) by omega]; exact h (k + 1) (by omega),
      codePoint_succ, State.b91Value]
    congr 1
    ring

/-- R102: the first invalid digit is the one reported. -/
theorem digitsFrom_error (s : State) (f : Field) (n i acc k : Nat) (hk : k < n) (h : ∀ j < k, s.b91At (i + j))
    (hbad : ¬ s.b91At (i + k)) : digitsFrom s f n i acc =
      .error { err := .invalidDigit, field := f, byte := (s.inByte (i + k)).toNat, pos := i + k } := by
  induction n generalizing i acc k with
  | zero => omega
  | succ n ih =>
    rw [digitsFrom]
    cases k with
    | zero => rw [digit_error f i (by simpa [State.b91At] using hbad), except_error_bind]; rfl
    | succ k =>
      rw [digit_ok (b := s.inByte i) f i (h 0 (by omega)), except_ok_bind,
        ih (i + 1) _ k (by omega) (fun j hj => by rw [show i + 1 + j = i + (j + 1) by omega]; exact h (j + 1) (by omega))
          (by rwa [show i + 1 + k = i + (k + 1) by omega]),
        show i + 1 + k = i + (k + 1) by omega]

/-- A code point of `n` digits is below 91^n. -/
theorem codePoint_lt (s : State) (i n : Nat) (h : ∀ k < n, s.b91At (i + k)) : s.codePoint i n < 91 ^ n := by
  induction n generalizing i with
  | zero => simp
  | succ n ih =>
    have h1 := ih (i + 1) fun k hk => by rw [show i + 1 + k = i + (k + 1) by omega]; exact h (k + 1) (by omega)
    have h0 := (h 0 (by omega)).2
    have hv : s.b91Value i ≤ 90 := by simp only [State.b91Value, Nat.add_zero] at *; omega
    rw [codePoint_succ]
    calc s.b91Value i * 91 ^ n + s.codePoint (i + 1) n
        < 90 * 91 ^ n + 91 ^ n := by have := Nat.mul_le_mul_right (91 ^ n) hv; omega
      _ = 91 ^ (n + 1) := by ring

/-! ### Decimal fields -/

theorem isDigit_iff {s : State} {i : Nat} : isDigit (s.inByte i) = true ↔ s.digitAt i := by
  simp [isDigit, State.digitAt]

theorem decimalAt_ok {s : State} {f : Field} {i : Nat} (h : s.digitAt i) : decimalAt s f i = .ok (s.decimal i) := by
  rw [decimalAt, if_pos (isDigit_iff.2 h), State.decimal]

theorem decimalAt_error {s : State} {f : Field} {i : Nat} (h : ¬ s.digitAt i) :
    decimalAt s f i = .error (fieldError s f i) := by
  rw [decimalAt, if_neg (fun hd => h (isDigit_iff.1 hd))]

theorem decimals2_ok {s : State} {f : Field} {i : Nat} (h0 : s.digitAt i) (h1 : s.digitAt (i + 1)) :
    decimalsFrom s f 2 i 0 = .ok (s.dec2 i) := by
  simp [decimalsFrom, decimalAt_ok h0, decimalAt_ok h1, State.dec2]

theorem decimals3_ok {s : State} {f : Field} {i : Nat} (h0 : s.digitAt i) (h1 : s.digitAt (i + 1))
    (h2 : s.digitAt (i + 2)) : decimalsFrom s f 3 i 0 = .ok (s.dec3 i) := by
  simp only [decimalsFrom, decimalAt_ok h0, decimalAt_ok h1, except_ok_bind, State.dec3, show i + 1 + 1 = i + 2 from rfl,
    decimalAt_ok h2]
  congr 1
  omega

/-- R130, R131: the value of a field in the claims' form. -/
theorem dmmValue_eq (d h : Nat) (neg : Bool) : dmmValue d h neg =
    (if neg then -1 else 1) * ((d : ℤ) * 10 ^ 7 + roundHalfUp ((h : ℚ) * 10 ^ 7 / 6000)) := by
  have : rhu (h * 10 ^ 7) 6000 = roundHalfUp ((h : ℚ) * 10 ^ 7 / 6000) := by
    rw [rhu_eq_floor _ _ (by norm_num)]
    push_cast
    rfl
  rw [dmmValue, this]
  cases neg <;> simp

/-! ### Grammar checks -/

@[simp] theorem firstBroken_nil (s : State) (g : GrammarByte) : ¬ s.firstBroken [] g := by
  rintro ⟨before, after, h, -⟩
  simp at h

/-- R132: the first broken check is the first one, or the first broken one of the rest. -/
theorem firstBroken_cons (s : State) (c : GrammarByte) (cs : List GrammarByte) (g : GrammarByte) :
    s.firstBroken (c :: cs) g ↔ (g = c ∧ ¬ s.meets c) ∨ (s.meets c ∧ s.firstBroken cs g) := by
  constructor
  · rintro ⟨before, after, h, hb, hg⟩
    cases before with
    | nil =>
      obtain ⟨rfl, rfl⟩ := List.cons.inj h
      exact .inl ⟨rfl, hg⟩
    | cons b bs =>
      obtain ⟨rfl, rfl⟩ := List.cons.inj h
      exact .inr ⟨hb c List.mem_cons_self, bs, after, rfl, fun x hx => hb x (List.mem_cons_of_mem _ hx), hg⟩
  · rintro (⟨rfl, hg⟩ | ⟨hc, before, after, rfl, hb, hg⟩)
    · exact ⟨[], cs, rfl, by simp, hg⟩
    · refine ⟨c :: before, after, rfl, fun x hx => ?_, hg⟩
      rcases List.mem_cons.1 hx with rfl | hx
      · exact hc
      · exact hb x hx

/-- R132: the first broken check of two lists is that of the first, or that of the second where the first is met. -/
theorem firstBroken_append (s : State) (as bs : List GrammarByte) (g : GrammarByte) :
    s.firstBroken (as ++ bs) g ↔ s.firstBroken as g ∨ ((∀ a ∈ as, s.meets a) ∧ s.firstBroken bs g) := by
  induction as with
  | nil => simp
  | cons a as ih =>
    rw [List.cons_append, firstBroken_cons, firstBroken_cons, ih]
    simp only [List.mem_cons, forall_eq_or_imp]
    tauto

@[simp] theorem meets_digit (s : State) (p : Nat) (f : Byte) :
    s.meets { pos := p, field := f, isPoint := false } ↔ s.digitAt p := by simp [State.meets]

@[simp] theorem meets_point (s : State) (p : Nat) (f : Byte) :
    s.meets { pos := p, field := f, isPoint := true } ↔ s.inByte p = 0x2E := by simp [State.meets]

theorem pointAt_ok {s : State} {f : Field} {i : Nat} (h : s.inByte i = 0x2E) : pointAt s f i = .ok () := by
  rw [pointAt, if_pos h]

theorem pointAt_error {s : State} {f : Field} {i : Nat} (h : s.inByte i ≠ 0x2E) :
    pointAt s f i = .error (fieldError s f i) := by
  rw [pointAt, if_neg h]

theorem decimals2_error {s : State} {f : Field} {i : Nat} :
    (¬ s.digitAt i → decimalsFrom s f 2 i 0 = .error (fieldError s f i)) ∧
      (s.digitAt i → ¬ s.digitAt (i + 1) → decimalsFrom s f 2 i 0 = .error (fieldError s f (i + 1))) := by
  constructor
  · intro h; simp [decimalsFrom, decimalAt_error h]
  · intro h h1; simp [decimalsFrom, decimalAt_ok h, decimalAt_error h1]

theorem decimals3_error {s : State} {f : Field} {i : Nat} :
    (¬ s.digitAt i → decimalsFrom s f 3 i 0 = .error (fieldError s f i)) ∧
      (s.digitAt i → ¬ s.digitAt (i + 1) → decimalsFrom s f 3 i 0 = .error (fieldError s f (i + 1))) ∧
      (s.digitAt i → s.digitAt (i + 1) → ¬ s.digitAt (i + 2) →
        decimalsFrom s f 3 i 0 = .error (fieldError s f (i + 2))) := by
  refine ⟨?_, ?_, ?_⟩
  · intro h; simp [decimalsFrom, decimalAt_error h]
  · intro h h1; simp [decimalsFrom, decimalAt_ok h, decimalAt_error h1]
  · intro h h1 h2; simp [decimalsFrom, decimalAt_ok h, decimalAt_ok h1, decimalAt_error h2]

/-- R132: a minutes field that keeps the grammar. -/
theorem minutesField_ok {s : State} {f : Field} {i : Nat} (h0 : s.digitAt i) (h1 : s.digitAt (i + 1))
    (h2 : s.inByte (i + 2) = 0x2E) (h3 : s.digitAt (i + 3)) (h4 : s.digitAt (i + 4)) :
    minutesField s f i = .ok (100 * s.dec2 i + s.dec2 (i + 3)) := by
  simp [minutesField, decimals2_ok h0 h1, pointAt_ok h2, decimals2_ok (f := f) h3 h4]

/-- The grammar of a latitude field, check by check (R132). -/
theorem latGrammar_eq (i : Nat) : latGrammar i =
    [⟨i, 0x10, false⟩, ⟨i + 1, 0x10, false⟩, ⟨i + 2, 0x11, false⟩, ⟨i + 3, 0x11, false⟩, ⟨i + 4, 0x11, true⟩,
      ⟨i + 5, 0x11, false⟩, ⟨i + 6, 0x11, false⟩] := rfl

/-- The grammar of a longitude field, check by check (R132). -/
theorem lonGrammar_eq (i : Nat) : lonGrammar i =
    [⟨i, 0x12, false⟩, ⟨i + 1, 0x12, false⟩, ⟨i + 2, 0x12, false⟩, ⟨i + 3, 0x13, false⟩, ⟨i + 4, 0x13, false⟩,
      ⟨i + 5, 0x13, true⟩, ⟨i + 6, 0x13, false⟩, ⟨i + 7, 0x13, false⟩] := rfl

/-- A latitude field that keeps the grammar (R132). -/
theorem latField_ok {s : State} {i : Nat} (h : ∀ g ∈ latGrammar i, s.meets g) :
    degreeField s .latDeg i 2 = .ok (s.dec2 i) ∧
      minutesField s .latMin (i + 2) = .ok (100 * s.dec2 (i + 2) + s.dec2 (i + 5)) := by
  simp only [latGrammar_eq, List.mem_cons, List.not_mem_nil, or_false, forall_eq_or_imp, forall_eq, meets_digit,
    meets_point] at h
  obtain ⟨h0, h1, h2, h3, h4, h5, h6⟩ := h
  exact ⟨decimals2_ok h0 h1, minutesField_ok h2 h3 h4 h5 h6⟩

/-- A longitude field that keeps the grammar (R132). -/
theorem lonField_ok {s : State} {i : Nat} (h : ∀ g ∈ lonGrammar i, s.meets g) :
    degreeField s .lonDeg i 3 = .ok (s.dec3 i) ∧
      minutesField s .lonMin (i + 3) = .ok (100 * s.dec2 (i + 3) + s.dec2 (i + 6)) := by
  simp only [lonGrammar_eq, List.mem_cons, List.not_mem_nil, or_false, forall_eq_or_imp, forall_eq, meets_digit,
    meets_point] at h
  obtain ⟨h0, h1, h2, h3, h4, h5, h6, h7⟩ := h
  exact ⟨decimals3_ok h0 h1 h2, minutesField_ok h3 h4 h5 h6 h7⟩

/-- What a field error writes to STATUS is what the broken check says (R132). -/
def Reports (s : State) (g : GrammarByte) (r : Raise) : Prop :=
  r.err = .decodeField ∧ r.field.code = g.field ∧ r.byte = (s.inByte g.pos).toNat ∧ r.pos = g.pos

/-- A minutes field that breaks the grammar (R132). -/
theorem minutesField_error {s : State} {f : Field} {i : Nat} {g : GrammarByte}
    (h : s.firstBroken
      [⟨i, f.code, false⟩, ⟨i + 1, f.code, false⟩, ⟨i + 2, f.code, true⟩, ⟨i + 3, f.code, false⟩,
        ⟨i + 4, f.code, false⟩] g) :
    ∃ r, minutesField s f i = .error r ∧ Reports s g r := by
  simp only [firstBroken_cons, firstBroken_nil, meets_digit, meets_point, and_false, or_false] at h
  rcases h with ⟨rfl, h0⟩ | ⟨h0, ⟨rfl, h1⟩ | ⟨h1, ⟨rfl, h2⟩ | ⟨h2, ⟨rfl, h3⟩ | ⟨h3, rfl, h4⟩⟩⟩⟩
  · exact ⟨fieldError s f i, by simp [minutesField, decimals2_error.1 h0],
      rfl, rfl, rfl, rfl⟩
  · exact ⟨fieldError s f (i + 1), by simp [minutesField, decimals2_error.2 h0 h1],
      rfl, rfl, rfl, rfl⟩
  · exact ⟨fieldError s f (i + 2), by simp [minutesField, decimals2_ok h0 h1, pointAt_error h2],
      rfl, rfl, rfl, rfl⟩
  · exact ⟨fieldError s f (i + 3), by simp [minutesField, decimals2_ok h0 h1, pointAt_ok h2, decimals2_error.1 h3],
      rfl, rfl, rfl, rfl⟩
  · exact ⟨fieldError s f (i + 3 + 1), by simp [minutesField, decimals2_ok h0 h1, pointAt_ok h2, decimals2_error.2 h3 h4],
      rfl, rfl, rfl, rfl⟩

/-- A latitude field that breaks the grammar: the first broken check is reported, degrees before minutes (R132). -/
theorem latField_error {s : State} {i : Nat} {g : GrammarByte} (h : s.firstBroken (latGrammar i) g) {α : Type}
    (k : Nat → Nat → Except Raise α) :
    ∃ r, (do let d ← degreeField s .latDeg i 2; let m ← minutesField s .latMin (i + 2); k d m) = .error r ∧
      Reports s g r := by
  rw [latGrammar_eq, firstBroken_cons, firstBroken_cons] at h
  simp only [meets_digit] at h
  rcases h with ⟨rfl, h0⟩ | ⟨h0, ⟨rfl, h1⟩ | ⟨h1, h⟩⟩
  · exact ⟨_, by rw [degreeField, decimals2_error.1 h0, except_error_bind], rfl, rfl, rfl, rfl⟩
  · exact ⟨_, by rw [degreeField, decimals2_error.2 h0 h1, except_error_bind], rfl, rfl, rfl, rfl⟩
  · obtain ⟨r, hr, hg⟩ := minutesField_error (f := .latMin) h
    exact ⟨r, by rw [degreeField, decimals2_ok h0 h1, except_ok_bind, hr, except_error_bind], hg⟩

/-- A longitude field that breaks the grammar (R132). -/
theorem lonField_error {s : State} {i : Nat} {g : GrammarByte} (h : s.firstBroken (lonGrammar i) g) {α : Type}
    (k : Nat → Nat → Except Raise α) :
    ∃ r, (do let d ← degreeField s .lonDeg i 3; let m ← minutesField s .lonMin (i + 3); k d m) = .error r ∧
      Reports s g r := by
  rw [lonGrammar_eq, firstBroken_cons, firstBroken_cons, firstBroken_cons] at h
  simp only [meets_digit] at h
  rcases h with ⟨rfl, h0⟩ | ⟨h0, ⟨rfl, h1⟩ | ⟨h1, ⟨rfl, h2⟩ | ⟨h2, h⟩⟩⟩
  · exact ⟨_, by rw [degreeField, decimals3_error.1 h0, except_error_bind], rfl, rfl, rfl, rfl⟩
  · exact ⟨_, by rw [degreeField, decimals3_error.2.1 h0 h1, except_error_bind], rfl, rfl, rfl, rfl⟩
  · exact ⟨_, by rw [degreeField, decimals3_error.2.2 h0 h1 h2, except_error_bind], rfl, rfl, rfl, rfl⟩
  · obtain ⟨r, hr, hg⟩ := minutesField_error (f := .lonMin) h
    exact ⟨r, by rw [degreeField, decimals3_ok h0 h1 h2, except_ok_bind, hr, except_error_bind], hg⟩

/-- The position of an uncompressed report whose fields keep the grammar (R132, R158). -/
theorem dmmPosition_ok {s : State} {i : Nat} (h : ∀ g ∈ latGrammar i ++ lonGrammar (i + 9), s.meets g) :
    dmmPosition s i =
      .ok (s.latField i (isSouth (s.inByte (i + 7))), s.lonField (i + 9) (isWest (s.inByte (i + 17)))) := by
  obtain ⟨h1, h2⟩ := latField_ok fun g hg => h g (List.mem_append_left _ hg)
  obtain ⟨h3, h4⟩ := lonField_ok fun g hg => h g (List.mem_append_right _ hg)
  rw [dmmPosition, h1, except_ok_bind, h2, except_ok_bind, h3, except_ok_bind, h4, except_ok_bind, dmmValue_eq,
    dmmValue_eq]
  rfl

/-- The position of a report that breaks the grammar: latitude before longitude (R158, R159). -/
theorem dmmPosition_error {s : State} {i : Nat} {g : GrammarByte}
    (h : s.firstBroken (latGrammar i ++ lonGrammar (i + 9)) g) :
    ∃ r, dmmPosition s i = .error r ∧ Reports s g r := by
  rcases (firstBroken_append _ _ _ _).1 h with h | ⟨ha, h⟩
  · exact latField_error h _
  · obtain ⟨h1, h2⟩ := latField_ok ha
    rw [dmmPosition, h1, except_ok_bind, h2, except_ok_bind]
    exact lonField_error h _

/-! ### Hemispheres, patterns -/

/-- R133: the letters S and s. -/
theorem isSouth_eq (b : Byte) : isSouth b = decide (b ∈ [0x53#8, 0x73#8]) := by revert b; decide

/-- R133: the letters W and w. -/
theorem isWest_eq (b : Byte) : isWest b = decide (b ∈ [0x57#8, 0x77#8]) := by revert b; decide

/-- R133: the latitude hemisphere letters. -/
theorem isLatHemi_iff (b : Byte) : isLatHemi b = true ↔ b ∈ [0x4E#8, 0x53#8, 0x6E#8, 0x73#8] := by
  simp [isLatHemi, or_assoc]

/-- R133: the longitude hemisphere letters. -/
theorem isLonHemi_iff (b : Byte) : isLonHemi b = true ↔ b ∈ [0x45#8, 0x57#8, 0x65#8, 0x77#8] := by
  simp [isLonHemi, or_assoc]

/-- R158: the pattern of APRS.DECU. -/
theorem matchesU_iff (s : State) : matchesU s = true ↔ s.patternU := by
  simp only [matchesU, isRealtimeMarker, Bool.and_eq_true, Bool.or_eq_true, beq_iff_eq, decide_eq_true_eq,
    isLonHemi_iff, isLatHemi_iff, and_assoc]
  simp only [State.patternU, List.mem_cons, List.not_mem_nil, or_false]
  exact Iff.rfl

/-- R160: the pattern of APRS.DECC. -/
theorem matchesC_iff (s : State) : matchesC s = true ↔ s.patternC := by
  simp only [matchesC, isRealtimeMarker, Bool.and_eq_true, Bool.or_eq_true, beq_iff_eq, decide_eq_true_eq]
  simp only [State.patternC, List.mem_cons, List.not_mem_nil, or_false]
  exact Iff.rfl

/-- R159: the pattern of APRS.DECT. -/
theorem matchesT_iff (s : State) : matchesT s = true ↔ s.patternT := by
  simp only [matchesT, isTimestampMarker, Bool.and_eq_true, Bool.or_eq_true, beq_iff_eq, decide_eq_true_eq,
    isLonHemi_iff, isLatHemi_iff, and_assoc, State.inBytes, List.all_map, List.all_eq_true, List.mem_range,
    Function.comp, isDigit_iff]
  simp only [State.patternT, List.mem_cons, List.not_mem_nil, or_false]
  exact Iff.rfl

/-! ### The conversions -/

theorem latCode_eq (l : Int) : latCode l = roundHalfUp (380926 * (900000000 - (l : ℚ)) / 10 ^ 7) := by
  rw [latCode, rhu_eq_floor _ _ (by norm_num)]
  push_cast
  rfl

theorem lonCode_eq (l : Int) : lonCode l = roundHalfUp (190463 * (1800000000 + (l : ℚ)) / 10 ^ 7) := by
  rw [lonCode, rhu_eq_floor _ _ (by norm_num)]
  push_cast
  rfl

theorem latValue_eq (y : Nat) : latValue y = 900000000 - roundHalfUp ((y : ℚ) * 10 ^ 7 / 380926) := by
  rw [latValue, rhu_eq_floor _ _ (by norm_num)]
  push_cast
  rfl

theorem lonValue_eq (x : Nat) : lonValue x = roundHalfUp ((x : ℚ) * 10 ^ 7 / 190463) - 1800000000 := by
  rw [lonValue, rhu_eq_floor _ _ (by norm_num)]
  push_cast
  rfl

theorem altValue_eq (c : Nat) : altValue c = roundHalfUp (1000 * (501 / 500 : ℚ) ^ c) := by
  rw [altValue, rhu_eq_floor _ _ (by positivity)]
  congr 1
  push_cast
  rw [div_pow]
  ring

theorem speedValue_eq (d : Nat) : speedValue d = roundHalfUp (1000 * ((27 / 25 : ℚ) ^ d - 1)) := by
  rw [speedValue, rhu_eq_floor _ _ (by positivity)]
  congr 1
  push_cast
  rw [div_pow]
  field_simp

theorem rangeValue_eq (v : Nat) : rangeValue v = roundHalfUp (2000 * (27 / 25 : ℚ) ^ v) := by
  rw [rangeValue, rhu_eq_floor _ _ (by positivity)]
  congr 1
  push_cast
  rw [div_pow]
  ring

/-- R111, R115: the altitude code in the claims' form. -/
theorem altCodeOf_eq (v : Word) : altCodeOf v = if v.toInt ≤ 0 then 0 else thresholdCount v.toInt.toNat := by
  rw [altCodeOf]
  split <;> simp [altCode_eq_count]

/-- An altitude code has two digits (R111). -/
theorem altCodeOf_le (v : Word) : altCodeOf v ≤ 8280 := by
  rw [altCodeOf]
  split
  · omega
  · exact (altCode_spec _).1

end Sys2Proof.Laws
end

