-- ==== Sys2Proof/Laws/Address.lean ====
section
/-! SUPPORT. What the address operations of Machine/Operands.lean do: the 7 bytes of an entry, the entry 7 bytes stand
for, and the two loops over a frame's addresses (44_ax25.md). -/

namespace Sys2Proof.Laws

open Sys2Proof.Machine

theorem checkAddr_ok {s : State} {i : Nat} (h : s.entryValid i) : checkAddr s i = .ok () := by
  rw [checkAddr, if_neg (by have := h.1; omega), if_neg (by have := h.2; omega)]

theorem checkAddr_length {s : State} {i : Nat} (h : 6 < (s.entry i).info.clen.toNat) : checkAddr s i =
    .error { err := .addressTooLong, field := .address, byte := (s.entry i).info.clen.toNat, pos := i } := by
  rw [checkAddr, if_pos (by omega)]

theorem checkAddr_ssid {s : State} {i : Nat} (h : (s.entry i).info.clen.toNat ≤ 6)
    (h' : 15 < (s.entry i).info.ssid.toNat) : checkAddr s i =
    .error { err := .ssidOutOfRange, field := .address, byte := (s.entry i).info.ssid.toNat, pos := i } := by
  rw [checkAddr, if_neg (by omega), if_pos (by omega)]

theorem callByte_toNat (e : AddrEntry) (k : Nat) : (e.callByte k).toNat = e.call.toNat / 2 ^ (8 * k) % 2 ^ 8 := by
  simp [AddrEntry.callByte, Nat.shiftRight_eq_div_pow]

/-- R191, R192: the bytes of the model are the bytes of the rules. -/
theorem addressBytes_eq (e : AddrEntry) (last : Bool) :
    (List.range 6).map e.shiftedByte ++ [ssidByte e.info.ch e.info.ssid.toNat last] = addressBytes e last := by
  rw [addressBytes]
  congr 1
  · refine List.map_congr_left fun k _ => ?_
    rw [AddrEntry.shiftedByte]
    split
    · apply BitVec.eq_of_toNat_eq
      rw [BitVec.toNat_shiftLeft, callByte_toNat, BitVec.toNat_ofNat, Nat.shiftLeft_eq]
      congr 1
      ring
    · rfl
  · rw [ssidByte]
    congr 2
    cases e.info.ch <;> cases last <;> simp <;> omega

@[simp] theorem addressBytes_length (e : AddrEntry) (last : Bool) : (addressBytes e last).length = 7 := by
  simp [addressBytes]

theorem encAddr_ok {s : State} {i : Nat} (last : Bool) (h : s.entryValid i) :
    encAddr s i last = .ok (addressBytes (s.entry i) last) := by
  rw [encAddr, checkAddr_ok h, except_ok_bind, addressBytes_eq]

theorem encAddr_error {s : State} {i : Nat} {r : Raise} (last : Bool) (h : checkAddr s i = .error r) :
    encAddr s i last = .error r := by
  rw [encAddr, h, except_error_bind]

/-- The addresses of a frame whose entries are all valid (R202). -/
theorem encAddrs_ok {s : State} (k i : Nat) (h : ∀ j < k, s.entryValid (i + j)) : encAddrs s k i =
    .ok ((List.range k).flatMap fun j => addressBytes (s.entry (i + j)) (decide (j + 1 = k))) := by
  induction k generalizing i with
  | zero => rfl
  | succ k ih =>
    rw [encAddrs, encAddr_ok (i := i) _ (h 0 (by omega)), except_ok_bind,
      ih (i + 1) fun j hj => by rw [show i + 1 + j = i + (j + 1) by omega]; exact h (j + 1) (by omega),
      except_ok_bind, List.range_succ_eq_map, List.flatMap_cons, List.flatMap_map]
    congr 2
    · congr 1
      cases k <;> rfl
    · congr 1
      funext j
      rw [show i + 1 + j = i + (j + 1) by omega]
      simp

/-- The lowest invalid entry is the one reported (R202). -/
theorem encAddrs_error {s : State} {r : Raise} (k i j : Nat) (hj : j < k) (h : ∀ l < j, s.entryValid (i + l))
    (he : checkAddr s (i + j) = .error r) : encAddrs s k i = .error r := by
  induction k generalizing i j with
  | zero => omega
  | succ k ih =>
    rw [encAddrs]
    cases j with
    | zero => rw [encAddr_error (i := i) _ he, except_error_bind]
    | succ j =>
      rw [encAddr_ok (i := i) _ (h 0 (by omega)), except_ok_bind, ih (i + 1) j (by omega)
        (fun l hl => by rw [show i + 1 + l = i + (l + 1) by omega]; exact h (l + 1) (by omega))
        (by rwa [show i + 1 + j = i + (j + 1) by omega]), except_error_bind]

/-- The trimmed length: at most `n`, only spaces from it on, no space before it (R196). -/
theorem trimmedLength_spec (c : Nat → Byte) (n : Nat) :
    trimmedLength c n ≤ n ∧ (∀ k, trimmedLength c n ≤ k → k < n → c k = space) ∧
      ∀ k, k + 1 = trimmedLength c n → c k ≠ space := by
  induction n with
  | zero => simp [trimmedLength]
  | succ n ih =>
    rw [trimmedLength]
    split
    · rename_i h
      obtain ⟨h1, h2, h3⟩ := ih
      refine ⟨by omega, fun k hk hk' => ?_, h3⟩
      rcases Nat.lt_or_ge k n with hn | hn
      · exact h2 k hk hn
      · rwa [show k = n by omega]
    · rename_i h
      exact ⟨le_rfl, fun k hk hk' => by omega, fun k hk => by rwa [show k = n by omega]⟩

/-- R196: the decoded entry is the one the 7 bytes stand for. -/
theorem decAddr_isDecoded (s : State) (p : Nat) : IsDecodedAddress (fun k => s.inByte (p + k)) (decAddr s p) := by
  have hs : ∀ b : Byte, (b >>> 1).toNat = b.toNat / 2 := fun b => by
    rw [BitVec.toNat_ushiftRight, Nat.shiftRight_eq_div_pow]
  have hsp : ∀ b : Byte, b >>> 1 = space ↔ b.toNat / 2 = 0x20 := fun b => by
    rw [← BitVec.toNat_inj, hs]; rfl
  obtain ⟨h1, h2, h3⟩ := trimmedLength_spec (fun k => s.inByte (p + k) >>> 1) 6
  have hc : (decAddr s p).info.clen.toNat = trimmedLength (fun k => s.inByte (p + k) >>> 1) 6 := by
    simp only [decAddr, BitVec.toNat_ofNat]
    omega
  have hb : ∀ b : Byte, ((b >>> 1) &&& 0xF).toNat = b.toNat / 2 % 16 ∧ (b.getLsbD 7 = true ↔ b.toNat / 128 % 2 = 1) ∧
      (b.getLsbD 0 = true ↔ b.toNat % 2 = 1) ∧ (b.extractLsb' 5 2).toNat = b.toNat / 32 % 4 := by decide
  obtain ⟨q1, q2, q3, q4⟩ := hb (s.inByte (p + 6))
  refine ⟨?_, by rw [hc]; exact h1, fun k hk hk' => ?_, fun k hk => ?_, q1, q2, q3, q4⟩
  · simp only [decAddr, append_toNat, hs, Finset.sum_range_succ, Finset.sum_range_zero]
    omega
  · rw [hc] at hk
    exact (hsp _).1 (h2 k hk hk')
  · rw [hc] at hk
    exact fun hh => h3 k hk ((hsp _).2 hh)

/-- An entry is fixed by the bytes it is decoded from (R196). -/
theorem isDecoded_unique {b : Nat → Byte} {e f : AddrEntry} (he : IsDecodedAddress b e) (hf : IsDecodedAddress b f) :
    e = f := by
  obtain ⟨e1, e2, e3, e4, e5, e6, e7, e8⟩ := he
  obtain ⟨f1, f2, f3, f4, f5, f6, f7, f8⟩ := hf
  have hc : e.info.clen.toNat = f.info.clen.toNat := by
    rcases Nat.lt_trichotomy e.info.clen.toNat f.info.clen.toNat with h | h | h
    · exact absurd (e3 (f.info.clen.toNat - 1) (by omega) (by omega)) (f4 _ (by omega))
    · exact h
    · exact absurd (f3 (e.info.clen.toNat - 1) (by omega) (by omega)) (e4 _ (by omega))
  obtain ⟨ec, ⟨a1, a2, a3, a4, a5⟩⟩ := e
  obtain ⟨fc, ⟨b1, b2, b3, b4, b5⟩⟩ := f
  simp only at *
  have := BitVec.eq_of_toNat_eq (e1.trans f1.symm)
  have := BitVec.eq_of_toNat_eq hc
  have := BitVec.eq_of_toNat_eq (e5.trans f5.symm)
  have := BitVec.eq_of_toNat_eq (e8.trans f8.symm)
  have h6 : a3 = b3 := Bool.eq_iff_iff.2 (e6.trans f6.symm)
  have h7 : a4 = b4 := Bool.eq_iff_iff.2 (e7.trans f7.symm)
  subst_vars
  rfl

/-- LAST of a decoded address is bit 0 of its seventh byte (R192, R196). -/
theorem decAddr_last (s : State) (p : Nat) : (decAddr s p).info.last = true ↔ (s.inByte (p + 6)).toNat % 2 = 1 :=
  (decAddr_isDecoded s p).2.2.2.2.2.2.1

/-- The loop of AX25.DECF on `n` addresses, LAST on the final one only (R203). -/
theorem decAddrs_ok {s : State} (n left i : Nat) (hn : 1 ≤ n) (hl : n ≤ left) (hlen : 7 * (i + n) ≤ s.ilen.toNat)
    (h0 : ∀ j, j + 1 < n → (s.inByte (7 * (i + j) + 6)).toNat % 2 = 0)
    (h1 : (s.inByte (7 * (i + (n - 1)) + 6)).toNat % 2 = 1) :
    decAddrs s left i = .ok ((List.range n).map fun j => decAddr s (7 * (i + j))) := by
  induction n generalizing left i with
  | zero => omega
  | succ n ih =>
    obtain ⟨left, rfl⟩ : ∃ l, left = l + 1 := ⟨left - 1, by omega⟩
    have hlen' : ¬ s.inLen < 7 * i + 7 := by simp only [State.inLen]; omega
    unfold decAddrs
    rw [if_neg hlen']
    cases n with
    | zero =>
      have : (decAddr s (7 * i)).info.last = true := (decAddr_last _ _).2 (by simpa using h1)
      simp [this]
    | succ n =>
      have : ¬ (decAddr s (7 * i)).info.last = true := by
        rw [decAddr_last]
        have := h0 0 (by omega)
        simp only [Nat.add_zero] at this
        omega
      simp only [this]
      rw [ih left (i + 1) (by omega) (by omega) (by omega)
        (fun j hj => by rw [show i + 1 + j = i + (j + 1) by omega]; exact h0 (j + 1) (by omega))
        (by rw [show i + 1 + (n + 1 - 1) = i + (n + 1 + 1 - 1) by omega]; exact h1)]
      rw [List.range_succ_eq_map (n := n + 1)]
      simp only [Bool.false_eq_true, if_false, except_ok_bind, List.map_cons, List.map_map, Nat.add_zero]
      congr 2
      refine List.map_congr_left fun j _ => ?_
      simp only [Function.comp]
      rw [show i + 1 + j = i + (j + 1) by omega]

/-- The loop of AX25.DECF passes `n` addresses without LAST (R203). -/
theorem decAddrs_error {s : State} {r : Raise} (n left i : Nat) (hlen : 7 * (i + n) ≤ s.ilen.toNat)
    (h0 : ∀ j < n, (s.inByte (7 * (i + j) + 6)).toNat % 2 = 0) (h : decAddrs s left (i + n) = .error r) :
    decAddrs s (left + n) i = .error r := by
  induction n generalizing i with
  | zero => exact h
  | succ n ih =>
    have hlen' : ¬ s.inLen < 7 * i + 7 := by simp only [State.inLen]; omega
    have : ¬ (decAddr s (7 * i)).info.last = true := by
      rw [decAddr_last]
      have := h0 0 (by omega)
      simp only [Nat.add_zero] at this
      omega
    rw [show left + (n + 1) = left + n + 1 by omega]
    unfold decAddrs
    rw [if_neg hlen']
    simp only [this]
    rw [ih (i + 1) (by omega)
      (fun j hj => by rw [show i + 1 + j = i + (j + 1) by omega]; exact h0 (j + 1) (by omega))
      (by rwa [show i + 1 + n = i + (n + 1) by omega])]
    rfl

/-- Fewer than 7 bytes for address `i` (R203). -/
theorem decAddrs_truncated {s : State} (left i : Nat) (h : s.ilen.toNat < 7 * i + 7) : decAddrs s left i =
    .error { err := .truncatedFrame, field := .address, byte := 0, pos := i } := by
  unfold decAddrs
  rw [if_pos (show s.inLen < 7 * i + 7 from h)]

/-- The table is full and no address had LAST (R203). -/
theorem decAddrs_full {s : State} (i : Nat) (h : 7 * i + 7 ≤ s.ilen.toNat) : decAddrs s 0 i =
    .error { err := .capacityExceeded, field := .naddr, byte := 0, pos := i } := by
  have : ¬ s.inLen < 7 * i + 7 := by simp only [State.inLen]; omega
  unfold decAddrs
  rw [if_neg this]

end Sys2Proof.Laws
end

