-- ==== Sys2Proof/Laws/Commands.lean ====
section
/-! SUPPORT. Everything a command can do, said once: what it has written when it completes without an error, and what is
kept when it raises. Invariants and frames follow from `exec_cases` without unfolding a meaning. -/

namespace Sys2Proof.Laws

open Sys2Proof.Machine

/-- A computation that answers has its first step answer. -/
theorem except_bind_ok {α β : Type} {x : Except Raise α} {f : α → Except Raise β} {b : β} (h : (x >>= f) = .ok b) :
    ∃ a, x = .ok a ∧ f a = .ok b := by
  cases x with
  | ok a => exact ⟨a, rfl, h⟩
  | error e => cases h

/-- A computation that raises has its first step or its rest raise. -/
theorem except_bind_error {α β : Type} {x : Except Raise α} {f : α → Except Raise β} {r : Raise}
    (h : (x >>= f) = .error r) : x = .error r ∨ ∃ a, x = .ok a ∧ f a = .error r := by
  cases x with
  | ok a => exact .inr ⟨a, rfl, h⟩
  | error e =>
    cases h
    exact .inl rfl

/-- `u` is `s` with some bytes output (R92). -/
def Emitted (s u : State) : Prop :=
  ∃ bs : List Byte, bs.length ≤ s.params.obufSize ∧
    u = { s with mem := s.mem.writeBytes obufBase bs, olen := BitVec.ofNat 64 bs.length }

theorem emitted_of_emit {s u : State} {bs : List Byte} (h : emit s bs = .ok u) : Emitted s u := by
  rcases emit_cases s bs with ⟨h1, h2⟩ | ⟨-, h2⟩
  · rw [h2] at h
    cases h
    exact ⟨bs, h1, rfl⟩
  · rw [h2] at h
    cases h

/-- `u` is `s` after a position decoder with a layout of `n` bytes that did not raise (R152, R154). -/
def Decoded (n a b : Nat) (s u : State) : Prop :=
  s.windowOk ∧ (u = s.noMatch ∨ (n ≤ s.ilen.toNat ∧ ∃ p, u = { s.matchedReport n a b with point := p }))

/-- The position decoders with the length of their layout and the offsets of SYMTAB and SYMCODE (R151, R153). -/
def layouts : List (Instr × Nat × Nat × Nat) :=
  [(.aprsDecU, 20, 9, 19), (.aprsDecT, 27, 16, 26), (.aprsDecC, 14, 1, 10)]

/-- What a command has written, from `s` to `u`, before it completes without an error (R76's results column). -/
def Result : Instr → State → State → Prop
  | .nop, s, u => u = s
  | .b91Enc _, s, u => Emitted s u
  | .b91Dec _, s, u => ∃ v, u = { s with val := v }
  | .latPre, s, u => ∃ v, u = { s with val := v }
  | .lonPre, s, u => ∃ v, u = { s with val := v }
  | .latDec, s, u => ∃ v x, u = { s with val := v, point := { s.point with lat := x } }
  | .lonDec, s, u => ∃ v x, u = { s with val := v, point := { s.point with lon := x } }
  | .altEnc, s, u => ∃ v, Emitted { s with val := v } u
  | .altDec, s, u => ∃ v x, u = { s with val := v, point := { s.point with alt := x } }
  | .csDec, s, u => ∃ v x y, u = { s with val := v, point := { s.point with course := x, speed := y } }
  | .rngDec, s, u => ∃ v x, u = { s with val := v, point := { s.point with range := x } }
  | .dmmEncLat, s, u => Emitted s u
  | .dmmEncLon, s, u => Emitted s u
  | .dmmDecLat, s, u => ∃ x, u = { s with point := { s.point with lat := x } }
  | .dmmDecLon, s, u => ∃ x, u = { s with point := { s.point with lon := x } }
  | .aprsClass, s, u => ∃ v, u = { s with val := v }
  | .aprsEncU, s, u => Emitted s u
  | .aprsEncC, s, u => Emitted s u
  | .aprsDecU, s, u => Decoded 20 9 19 s u
  | .aprsDecT, s, u => Decoded 27 16 26 s u
  | .aprsDecC, s, u => Decoded 14 1 10 s u
  | .ax25EncA, s, u => Emitted s u
  | .ax25DecA, s, u =>
    s.windowOk ∧ 7 ≤ s.ilen.toNat ∧ u = { s.withRemainder 7 with addrs := s.addrs.set 0 (decAddr s 0) }
  | .ax25EncF, s, u => Emitted s u
  | .ax25DecF, s, u =>
    s.windowOk ∧ ∃ t : List AddrEntry, t.length ≤ s.params.maxAddr ∧ 7 * t.length + 2 ≤ s.ilen.toNat ∧
      u =
        { s.withRemainder (7 * t.length + 2) with
          addrs := t ++ s.addrs.drop t.length
          naddr := BitVec.ofNat 8 t.length
          frameHdr := { ctrl := s.inByte (7 * t.length), pid := s.inByte (7 * t.length + 1) } }

/-- What a raise writes to STATUS. -/
def raisedState (kept : State) (r : Raise) : State :=
  kept.errored r.err.code r.field.code (BitVec.ofNat 8 r.byte) (BitVec.ofNat 16 r.pos)

/-- The addresses decoded fit the table (R203). -/
theorem decAddrs_length {s : State} {left i : Nat} {l : List AddrEntry} (h : decAddrs s left i = .ok l) :
    l.length ≤ left := by
  induction left generalizing i l with
  | zero =>
    unfold decAddrs at h
    split at h <;> cases h
  | succ n ih =>
    unfold decAddrs at h
    split at h
    · cases h
    · simp only at h
      split at h
      · cases h
        simp
      · obtain ⟨a, ha, hb⟩ := except_bind_ok h
        cases hb
        simpa using ih ha

/-- A digit raises InvalidDigit only. -/
theorem digitsFrom_raises {s : State} {f : Field} {n i acc : Nat} {r : Raise} (h : digitsFrom s f n i acc = .error r) :
    r.err = .invalidDigit := by
  induction n generalizing i acc with
  | zero => cases h
  | succ n ih =>
    rcases except_bind_error h with h | ⟨a, -, h⟩
    · rw [digit] at h
      split at h
      · cases h
      · cases h
        rfl
    · exact ih h

theorem digit_raises {b : Byte} {f : Field} {p : Nat} {r : Raise} (h : digit b f p = .error r) :
    r.err = .invalidDigit := by
  rw [digit] at h
  split at h
  · cases h
  · cases h
    rfl

theorem extraClass_raises {t1 t2 ty : Byte} {r : Raise} (h : extraClass t1 t2 ty = .error r) :
    r.err = .invalidDigit := by
  rw [extraClass] at h
  split at h
  · cases h
  · rcases except_bind_error h with h | ⟨t, -, h⟩
    · exact digit_raises h
    · split at h
      · rcases except_bind_error h with h | ⟨a, -, h⟩
        · exact digit_raises h
        · rcases except_bind_error h with h | ⟨b, -, h⟩
          · exact digit_raises h
          · cases h
      · split at h
        · rcases except_bind_error h with h | ⟨a, -, h⟩
          · exact digit_raises h
          · rcases except_bind_error h with h | ⟨b, -, h⟩
            · exact digit_raises h
            · cases h
        · split at h
          · rcases except_bind_error h with h | ⟨a, -, h⟩
            · exact digit_raises h
            · cases h
          · cases h

theorem decimalsFrom_raises {s : State} {f : Field} {n i acc : Nat} {r : Raise}
    (h : decimalsFrom s f n i acc = .error r) : r.err = .decodeField := by
  induction n generalizing i acc with
  | zero => cases h
  | succ n ih =>
    rcases except_bind_error h with h | ⟨a, -, h⟩
    · rw [decimalAt] at h
      split at h
      · cases h
      · cases h
        rfl
    · exact ih h

theorem minutesField_raises {s : State} {f : Field} {i : Nat} {r : Raise} (h : minutesField s f i = .error r) :
    r.err = .decodeField := by
  rcases except_bind_error h with h | ⟨a, -, h⟩
  · exact decimalsFrom_raises h
  · rcases except_bind_error h with h | ⟨b, -, h⟩
    · rw [pointAt] at h
      split at h
      · cases h
      · cases h
        rfl
    · rcases except_bind_error h with h | ⟨c, -, h⟩
      · exact decimalsFrom_raises h
      · cases h

theorem dmmPosition_raises {s : State} {i : Nat} {r : Raise} (h : dmmPosition s i = .error r) :
    r.err = .decodeField := by
  rcases except_bind_error h with h | ⟨a, -, h⟩
  · exact decimalsFrom_raises h
  · rcases except_bind_error h with h | ⟨b, -, h⟩
    · exact minutesField_raises h
    · rcases except_bind_error h with h | ⟨c, -, h⟩
      · exact decimalsFrom_raises h
      · rcases except_bind_error h with h | ⟨d, -, h⟩
        · exact minutesField_raises h
        · cases h

/-- How a command ends: without an error, with an error that undoes its writes, or, a matched position decoder, with an
error that keeps the "on error write" outputs of R153. -/
inductive Ends (i : Instr) (s : State) : State → Prop where
  | ok (u : State) (h : Result i s u) : Ends i s u.completed
  | raised (r : Raise) (h : i ∈ layouts.map (·.1) → r.err = .capacityExceeded) : Ends i s (raisedState s r)
  | matchedRaised (n a b : Nat) (r : Raise) (hl : (i, n, a, b) ∈ layouts) (hw : s.windowOk) (hn : n ≤ s.ilen.toNat)
      (h : r.err = .decodeField ∨ r.err = .invalidDigit) : Ends i s (raisedState (s.matchedReport n a b) r)

/-- A command whose kept state is the state before it. -/
theorem ends_of_complete {i : Instr} {s : State} {x : Except Raise State} (hi : i ∉ layouts.map (·.1))
    (h : ∀ u, x = .ok u → Result i s u) : ∃ t, complete s x = .next t ∧ Ends i s t := by
  cases x with
  | ok u => exact ⟨_, complete_ok s u, .ok u (h u rfl)⟩
  | error r => exact ⟨_, complete_error s r, .raised r fun hh => absurd hh hi⟩

/-- A position decoder after its window check. -/
theorem ends_of_report {i : Instr} {s : State} {n a b : Nat} {x : Except Raise State} (hl : (i, n, a, b) ∈ layouts)
    (hr : Result i s = Decoded n a b s) (hw : s.windowOk) (hn : n ≤ s.ilen.toNat)
    (h : ∀ u, x = .ok u → ∃ p, u = { s.matchedReport n a b with point := p })
    (he : ∀ r, x = .error r → r.err = .decodeField ∨ r.err = .invalidDigit) :
    ∃ t, complete (s.matchedReport n a b) x = .next t ∧ Ends i s t := by
  cases x with
  | ok u => exact ⟨_, complete_ok _ u, .ok u (by rw [hr]; exact ⟨hw, .inr ⟨hn, h u rfl⟩⟩)⟩
  | error r => exact ⟨_, complete_error _ r, .matchedRaised n a b r hl hw hn (he r rfl)⟩

theorem ends_unmatched {i : Instr} {s : State} {n a b : Nat} (hr : Result i s = Decoded n a b s) (hw : s.windowOk) :
    ∃ t, complete s (.ok s.noMatch) = .next t ∧ Ends i s t :=
  ⟨_, complete_ok _ _, .ok _ (by rw [hr]; exact ⟨hw, .inl rfl⟩)⟩

theorem ends_window {i : Instr} {s : State} :
    ∃ t, complete s (.error { err := .capacityExceeded, field := .window, byte := 0, pos := 0 }) = .next t ∧
      Ends i s t :=
  ⟨_, complete_error _ _, .raised _ fun _ => rfl⟩

theorem ends_aprsDecU (s : State) : ∃ t, execAprsDecU s = .next t ∧ Ends .aprsDecU s t := by
  by_cases hw : s.windowOk
  · simp only [execAprsDecU, checkWindow_ok hw]
    split
    · rename_i hm
      refine ends_of_report (by simp [layouts]) rfl hw ((matchesU_iff s).1 hm).1 (fun u h => ?_) fun r h => ?_
      · obtain ⟨_, _, h⟩ := except_bind_ok h
        cases h
        exact ⟨_, rfl⟩
      · rcases except_bind_error h with h | ⟨_, -, h⟩
        · exact .inl (dmmPosition_raises h)
        · cases h
    · exact ends_unmatched rfl hw
  · simp only [execAprsDecU, checkWindow_error hw]
    exact ends_window

theorem ends_aprsDecT (s : State) : ∃ t, execAprsDecT s = .next t ∧ Ends .aprsDecT s t := by
  by_cases hw : s.windowOk
  · simp only [execAprsDecT, checkWindow_ok hw]
    split
    · rename_i hm
      refine ends_of_report (by simp [layouts]) rfl hw ((matchesT_iff s).1 hm).1 (fun u h => ?_) fun r h => ?_
      · obtain ⟨_, _, h⟩ := except_bind_ok h
        cases h
        exact ⟨_, rfl⟩
      · rcases except_bind_error h with h | ⟨_, -, h⟩
        · exact .inl (dmmPosition_raises h)
        · cases h
    · exact ends_unmatched rfl hw
  · simp only [execAprsDecT, checkWindow_error hw]
    exact ends_window

theorem ends_aprsDecC (s : State) : ∃ t, execAprsDecC s = .next t ∧ Ends .aprsDecC s t := by
  by_cases hw : s.windowOk
  · simp only [execAprsDecC, checkWindow_ok hw]
    split
    · rename_i hm
      refine ends_of_report (by simp [layouts]) rfl hw ((matchesC_iff s).1 hm).1 (fun u h => ?_) fun r h => ?_
      · obtain ⟨_, _, h⟩ := except_bind_ok h
        obtain ⟨_, _, h⟩ := except_bind_ok h
        obtain ⟨_, _, h⟩ := except_bind_ok h
        cases h
        exact ⟨_, rfl⟩
      · rcases except_bind_error h with h | ⟨_, -, h⟩
        · exact .inr (digitsFrom_raises h)
        · rcases except_bind_error h with h | ⟨_, -, h⟩
          · exact .inr (digitsFrom_raises h)
          · rcases except_bind_error h with h | ⟨_, -, h⟩
            · exact .inr (extraClass_raises h)
            · cases h
    · exact ends_unmatched rfl hw
  · simp only [execAprsDecC, checkWindow_error hw]
    exact ends_window

/-- Everything a command can do: it answers a next state, and that state is one of `Ends` (R87, R230, R234). -/
theorem exec_ends (i : Instr) (s : State) : ∃ t, exec i s = .next t ∧ Ends i s t := by
  cases i with
  | aprsDecU => exact ends_aprsDecU s
  | aprsDecT => exact ends_aprsDecT s
  | aprsDecC => exact ends_aprsDecC s
  | nop => exact ⟨_, rfl, .ok s rfl⟩
  | b91Enc w =>
    refine ends_of_complete (by simp [layouts]) fun u h => ?_
    obtain ⟨_, _, h⟩ := except_bind_ok h
    split at h
    · cases h
    · exact emitted_of_emit h
  | b91Dec w =>
    refine ends_of_complete (by simp [layouts]) fun u h => ?_
    obtain ⟨_, _, h⟩ := except_bind_ok h
    obtain ⟨_, _, h⟩ := except_bind_ok h
    obtain ⟨_, _, h⟩ := except_bind_ok h
    cases h
    exact ⟨_, rfl⟩
  | latPre | lonPre | aprsClass =>
    refine ends_of_complete (by simp [layouts]) fun u h => ?_
    obtain ⟨_, _, h⟩ := except_bind_ok h
    cases h
    exact ⟨_, rfl⟩
  | latDec | lonDec | altDec | rngDec =>
    refine ends_of_complete (by simp [layouts]) fun u h => ?_
    obtain ⟨_, _, h⟩ := except_bind_ok h
    obtain ⟨_, _, h⟩ := except_bind_ok h
    cases h
    exact ⟨_, _, rfl⟩
  | altEnc => exact ends_of_complete (by simp [layouts]) fun u h => ⟨_, emitted_of_emit h⟩
  | csDec =>
    refine ends_of_complete (by simp [layouts]) fun u h => ?_
    obtain ⟨_, _, h⟩ := except_bind_ok h
    obtain ⟨_, _, h⟩ := except_bind_ok h
    obtain ⟨_, _, h⟩ := except_bind_ok h
    cases h
    exact ⟨_, _, _, rfl⟩
  | dmmEncLat | dmmEncLon | ax25EncA =>
    refine ends_of_complete (by simp [layouts]) fun u h => ?_
    obtain ⟨_, _, h⟩ := except_bind_ok h
    exact emitted_of_emit h
  | aprsEncU | aprsEncC =>
    refine ends_of_complete (by simp [layouts]) fun u h => ?_
    obtain ⟨_, _, h⟩ := except_bind_ok h
    obtain ⟨_, _, h⟩ := except_bind_ok h
    exact emitted_of_emit h
  | ax25EncF =>
    refine ends_of_complete (by simp [layouts]) fun u h => ?_
    obtain ⟨_, _, h⟩ := except_bind_ok h
    obtain ⟨_, _, h⟩ := except_bind_ok h
    obtain ⟨_, _, h⟩ := except_bind_ok h
    exact emitted_of_emit h
  | dmmDecLat | dmmDecLon =>
    refine ends_of_complete (by simp [layouts]) fun u h => ?_
    obtain ⟨_, _, h⟩ := except_bind_ok h
    obtain ⟨_, _, h⟩ := except_bind_ok h
    obtain ⟨_, _, h⟩ := except_bind_ok h
    obtain ⟨_, _, h⟩ := except_bind_ok h
    cases h
    exact ⟨_, rfl⟩
  | ax25DecA =>
    refine ends_of_complete (by simp [layouts]) fun u h => ?_
    obtain ⟨_, hw, h⟩ := except_bind_ok h
    split at h
    · cases h
    · rename_i hl
      cases h
      exact ⟨checkWindow_eq_ok_iff.1 hw, Nat.le_of_not_lt hl, rfl⟩
  | ax25DecF =>
    refine ends_of_complete (by simp [layouts]) fun u h => ?_
    obtain ⟨_, hw, h⟩ := except_bind_ok h
    obtain ⟨l, hl, h⟩ := except_bind_ok h
    split at h
    · cases h
    · rename_i hl'
      cases h
      exact ⟨checkWindow_eq_ok_iff.1 hw, l, decAddrs_length hl, Nat.le_of_not_lt hl', rfl⟩

/-- The inversion of a command. -/
theorem exec_cases {i : Instr} {s t : State} (h : exec i s = .next t) : Ends i s t := by
  obtain ⟨u, hu, he⟩ := exec_ends i s
  rw [hu] at h
  cases h
  exact he

/-! ### Consequences -/

/-- What a command may change: MATCH, the output, the remainder, VAL, the Point, P_SYM, the frame registers (R76). -/
def Changed (s u : State) : Prop :=
  u =
    { s with
      status := { s.status with matched := u.status.matched }
      olen := u.olen, remOff := u.remOff, remLen := u.remLen, val := u.val, point := u.point, sym := u.sym
      frameHdr := u.frameHdr, naddr := u.naddr, addrs := u.addrs, mem := u.mem }

/-- The output of a command: none, or some bytes from OBUF[0] on with their number in OLEN (R27, R57, R92). -/
def Output (s u : State) : Prop :=
  (u.mem = s.mem ∧ u.olen = s.olen) ∨
    ∃ bs : List Byte, bs.length ≤ s.params.obufSize ∧ u.mem = s.mem.writeBytes obufBase bs ∧
      u.olen = BitVec.ofNat 64 bs.length

/-- The remainder after a command: as before, or the window from some offset in it on (R28). -/
def Remainder (s u : State) : Prop :=
  (u.remOff = s.remOff ∧ u.remLen = s.remLen) ∨
    (s.windowOk ∧ ∃ n ≤ s.ilen.toNat, u.remOff = BitVec.ofNat 64 (s.ioff.toNat + n) ∧
      u.remLen = BitVec.ofNat 64 (s.ilen.toNat - n))

theorem emitted_changed {s u : State} (h : Emitted s u) : Changed s u := by
  obtain ⟨_, _, rfl⟩ := h
  rfl

theorem decoded_changed {n a b : Nat} {s u : State} (h : Decoded n a b s u) : Changed s u := by
  obtain ⟨_, rfl | ⟨_, _, rfl⟩⟩ := h <;> rfl

theorem result_changed {i : Instr} {s u : State} (h : Result i s u) : Changed s u := by
  cases i with
  | nop => cases h; rfl
  | b91Enc | dmmEncLat | dmmEncLon | aprsEncU | aprsEncC | ax25EncA | ax25EncF => exact emitted_changed h
  | b91Dec | latPre | lonPre | aprsClass | dmmDecLat | dmmDecLon => obtain ⟨_, rfl⟩ := h; rfl
  | latDec | lonDec | altDec | rngDec => obtain ⟨_, _, rfl⟩ := h; rfl
  | altEnc => obtain ⟨_, _, _, rfl⟩ := h; rfl
  | csDec => obtain ⟨_, _, _, rfl⟩ := h; rfl
  | aprsDecU | aprsDecT | aprsDecC => exact decoded_changed h
  | ax25DecA => obtain ⟨_, _, rfl⟩ := h; rfl
  | ax25DecF => obtain ⟨_, _, _, _, rfl⟩ := h; rfl

theorem emitted_output {s u : State} (h : Emitted s u) : Output s u := by
  obtain ⟨bs, hb, rfl⟩ := h
  exact .inr ⟨bs, hb, rfl, rfl⟩

theorem decoded_output {n a b : Nat} {s u : State} (h : Decoded n a b s u) : Output s u := by
  obtain ⟨_, rfl | ⟨_, _, rfl⟩⟩ := h <;> exact .inl ⟨rfl, rfl⟩

theorem result_output {i : Instr} {s u : State} (h : Result i s u) : Output s u := by
  cases i with
  | nop => cases h; exact .inl ⟨rfl, rfl⟩
  | b91Enc | dmmEncLat | dmmEncLon | aprsEncU | aprsEncC | ax25EncA | ax25EncF => exact emitted_output h
  | b91Dec | latPre | lonPre | aprsClass | dmmDecLat | dmmDecLon => obtain ⟨_, rfl⟩ := h; exact .inl ⟨rfl, rfl⟩
  | latDec | lonDec | altDec | rngDec => obtain ⟨_, _, rfl⟩ := h; exact .inl ⟨rfl, rfl⟩
  | altEnc => obtain ⟨_, bs, hb, rfl⟩ := h; exact .inr ⟨bs, hb, rfl, rfl⟩
  | csDec => obtain ⟨_, _, _, rfl⟩ := h; exact .inl ⟨rfl, rfl⟩
  | aprsDecU | aprsDecT | aprsDecC => exact decoded_output h
  | ax25DecA => obtain ⟨_, _, rfl⟩ := h; exact .inl ⟨rfl, rfl⟩
  | ax25DecF => obtain ⟨_, _, _, _, rfl⟩ := h; exact .inl ⟨rfl, rfl⟩

theorem emitted_remainder {s u : State} (h : Emitted s u) : Remainder s u := by
  obtain ⟨bs, hb, rfl⟩ := h
  exact .inl ⟨rfl, rfl⟩

theorem decoded_remainder {n a b : Nat} {s u : State} (h : Decoded n a b s u) : Remainder s u := by
  obtain ⟨hw, rfl | ⟨hn, _, rfl⟩⟩ := h
  · exact .inr ⟨hw, 0, by omega, by simp [State.noMatch], by simp [State.noMatch]⟩
  · exact .inr ⟨hw, n, hn, rfl, rfl⟩

theorem result_remainder {i : Instr} {s u : State} (h : Result i s u) : Remainder s u := by
  cases i with
  | nop => cases h; exact .inl ⟨rfl, rfl⟩
  | b91Enc | dmmEncLat | dmmEncLon | aprsEncU | aprsEncC | ax25EncA | ax25EncF => exact emitted_remainder h
  | b91Dec | latPre | lonPre | aprsClass | dmmDecLat | dmmDecLon => obtain ⟨_, rfl⟩ := h; exact .inl ⟨rfl, rfl⟩
  | latDec | lonDec | altDec | rngDec => obtain ⟨_, _, rfl⟩ := h; exact .inl ⟨rfl, rfl⟩
  | altEnc => obtain ⟨_, bs, hb, rfl⟩ := h; exact .inl ⟨rfl, rfl⟩
  | csDec => obtain ⟨_, _, _, rfl⟩ := h; exact .inl ⟨rfl, rfl⟩
  | aprsDecU | aprsDecT | aprsDecC => exact decoded_remainder h
  | ax25DecA => obtain ⟨hw, hn, rfl⟩ := h; exact .inr ⟨hw, 7, hn, rfl, rfl⟩
  | ax25DecF => obtain ⟨hw, _, _, hn, rfl⟩ := h; exact .inr ⟨hw, _, hn, rfl, rfl⟩

/-- The address table keeps its length (R43). -/
theorem result_table {i : Instr} {s u : State} (h : Result i s u) (hl : s.addrs.length = s.params.maxAddr) :
    u.addrs.length = s.addrs.length := by
  cases i with
  | nop => cases h; rfl
  | b91Enc | dmmEncLat | dmmEncLon | aprsEncU | aprsEncC | ax25EncA | ax25EncF => obtain ⟨_, _, rfl⟩ := h; rfl
  | b91Dec | latPre | lonPre | aprsClass | dmmDecLat | dmmDecLon => obtain ⟨_, rfl⟩ := h; rfl
  | latDec | lonDec | altDec | rngDec => obtain ⟨_, _, rfl⟩ := h; rfl
  | altEnc => obtain ⟨_, bs, hb, rfl⟩ := h; rfl
  | csDec => obtain ⟨_, _, _, rfl⟩ := h; rfl
  | aprsDecU | aprsDecT | aprsDecC => obtain ⟨_, rfl | ⟨_, _, rfl⟩⟩ := h <;> rfl
  | ax25DecA => obtain ⟨hw, hn, rfl⟩ := h; exact List.length_set
  | ax25DecF =>
    obtain ⟨hw, t, ht, hn, rfl⟩ := h
    simp only [List.length_append, List.length_drop]
    omega

/-- AX25.DECF keeps the entries at or above the new NADDR (R203). -/
theorem result_decF_entry {s u : State} (h : Result .ax25DecF s u) (hp : s.params.valid) {k : Nat}
    (hk : u.naddr.toNat ≤ k) : u.entry k = s.entry k := by
  obtain ⟨-, t, ht, -, rfl⟩ := h
  have hn : t.length ≤ k := by
    have := hp.2.2.2
    rwa [show (BitVec.ofNat 8 t.length).toNat = t.length by rw [BitVec.toNat_ofNat]; omega] at hk
  simp only [State.entry, List.getD_eq_getElem?_getD]
  rw [List.getElem?_append_right hn, List.getElem?_drop, Nat.add_sub_cancel' hn]

end Sys2Proof.Laws
end

