-- ==== Sys2Proof/Laws/HostPort.lean ====
section
/-! SUPPORT. The laws of the host port: the register map is injective, a register write changes no other register, the
little-endian words, and what the writes of an idle block do. -/

namespace Sys2Proof.Laws

open Sys2Proof.Machine

/-! ### The register map -/

/-- The registers of the address table (R23). -/
theorem addrRegAt_some {m off : Nat} {r : Reg} (h : addrRegAt m off = some r) :
    ∃ i < m, (r = .addrCall i ∧ off = 0xA0 + 0x10 * i) ∨ (r = .addrMeta i ∧ off = 0xA8 + 0x10 * i) := by
  unfold addrRegAt at h
  split at h
  · rename_i hc
    refine ⟨(off - 0x0A0) / 0x10, hc.2, ?_⟩
    split at h
    · cases h
      exact .inl ⟨rfl, by omega⟩
    · split at h
      · cases h
        exact .inr ⟨rfl, by omega⟩
      · cases h
  · cases h

theorem regAt_addrCall {m i : Nat} (h : i < m) : regAt m (0xA0 + 0x10 * i) = some (.addrCall i) := by
  unfold regAt
  split <;> first | omega | skip
  rw [addrRegAt, if_pos (by omega), if_pos (by omega)]
  congr 2
  omega

theorem regAt_addrMeta {m i : Nat} (h : i < m) : regAt m (0xA8 + 0x10 * i) = some (.addrMeta i) := by
  unfold regAt
  split <;> first | omega | skip
  rw [addrRegAt, if_pos (by omega), if_neg (by omega), if_pos (by omega)]
  congr 2
  omega

/-- No two offsets are one register (R23). -/
theorem regAt_inj {m off off' : Nat} {r : Reg} (h : regAt m off = some r) (h' : regAt m off' = some r) :
    off = off' := by
  unfold regAt at h
  split at h
  case h_21 =>
    obtain ⟨i, hi, hh⟩ := addrRegAt_some h
    unfold regAt at h'
    split at h' <;> try (rcases hh with ⟨rfl, -⟩ | ⟨rfl, -⟩ <;> simp at h')
    obtain ⟨j, hj, hh'⟩ := addrRegAt_some h'
    rcases hh with ⟨rfl, a⟩ | ⟨rfl, a⟩ <;> rcases hh' with ⟨b, c⟩ | ⟨b, c⟩ <;> simp at b <;> omega
  all_goals
    cases h
    unfold regAt at h'
    split at h' <;> try (simp at h')
    case h_21 =>
      obtain ⟨j, hj, hh'⟩ := addrRegAt_some h'
      simp at hh'
    rfl

/-- STATUS is at offset 8 and nowhere else (R23). -/
theorem regAt_status {m off : Nat} : regAt m off = some .status ↔ off = 8 :=
  ⟨fun h => regAt_inj h rfl, fun h => h ▸ rfl⟩

/-! ### Registers -/

theorem writeReg_params (s : State) (v : Word) (r : Reg) : (s.writeReg v r).params = s.params := by
  cases r <;> first | rfl | (simp only [State.writeReg, State.writeStatus]; split <;> rfl)

/-- A write to a register other than CMD changes no other register. -/
theorem readReg_writeReg_ne (s : State) (v : Word) (r q : Reg) (hr : r ≠ .cmd) (hq : q ≠ r)
    (hi : ∀ i, (r = .addrCall i ∨ r = .addrMeta i) → i < s.addrs.length) :
    (s.writeReg v r).readReg q = s.readReg q := by
  cases r with
  | cmd => exact absurd rfl hr
  | status =>
    simp only [State.writeReg, State.writeStatus]
    split
    · cases q <;> first | rfl | exact absurd rfl hq
    · rfl
  | addrCall i =>
    have hi' := hi i (.inl rfl)
    cases q with
    | addrCall j =>
      have : i ≠ j := fun h => hq (by rw [h])
      simp [State.writeReg, State.readReg, State.entry, List.getD_eq_getElem?_getD, this]
    | addrMeta j =>
      by_cases h : i = j
      · subst h
        simp [State.writeReg, State.readReg, State.entry, List.getD_eq_getElem?_getD, hi']
      · simp [State.writeReg, State.readReg, State.entry, List.getD_eq_getElem?_getD, h]
    | _ => rfl
  | addrMeta i =>
    have hi' := hi i (.inr rfl)
    cases q with
    | addrMeta j =>
      have : i ≠ j := fun h => hq (by rw [h])
      simp [State.writeReg, State.readReg, State.entry, List.getD_eq_getElem?_getD, this]
    | addrCall j =>
      by_cases h : i = j
      · subst h
        simp [State.writeReg, State.readReg, State.entry, List.getD_eq_getElem?_getD, hi']
      · simp [State.writeReg, State.readReg, State.entry, List.getD_eq_getElem?_getD, h]
    | _ => rfl
  | _ => cases q <;> first | rfl | exact absurd rfl hq

/-- Every register reads 0 after reset (R45). -/
theorem readReg_resetWith (p : Params) (r : Reg) : (State.resetWith p).readReg r = 0 := by
  have table (i : Nat) : (List.replicate p.maxAddr AddrEntry.zero).getD i AddrEntry.zero = AddrEntry.zero := by
    simp only [List.getD_eq_getElem?_getD, List.getElem?_replicate]
    split <;> rfl
  cases r with
  | addrCall i =>
    simp only [State.readReg, State.entry, State.resetWith, table]
    rfl
  | addrMeta i =>
    simp only [State.readReg, State.entry, State.resetWith, table]
    rfl
  | status =>
    simp only [State.readReg, State.statusWord, State.resetWith, Status.zero, State.busy]
    decide
  | pFlags =>
    simp only [State.readReg, PointFlags.word, State.resetWith, PointFlags.zero, Point.zero]
    decide
  | pSym =>
    simp only [State.readReg, Symbol.word, State.resetWith]
    decide
  | frameHdr =>
    simp only [State.readReg, FrameHdr.word, State.resetWith]
    decide
  | _ => rfl

/-! ### Fields of registers -/

/-- The bits of STATUS (R25). -/
theorem statusWord_toNat (s : State) : s.statusWord.toNat =
    s.pend.isSome.toNat + s.status.done.toNat * 2 + s.status.matched.toNat * 2 ^ 2 + s.status.ovr.toNat * 2 ^ 3
      + s.status.err.toNat * 2 ^ 8 + s.status.efield.toNat * 2 ^ 16 + s.status.ebyte.toNat * 2 ^ 24
      + s.status.epos.toNat * 2 ^ 32 := by
  simp only [State.statusWord, flagBit, State.busy, append_toNat, BitVec.toNat_ofBool, BitVec.toNat_ofNat]
  omega

/-- The bits of P_FLAGS (R33). -/
theorem pointFlags_word_toNat (f : PointFlags) :
    f.word.toNat = f.msgcap.toNat + f.tskind.toNat * 2 + f.extra.toNat * 2 ^ 4 := by
  simp only [PointFlags.word, flagBit, append_toNat, BitVec.toNat_ofBool, BitVec.toNat_ofNat]
  omega

/-- The bits of P_SYM (R35). -/
theorem symbol_word_toNat (y : Symbol) : y.word.toNat = y.table.toNat + y.code.toNat * 2 ^ 8 := by
  simp only [Symbol.word, append_toNat, BitVec.toNat_ofNat]
  omega

/-- The bits of FRAMEHDR (R36). -/
theorem frameHdr_word_toNat (h : FrameHdr) : h.word.toNat = h.ctrl.toNat + h.pid.toNat * 2 ^ 8 := by
  simp only [FrameHdr.word, append_toNat, BitVec.toNat_ofNat]
  omega

/-- The bits of ADDR_META (R39). -/
theorem addrMeta_word_toNat (m : AddrMeta) : m.word.toNat =
    m.clen.toNat + m.ssid.toNat * 2 ^ 8 + m.ch.toNat * 2 ^ 16 + m.last.toNat * 2 ^ 17 + m.rsv.toNat * 2 ^ 18 := by
  simp only [AddrMeta.word, flagBit, append_toNat, BitVec.toNat_ofBool, BitVec.toNat_ofNat]
  omega

/-- A read of a register offset (R23). -/
theorem readValue_register {s : State} {off : Nat} {r : Reg} (h : regAt s.params.maxAddr off = some r) :
    s.readValue (.register off) = s.readReg r := by
  simp only [State.readValue, h]

/-! ### Little-endian words -/

theorem leWord_cons_toNat (b : Byte) (bs : List Byte) :
    (leWord (b :: bs)).toNat = 256 * (leWord bs).toNat % 2 ^ 64 + b.toNat := by
  rw [leWord, BitVec.toNat_or, BitVec.toNat_shiftLeft, BitVec.toNat_setWidth, Nat.mod_eq_of_lt (a := b.toNat) (by omega)]
  have : (leWord bs).toNat <<< 8 % 2 ^ 64 = ((leWord bs).toNat % 2 ^ 56) <<< 8 := by
    simp only [Nat.shiftLeft_eq]
    omega
  rw [this, ← Nat.shiftLeft_add_eq_or_of_lt (by omega), Nat.shiftLeft_eq]
  omega

/-- R54: the value of eight bytes. -/
theorem leWord_eight (v0 v1 v2 v3 v4 v5 v6 v7 : Byte) : (leWord [v0, v1, v2, v3, v4, v5, v6, v7]).toNat =
    v0.toNat + v1.toNat * 2 ^ 8 + v2.toNat * 2 ^ 16 + v3.toNat * 2 ^ 24 + v4.toNat * 2 ^ 32 + v5.toNat * 2 ^ 40
      + v6.toNat * 2 ^ 48 + v7.toNat * 2 ^ 56 := by
  have : (leWord []).toNat = 0 := rfl
  simp only [leWord_cons_toNat]
  omega

/-- R54: a word is the value of its bytes. -/
theorem leWord_leByte (v : Word) : leWord ((List.range 8).map (leByte v)) = v := by
  apply BitVec.eq_of_toNat_eq
  show (leWord [leByte v 0, leByte v 1, leByte v 2, leByte v 3, leByte v 4, leByte v 5, leByte v 6, leByte v 7]).toNat = _
  rw [leWord_eight]
  simp only [leByte, BitVec.extractLsb'_toNat, Nat.shiftRight_eq_div_pow]
  have := v.isLt
  omega

/-! ### Writes to an idle block -/

/-- A write to a register offset of an idle block: the register's write, or nothing at a reserved offset (R52, R56). -/
theorem hostWrite_register {s : State} {v : Word} {off : Nat} (h : s.pend = none) :
    s.hostWrite v (.register off) =
      match regAt s.params.maxAddr off with
      | some r => s.writeReg v r
      | none => s := by
  simp only [State.hostWrite, State.isStatus, State.busy, h, State.writeIdle]
  match hr : regAt s.params.maxAddr off with
  | none => simp
  | some r =>
    by_cases hs : r = .status
    · subst hs
      simp [State.writeReg]
    · have : (some r == some Reg.status) = false := by simp [hs]
      simp [this]

/-- A write to the buffers of an idle block. -/
theorem hostWrite_buffer {s : State} {v : Word} {a n : Nat} (h : s.pend = none) :
    s.hostWrite v (.buffer a n) = s.bufWriteAll a ((List.range n).map (leByte v)) := by
  simp [State.hostWrite, State.isStatus, State.busy, h, State.writeIdle]

/-- A byte write changes the memory only. -/
theorem bufWrite_eq (s : State) (a : Nat) (x : Byte) : s.bufWrite a x = { s with mem := (s.bufWrite a x).mem } := by
  unfold State.bufWrite
  split <;> rfl

/-- A byte write: to its offset if that is a buffer byte, to nothing otherwise (R52). -/
theorem find_bufWrite (s : State) (a b : Nat) (x : Byte) : (s.bufWrite a x).mem.find b =
    if b = a ∧ inBuffer s.params a = true then some x else s.mem.find b := by
  unfold State.bufWrite
  by_cases h : inBuffer s.params a = true
  · simp only [h, if_true]
    by_cases hb : b = a
    · subst hb
      simp
    · simp [hb, find_write_ne]
  · simp [h]

theorem bufWriteAll_eq (s : State) (a : Nat) (xs : List Byte) :
    s.bufWriteAll a xs = { s with mem := (s.bufWriteAll a xs).mem } := by
  induction xs generalizing s a with
  | nil => rfl
  | cons x xs ih => rw [State.bufWriteAll, ih, bufWrite_eq]

/-- Consecutive byte writes, byte by byte. -/
theorem find_bufWriteAll (s : State) (a b : Nat) (xs : List Byte) : (s.bufWriteAll a xs).mem.find b =
    if h : a ≤ b ∧ b < a + xs.length ∧ inBuffer s.params b = true then some (xs[b - a]'(by omega))
    else s.mem.find b := by
  induction xs generalizing s a with
  | nil =>
    rw [dif_neg (by simp; omega)]
    rfl
  | cons x xs ih =>
    have hp : (s.bufWrite a x).params = s.params := by rw [bufWrite_eq]
    rw [State.bufWriteAll, ih, find_bufWrite]
    simp only [hp, List.length_cons]
    by_cases hb : b = a
    · subst hb
      by_cases hi : inBuffer s.params b = true <;> simp [hi]
    · by_cases hr : a ≤ b ∧ b < a + (xs.length + 1) ∧ inBuffer s.params b = true
      · rw [dif_pos ⟨by omega, by omega, hr.2.2⟩, dif_pos hr]
        simp only [Option.some.injEq]
        rw [List.getElem_cons, dif_neg (by omega)]
        congr 1
      · rw [dif_neg (fun hh => hr ⟨by omega, by omega, hh.2.2⟩), dif_neg hr, if_neg (by tauto)]

/-- A buffer write of an idle block changes the memory only (R56). -/
theorem hostWrite_buffer_eq {s : State} {v : Word} {a n : Nat} (h : s.pend = none) :
    s.hostWrite v (.buffer a n) = { s with mem := (s.hostWrite v (.buffer a n)).mem } := by
  rw [hostWrite_buffer h, bufWriteAll_eq]

/-- What a buffer byte reads as after a buffer write of an idle block: the byte of the value if it is one of the bytes
written to (R51, R54), else what it was. -/
theorem readByte_hostWrite_buffer {s : State} {v : Word} {a n : Nat} (h : s.pend = none) (b : Nat) :
    (s.hostWrite v (.buffer a n)).readByte b =
      if a ≤ b ∧ b < a + n ∧ inBuffer s.params b = true then leByte v (b - a) else s.readByte b := by
  rw [hostWrite_buffer h, bufWriteAll_eq, State.readByte, find_bufWriteAll]
  by_cases hb : a ≤ b ∧ b < a + n ∧ inBuffer s.params b = true
  · rw [dif_pos (by simpa using hb), if_pos hb]
    simp
  · rw [dif_neg (by simpa using hb), if_neg hb]
    rfl

/-- An 8-bit read of a buffer is its byte. -/
theorem readValue_byte_toNat (s : State) (a : Nat) : (s.readValue (.buffer a 1)).toNat = (s.bufRead a).toNat := by
  show (leWord [s.bufRead (a + 0)]).toNat = _
  rw [leWord_cons_toNat, show (leWord []).toNat = 0 from rfl, Nat.add_zero]
  omega

/-- A 64-bit read of a buffer is eight byte reads (R51). -/
theorem readValue_word_byte (s : State) (a k : Nat) (hk : k < 8) :
    (s.readValue (.buffer a 8)).toNat / 2 ^ (8 * k) % 2 ^ 8 = (s.bufRead (a + k)).toNat := by
  show (leWord [s.bufRead (a + 0), s.bufRead (a + 1), s.bufRead (a + 2), s.bufRead (a + 3), s.bufRead (a + 4),
    s.bufRead (a + 5), s.bufRead (a + 6), s.bufRead (a + 7)]).toNat / _ % _ = _
  rw [leWord_eight]
  interval_cases k <;> omega

/-! ### The one form of memory -/

/-- A buffer write keeps the one form of memory, and stores buffer bytes only (R50, R52). -/
theorem bufWrite_keeps {s : State} (h : s.mem.wf ∧ ∀ c ∈ s.mem, inBuffer s.params c.1 = true) (a : Nat) (x : Byte) :
    (s.bufWrite a x).mem.wf ∧ ∀ c ∈ (s.bufWrite a x).mem, inBuffer s.params c.1 = true := by
  unfold State.bufWrite
  split
  · rename_i hb
    refine ⟨wf_write h.1 _ _, fun c hc => ?_⟩
    rcases mem_write hc with rfl | hc
    · exact hb
    · exact h.2 c hc
  · exact h

end Sys2Proof.Laws
end

