-- ==== Sys2Proof/Laws/PerInstr.lean ====
section
/-! SUPPORT. A fact about the encoding of each command, one lemma per constructor of Instr. -/

namespace Sys2Proof.Laws

/-- R70, R71: the word of the command carries its OP and its W, its RES is 0, and OP names the command. -/
def EncodeFields.Statement (i : Instr) : Prop :=
  opField (encode i) = i.opcode ∧ wField (encode i) = i.width ∧ resField (encode i) = 0
    ∧ commandOf i.opcode i.width = some i

theorem EncodeFields.nop : EncodeFields.Statement .nop := by
  unfold EncodeFields.Statement
  decide

theorem EncodeFields.b91Enc (w : BitVec 3) : EncodeFields.Statement (.b91Enc w) := by
  unfold EncodeFields.Statement
  revert w
  decide

theorem EncodeFields.b91Dec (w : BitVec 3) : EncodeFields.Statement (.b91Dec w) := by
  unfold EncodeFields.Statement
  revert w
  decide

theorem EncodeFields.latPre : EncodeFields.Statement .latPre := by
  unfold EncodeFields.Statement
  decide

theorem EncodeFields.lonPre : EncodeFields.Statement .lonPre := by
  unfold EncodeFields.Statement
  decide

theorem EncodeFields.latDec : EncodeFields.Statement .latDec := by
  unfold EncodeFields.Statement
  decide

theorem EncodeFields.lonDec : EncodeFields.Statement .lonDec := by
  unfold EncodeFields.Statement
  decide

theorem EncodeFields.altEnc : EncodeFields.Statement .altEnc := by
  unfold EncodeFields.Statement
  decide

theorem EncodeFields.altDec : EncodeFields.Statement .altDec := by
  unfold EncodeFields.Statement
  decide

theorem EncodeFields.csDec : EncodeFields.Statement .csDec := by
  unfold EncodeFields.Statement
  decide

theorem EncodeFields.rngDec : EncodeFields.Statement .rngDec := by
  unfold EncodeFields.Statement
  decide

theorem EncodeFields.dmmEncLat : EncodeFields.Statement .dmmEncLat := by
  unfold EncodeFields.Statement
  decide

theorem EncodeFields.dmmEncLon : EncodeFields.Statement .dmmEncLon := by
  unfold EncodeFields.Statement
  decide

theorem EncodeFields.dmmDecLat : EncodeFields.Statement .dmmDecLat := by
  unfold EncodeFields.Statement
  decide

theorem EncodeFields.dmmDecLon : EncodeFields.Statement .dmmDecLon := by
  unfold EncodeFields.Statement
  decide

theorem EncodeFields.aprsClass : EncodeFields.Statement .aprsClass := by
  unfold EncodeFields.Statement
  decide

theorem EncodeFields.aprsEncU : EncodeFields.Statement .aprsEncU := by
  unfold EncodeFields.Statement
  decide

theorem EncodeFields.aprsEncC : EncodeFields.Statement .aprsEncC := by
  unfold EncodeFields.Statement
  decide

theorem EncodeFields.aprsDecU : EncodeFields.Statement .aprsDecU := by
  unfold EncodeFields.Statement
  decide

theorem EncodeFields.aprsDecT : EncodeFields.Statement .aprsDecT := by
  unfold EncodeFields.Statement
  decide

theorem EncodeFields.aprsDecC : EncodeFields.Statement .aprsDecC := by
  unfold EncodeFields.Statement
  decide

theorem EncodeFields.ax25EncA : EncodeFields.Statement .ax25EncA := by
  unfold EncodeFields.Statement
  decide

theorem EncodeFields.ax25DecA : EncodeFields.Statement .ax25DecA := by
  unfold EncodeFields.Statement
  decide

theorem EncodeFields.ax25EncF : EncodeFields.Statement .ax25EncF := by
  unfold EncodeFields.Statement
  decide

theorem EncodeFields.ax25DecF : EncodeFields.Statement .ax25DecF := by
  unfold EncodeFields.Statement
  decide

end Sys2Proof.Laws
end

