-- ==== Sys2Proof/Laws/RoundTrip.lean ====
section
/-! SUPPORT. What the round trips of the spec rest on: a window that holds the output of a command, and the digits and
decimal texts in it. -/

namespace Sys2Proof.Laws

open Sys2Proof.Machine

/-- A command that ends by outputting bytes that fit OBUF (R92). -/
theorem complete_emit {s : State} (bs : List Byte) (n : Nat) (hn : bs.length = n) (h : n ≤ s.params.obufSize) :
    ∃ t, complete s (emit s bs) = .next t ∧ t = { s.completed with mem := t.mem, olen := t.olen } ∧
      Wrote s t bs ∧ t.olen = BitVec.ofNat 64 n := by
  subst hn
  rw [emit_ok h]
  exact ⟨_, rfl, rfl, wrote_writeBytes bs rfl rfl rfl, rfl⟩

/-- A window that holds the output of a command holds the bytes it wrote (the round trips of R116, R139, R163, R204). -/
theorem window_of_output {s t u : State} {bs : List Byte} (hw : Wrote s t bs) (hb : bs.length < 2 ^ 64)
    (hl : u.ilen = t.olen) (hk : ∀ k < t.olen.toNat, u.inByte k = t.readByte (obufBase + k)) :
    u.ilen.toNat = bs.length ∧ ∀ k, (h : k < bs.length) → u.inByte k = bs[k] := by
  have ho : t.olen.toNat = bs.length := by
    rw [hw.1, BitVec.toNat_ofNat]
    omega
  refine ⟨by rw [hl, ho], fun k h => ?_⟩
  rw [hk k (by omega), hw.2.1 k h]

/-- R101: a window that holds the `n`-digit text of a code point below 91^n is valid digits with that code point. -/
theorem codePoint_of_text {u : State} {v n i : Nat} (hv : v < 91 ^ n)
    (h : ∀ k < n, u.inByte (i + k) = BitVec.ofNat 8 (33 + v / 91 ^ (n - 1 - k) % 91)) :
    (∀ k < n, u.b91At (i + k)) ∧ u.codePoint i n = v := by
  have hb : ∀ k < n, (u.inByte (i + k)).toNat = 33 + v / 91 ^ (n - 1 - k) % 91 := fun k hk => by
    rw [h k hk, BitVec.toNat_ofNat]
    have := Nat.mod_lt (v / 91 ^ (n - 1 - k)) (show 0 < 91 by omega)
    omega
  have hval : ∀ m j, j + m = n → u.codePoint (i + j) m = v % 91 ^ m := by
    intro m
    induction m with
    | zero => intro j _; simp [Nat.mod_one]
    | succ m ih =>
      intro j hj
      have := ih (j + 1) (by omega)
      rw [codePoint_succ, show i + j + 1 = i + (j + 1) by omega, this, State.b91Value, hb j (by omega),
        show n - 1 - j = m by omega, Nat.mod_pow_succ]
      rw [show 33 + v / 91 ^ m % 91 - 33 = v / 91 ^ m % 91 by omega]
      ring
  refine ⟨fun k hk => ?_, ?_⟩
  · rw [State.b91At, hb k hk]
    have := Nat.mod_lt (v / 91 ^ (n - 1 - k)) (show 0 < 91 by omega)
    omega
  · have := hval n 0 (by omega)
    rwa [Nat.mod_eq_of_lt hv] at this

/-- A window that holds the decimal text of `n` holds DIGITs with these values (R12). -/
theorem digit_of_text {u : State} {n w i : Nat}
    (h : ∀ k < w, u.inByte (i + k) = BitVec.ofNat 8 (0x30 + n / 10 ^ (w - 1 - k) % 10)) :
    ∀ k < w, u.digitAt (i + k) ∧ u.decimal (i + k) = n / 10 ^ (w - 1 - k) % 10 := by
  intro k hk
  have hb : (u.inByte (i + k)).toNat = 0x30 + n / 10 ^ (w - 1 - k) % 10 := by
    rw [h k hk, BitVec.toNat_ofNat]
    have := Nat.mod_lt (n / 10 ^ (w - 1 - k)) (show 0 < 10 by omega)
    omega
  have := Nat.mod_lt (n / 10 ^ (w - 1 - k)) (show 0 < 10 by omega)
  rw [State.digitAt, State.decimal, hb]
  omega

end Sys2Proof.Laws
end

