-- ==== Sys2Proof/Tests/Slice0.lean ====
section
/-! SUPPORT. Tests of the model, and for every statement with hypotheses a state that meets them. Expected results are
the spec's: its rules, or the vectors of 95_test_vectors.md named beside each test. -/

namespace Sys2Proof.Tests

open Sys2Proof Sys2Proof.Machine

set_option Elab.async false

/-! ### WellFormed: the widths R72 refuses -/

theorem test_width_0_is_ill_formed : (Instr.b91Enc 0).wf = false ∧ (Instr.b91Dec 0).wf = false := by decide

theorem test_width_3_is_ill_formed : (Instr.b91Enc 3).wf = false ∧ (Instr.b91Dec 3).wf = false := by decide

theorem test_width_5_is_ill_formed : (Instr.b91Enc 5).wf = false ∧ (Instr.b91Dec 5).wf = false := by decide

theorem test_width_6_is_ill_formed : (Instr.b91Enc 6).wf = false ∧ (Instr.b91Dec 6).wf = false := by decide

theorem test_width_7_is_ill_formed : (Instr.b91Enc 7).wf = false ∧ (Instr.b91Dec 7).wf = false := by decide

theorem test_widths_1_2_4_are_well_formed : [1, 2, 4].all (fun w => (Instr.b91Enc w).wf && (Instr.b91Dec w).wf) = true := by
  decide

/-! ### Decode: each word written out from R70 and R71, OP in bits [7:0] and W in bits [10:8] -/

theorem test_decode_nop : decode 0x0000 = .ok (.nop) ∧ decodeTableWord 64 0x0000 = some (.nop) := by decide

theorem test_decode_b91Enc : decode 0x0410 = .ok (.b91Enc 4) ∧ decodeTableWord 64 0x0410 = some (.b91Enc 4) := by decide

theorem test_decode_b91Dec : decode 0x0211 = .ok (.b91Dec 2) ∧ decodeTableWord 64 0x0211 = some (.b91Dec 2) := by decide

theorem test_decode_latPre : decode 0x0012 = .ok (.latPre) ∧ decodeTableWord 64 0x0012 = some (.latPre) := by decide

theorem test_decode_lonPre : decode 0x0013 = .ok (.lonPre) ∧ decodeTableWord 64 0x0013 = some (.lonPre) := by decide

theorem test_decode_latDec : decode 0x0014 = .ok (.latDec) ∧ decodeTableWord 64 0x0014 = some (.latDec) := by decide

theorem test_decode_lonDec : decode 0x0015 = .ok (.lonDec) ∧ decodeTableWord 64 0x0015 = some (.lonDec) := by decide

theorem test_decode_altEnc : decode 0x0016 = .ok (.altEnc) ∧ decodeTableWord 64 0x0016 = some (.altEnc) := by decide

theorem test_decode_altDec : decode 0x0017 = .ok (.altDec) ∧ decodeTableWord 64 0x0017 = some (.altDec) := by decide

theorem test_decode_csDec : decode 0x0018 = .ok (.csDec) ∧ decodeTableWord 64 0x0018 = some (.csDec) := by decide

theorem test_decode_rngDec : decode 0x0019 = .ok (.rngDec) ∧ decodeTableWord 64 0x0019 = some (.rngDec) := by decide

theorem test_decode_dmmEncLat : decode 0x0020 = .ok (.dmmEncLat) ∧ decodeTableWord 64 0x0020 = some (.dmmEncLat) := by decide

theorem test_decode_dmmEncLon : decode 0x0021 = .ok (.dmmEncLon) ∧ decodeTableWord 64 0x0021 = some (.dmmEncLon) := by decide

theorem test_decode_dmmDecLat : decode 0x0022 = .ok (.dmmDecLat) ∧ decodeTableWord 64 0x0022 = some (.dmmDecLat) := by decide

theorem test_decode_dmmDecLon : decode 0x0023 = .ok (.dmmDecLon) ∧ decodeTableWord 64 0x0023 = some (.dmmDecLon) := by decide

theorem test_decode_aprsClass : decode 0x0030 = .ok (.aprsClass) ∧ decodeTableWord 64 0x0030 = some (.aprsClass) := by decide

theorem test_decode_aprsEncU : decode 0x0031 = .ok (.aprsEncU) ∧ decodeTableWord 64 0x0031 = some (.aprsEncU) := by decide

theorem test_decode_aprsEncC : decode 0x0032 = .ok (.aprsEncC) ∧ decodeTableWord 64 0x0032 = some (.aprsEncC) := by decide

theorem test_decode_aprsDecU : decode 0x0033 = .ok (.aprsDecU) ∧ decodeTableWord 64 0x0033 = some (.aprsDecU) := by decide

theorem test_decode_aprsDecT : decode 0x0034 = .ok (.aprsDecT) ∧ decodeTableWord 64 0x0034 = some (.aprsDecT) := by decide

theorem test_decode_aprsDecC : decode 0x0035 = .ok (.aprsDecC) ∧ decodeTableWord 64 0x0035 = some (.aprsDecC) := by decide

theorem test_decode_ax25EncA : decode 0x0040 = .ok (.ax25EncA) ∧ decodeTableWord 64 0x0040 = some (.ax25EncA) := by decide

theorem test_decode_ax25DecA : decode 0x0041 = .ok (.ax25DecA) ∧ decodeTableWord 64 0x0041 = some (.ax25DecA) := by decide

theorem test_decode_ax25EncF : decode 0x0042 = .ok (.ax25EncF) ∧ decodeTableWord 64 0x0042 = some (.ax25EncF) := by decide

theorem test_decode_ax25DecF : decode 0x0043 = .ok (.ax25DecF) ∧ decodeTableWord 64 0x0043 = some (.ax25DecF) := by decide

/-- R70 bit by bit: RES 53 zeros, W = 100, OP = 0001 0000. -/
theorem test_decode_bits :
    decode (0#53 ++ 0b100#3 ++ 0b00010000#8 : BitVec (53 + 3 + 8)) = .ok (.b91Enc 4) := by decide

/-- 60_exceptions.md R245 and L2-CMD: illegal words and their fields. -/
theorem test_decode_illegal :
    decode 0x0100 = .error (.width 0x00 1) ∧ decode 0x0310 = .error (.width 0x10 3)
      ∧ decode 0x0010 = .error (.width 0x10 0) ∧ decode 0x0810 = .error .reserved
      ∧ decode 0x0001 = .error (.opcode 0x01) ∧ decode 0x00FF = .error (.opcode 0xFF)
      ∧ decode 0x0112 = .error (.width 0x12 1) ∧ decode 0xFFFFFFFFFFFFFFFF = .error .reserved := by decide

/-! ### Helpers -/

/-- ASCII bytes of a text. -/
def ascii (s : String) : List Byte := s.toList.map fun c => BitVec.ofNat 8 c.toNat

/-- After reset, with the bytes in IBUF[0..), the window on them, and NOW sampled as 0x1234 (the vectors' convention). -/
def window (bs : List Byte) : State :=
  { State.reset with ilen := BitVec.ofNat 64 bs.length, mem := Memory.writeBytes [] ibufBase bs, nowS := 0x1234 }

/-- After reset, with a position. -/
def position (lat lon alt : Int) : State :=
  { State.reset with
    point := { Point.zero with lat := BitVec.ofInt 64 lat, lon := BitVec.ofInt 64 lon, alt := BitVec.ofInt 64 alt }
    sym := { table := 0x2F, code := 0x4F } }

/-- An entry of the address table, the callsign byte k in bits [8k+7:8k]. -/
def station (call : List Byte) (clen ssid : Byte) (ch last : Bool) : AddrEntry :=
  { call := BitVec.ofNat 48 (call.foldr (fun b a => a * 256 + b.toNat) 0)
    info := { clen := clen, ssid := ssid, ch := ch, last := last, rsv := 0 } }

/-- After reset, with NADDR and the first entries of the table. -/
def stations (n : BitVec 8) (es : List AddrEntry) : State :=
  { State.reset with naddr := n, addrs := es ++ State.reset.addrs.drop es.length }

/-- A command ends in a next state with a property. -/
def ends (i : Instr) (s : State) (p : State → Bool) : Bool :=
  match exec i s with
  | .next t => p t
  | .fault _ => false
  | .refused _ => false

/-- A step ends in a next state with a property. -/
def steps (s : State) (p : State → Bool) : Bool :=
  match step s with
  | .next t => p t
  | .fault _ => false
  | .refused _ => false

theorem exec_of_ends {i : Instr} {s : State} {p : State → Bool} (h : ends i s p = true) :
    ∃ t, exec i s = .next t ∧ p t = true := by
  unfold ends at h
  split at h
  · exact ⟨_, ‹_›, h⟩
  · cases h
  · cases h

/-- The bytes a command has output. -/
def output (t : State) : List (Option Byte) := (List.range t.olen.toNat).map fun k => t.mem.find (obufBase + k)

/-- The output is `bs`. -/
def wrote (bs : List Byte) (t : State) : Bool := output t == bs.map some && t.statusWord == 2

/-- F37, the frame of program P1. -/
def frame37 : List Byte :=
  [0x82, 0xA0, 0xA4, 0xA6, 0x40, 0x40, 0x60, 0x9C, 0xAE, 0x6A, 0xAE, 0x40, 0x40, 0x6E, 0xAE, 0x92, 0x88, 0x8A, 0x64,
    0x40, 0x65, 0x03, 0xF0, 0x21, 0x2F, 0x3C, 0x40, 0x57, 0x58, 0x3A, 0x4E, 0x60, 0x61, 0x4F, 0x46, 0x7B, 0x53]

/-- The stations of program P1. -/
def threeStations : List AddrEntry :=
  [station (ascii "APRS") 4 0 false false, station (ascii "NW5W") 4 7 false false,
    station (ascii "WIDE2") 5 2 false true]

/-! ### Commands: vectors of 95_test_vectors.md -/

/-- R90, R87: STATUS is DONE and the OVR it had. -/
theorem test_nop_keeps_ovr : ends .nop { State.reset with status := { Status.zero with ovr := true }, val := 5 } (fun t => t.statusWord == 0xA && t.val == 5) = true := by
  decide +kernel

/-- L1-1. -/
theorem test_b91Enc_4 : ends (.b91Enc 4) { State.reset with val := 15427503 } (wrote (ascii "5L!!")) = true := by
  decide +kernel

/-- L2-B91: 91^2 is one too many. -/
theorem test_b91Enc_2_limit : ends (.b91Enc 2) { State.reset with val := 8281 } (fun t => t.statusWord == 0x60102 && t.olen == 0) = true := by
  decide +kernel

/-- L2-B91. -/
theorem test_b91Dec_2 : ends (.b91Dec 2) (window (ascii "S]")) (fun t => t.statusWord == 2 && t.val == 4610) = true := by
  decide +kernel

/-- L2-B91: InvalidDigit(VALUE, 0x7C, 3). -/
theorem test_b91Dec_4_invalid : ends (.b91Dec 4) (window (ascii "!!!" ++ [0x7C])) (fun t => t.statusWord == 0x37C060302 && t.val == 0) = true := by
  decide +kernel

/-- L2-PRE. -/
theorem test_latPre : ends .latPre (position 359000000 0 0) (fun t => t.statusWord == 2 && t.val == 20608097) = true := by
  decide +kernel

/-- L2-PRE and L1-6: 90 degrees are accepted, one unit more is not. -/
theorem test_latPre_limit : ends .latPre (position 900000001 0 0) (fun t => t.statusWord == 0x10102) = true
    ∧ ends .latPre (position (-900000000) 0 0) (fun t => t.val == 68566680) = true := by
  decide +kernel

/-- L2-PRE. -/
theorem test_lonPre : ends .lonPre (position 0 (-791000000) 0) (fun t => t.statusWord == 2 && t.val == 19217717) = true := by
  decide +kernel

/-- L2-PRE. -/
theorem test_lonPre_limit : ends .lonPre (position 0 (-1800000001) 0) (fun t => t.statusWord == 0x20102) = true
    ∧ ends .lonPre (position 0 1800000000 0) (fun t => t.val == 68566680) = true := by
  decide +kernel

/-- L2-PRE. -/
theorem test_latDec : ends .latDec (window (ascii "<@WX")) (fun t => t.val == 20608097 && t.point.lat.toInt == 358999989) = true := by
  decide +kernel

/-- L2-PRE: the range is not validated. -/
theorem test_latDec_outside : ends .latDec (window ([0x7B] ++ [0x7B] ++ [0x7B] ++ [0x7B])) (fun t => t.statusWord == 2 && t.point.lat.toInt == -900217365) = true := by
  decide +kernel

/-- L2-PRE. -/
theorem test_lonDec : ends .lonDec (window (ascii "<@WX")) (fun t => t.val == 20608097 && t.point.lon.toInt == -717999979) = true := by
  decide +kernel

/-- L2-PRE. -/
theorem test_lonDec_invalid : ends .lonDec (window (ascii " !!!")) (fun t => t.statusWord == 0x20020302) = true := by
  decide +kernel

/-- L2-ALT. -/
theorem test_altEnc : ends .altEnc (position 0 0 1532) (fun t => t.val == 214 && wrote (ascii "#A") t) = true := by
  decide +kernel

/-- L2-ALT: the last threshold, saturation, and altitudes below 0. -/
theorem test_altEnc_limits : ends .altEnc (position 0 0 15286230985) (fun t => t.val == 8279) = true
    ∧ ends .altEnc (position 0 0 15286230986) (fun t => t.val == 8280 && wrote [0x7B, 0x7B] t) = true
    ∧ ends .altEnc (position 0 0 (-5)) (fun t => t.val == 0 && wrote (ascii "!!") t) = true := by
  decide +kernel

/-- L2-ALT. -/
theorem test_altDec : ends .altDec (window (ascii "S]")) (fun t => t.val == 4610 && t.point.alt == 10004520) = true := by
  decide +kernel

/-- L2-ALT. -/
theorem test_altDec_highest : ends .altDec (window ([0x7B] ++ [0x7B])) (fun t => t.val == 8280 && t.point.alt == 15301509581) = true := by
  decide +kernel

/-- L2-ALT. -/
theorem test_csDec : ends .csDec (window (ascii "7P")) (fun t => t.val == 2049 && t.point.course == 88 && t.point.speed == 36232) = true := by
  decide +kernel

/-- L2-ALT. -/
theorem test_csDec_second_invalid : ends .csDec (window (ascii "! ")) (fun t => t.statusWord == 0x120040302 && t.point.course == 0) = true := by
  decide +kernel

/-- L2-ALT. -/
theorem test_rngDec : ends .rngDec (window (ascii "?")) (fun t => t.val == 30 && t.point.range == 20125) = true := by
  decide +kernel

/-- L2-CMD: InputLength(WINDOW, 0, 2). -/
theorem test_rngDec_length : ends .rngDec (window (ascii "!!")) (fun t => t.statusWord == 0x200300902) = true := by
  decide +kernel

/-- L2-DMM: no carry into degrees. -/
theorem test_dmmEncLat_sixty : ends .dmmEncLat (position 359999167 0 0) (wrote (ascii "3560.00N")) = true := by
  decide +kernel

/-- L2-DMM. -/
theorem test_dmmEncLat_minus : ends .dmmEncLat (position (-1) 0 0) (wrote (ascii "0000.00S")) = true := by
  decide +kernel

/-- L2-DMM. -/
theorem test_dmmEncLon : ends .dmmEncLon (position 0 (-720291667) 0) (wrote (ascii "07201.75W")) = true := by
  decide +kernel

/-- L2-DMM. -/
theorem test_dmmEncLon_east : ends .dmmEncLon (position 0 1234567 0) (wrote (ascii "00007.41E")) = true := by
  decide +kernel

/-- L2-DMM: a lower-case hemisphere. -/
theorem test_dmmDecLat_south : ends .dmmDecLat (window (ascii "4903.50s")) (fun t => t.statusWord == 2 && t.point.lat.toInt == -490583333) = true := by
  decide +kernel

/-- L2-DMM: DecodeFieldError(LAT_MIN, 0x2C, 4). -/
theorem test_dmmDecLat_point : ends .dmmDecLat (window (ascii "3554,00N")) (fun t => t.statusWord == 0x42C110202 && t.point.lat == 0) = true := by
  decide +kernel

/-- L2-DMM: the range is not validated. -/
theorem test_dmmDecLon_outside : ends .dmmDecLon (window (ascii "99999.99E")) (fun t => t.statusWord == 2 && t.point.lon == 10006665000) = true := by
  decide +kernel

/-- L2-DMM. -/
theorem test_dmmDecLon_hemisphere : ends .dmmDecLon (window (ascii "07906.00Q")) (fun t => t.statusWord == 0x851150202) = true := by
  decide +kernel

/-- L1-9. -/
theorem test_aprsClass_compressed : ends .aprsClass (window (ascii "=/5L")) (fun t => t.statusWord == 2 && t.val == 5) = true := by
  decide +kernel

/-- L2-APRS. -/
theorem test_aprsClass_short : ends .aprsClass (window (ascii "@")) (fun t => t.val == 7) = true ∧ ends .aprsClass (window (ascii "!")) (fun t => t.val == 0) = true := by
  decide +kernel

/-- L1-3. -/
theorem test_aprsEncU : ends .aprsEncU (position 359000000 (-791000000) 1000000) (wrote (ascii "!3554.00N/07906.00WO")) = true := by
  decide +kernel

/-- L2-APRS. -/
theorem test_aprsEncU_latitude_first : ends .aprsEncU (position 910000000 1900000000 0) (fun t => t.statusWord == 0x10102 && t.olen == 0) = true := by
  decide +kernel

/-- L1-4. -/
theorem test_aprsEncC : ends .aprsEncC (position 495000000 (-727500000) 10004520) (wrote (ascii "!/5L!!<*e8OS]S")) = true := by
  decide +kernel

/-- L2-APRS. -/
theorem test_aprsEncC_south_pole : ends .aprsEncC (position (-900000000) (-1800000000) (-5)) (wrote (ascii "!/" ++ [0x7B, 0x7B] ++ ascii "!!!!!!O!!S")) = true := by
  decide +kernel

/-- L2-APRS. -/
theorem test_aprsDecU : ends .aprsDecU (window (ascii "!4903.50s" ++ [0x5C] ++ ascii "07201.75e>")) (fun t =>
      t.statusWord == 6 && t.point.lat.toInt == -490583333 && t.point.lon == 720291667 && t.sym.word == 0x3E5C
        && t.point.flags.word == 2 && t.point.time == 4660) = true := by
  decide +kernel

/-- L2-APRS: DecodeFieldError(LON_MIN, 0x41, 13). -/
theorem test_aprsDecU_malformed : ends .aprsDecU (window (ascii "!3554.00N/079A6.00WO")) (fun t =>
      t.statusWord == 0xD41130206 && t.point == Point.zero && t.sym.word == 0x4F2F && t.remOff == 20 && t.remLen == 0) = true := by
  decide +kernel

/-- L2-APRS. -/
theorem test_aprsDecT : ends .aprsDecT (window (ascii "/234517h4903.50N/07201.75W>Test")) (fun t =>
      t.statusWord == 6 && t.point.lat == 490583333 && t.point.lon.toInt == -720291667 && t.point.flags.word == 8
        && t.point.time == 1518865 && t.remOff == 27 && t.remLen == 4) = true := by
  decide +kernel

/-- L2-APRS: no match. -/
theorem test_aprsDecT_time_digit : ends .aprsDecT (window (ascii "/09234a/4903.50N/07201.75W>Test")) (fun t =>
      t.statusWord == 2 && t.point == Point.zero && t.sym.word == 0x2020 && t.remOff == 0 && t.remLen == 31) = true := by
  decide +kernel

/-- L1-4. -/
theorem test_aprsDecC : ends .aprsDecC (window (ascii "=/5L!!<*e7OS]S")) (fun t =>
      t.statusWord == 6 && t.point.lat == 495000000 && t.point.lon.toInt == -727500039 && t.point.alt == 10004520
        && t.point.flags.word == 0x13 && t.sym.word == 0x4F2F && t.point.time == 4660 && t.remOff == 14) = true := by
  decide +kernel

/-- L2-APRS, 90_conflicts.md C2. -/
theorem test_aprsDecC_extras : ends .aprsDecC (window (ascii "!/5L!!<*e7>" ++ [0x7B] ++ ascii "?!")) (fun t =>
      t.point.course == 360 && t.point.speed == 9063 && t.point.flags.word == 0x22) = true
    ∧ ends .aprsDecC (window (ascii "!/5L!!<*e7>" ++ [0x7B] ++ ascii "?" ++ [0x7B])) (fun t => t.point.range == 20125 && t.point.flags.word == 0x32) = true
    ∧ ends .aprsDecC (window (ascii "!/5L!!<*e7>" ++ [0x7C] ++ [0x7B] ++ [0x7B])) (fun t => t.statusWord == 6 && t.point.flags.word == 2) = true
    ∧ ends .aprsDecC (window (ascii "=/5L !<*e7OS]S")) (fun t => t.statusWord == 0x420010306 && t.sym.word == 0x4F2F) = true := by
  decide +kernel

/-- L2-AX25. -/
theorem test_ax25EncA : ends .ax25EncA (stations 0 [station (ascii "NW5W") 4 7 true true]) (wrote [0x9C, 0xAE, 0x6A, 0xAE, 0x40, 0x40, 0xEF]) = true := by
  decide +kernel

/-- L2-AX25: the length before the SSID; bit 7 is lost. -/
theorem test_ax25EncA_length_first : ends .ax25EncA (stations 0 [station [] 7 16 false false]) (fun t => t.statusWord == 0x7200402) = true
    ∧ ends .ax25EncA (stations 0 [station [0xFF, 0x80, 0x41, 0x42] 4 0 false false])
      (wrote [0xFE, 0x00, 0x82, 0x84, 0x40, 0x40, 0x60]) = true := by
  decide +kernel

/-- L2-AX25. -/
theorem test_ax25DecA : ends .ax25DecA (window [0x9C, 0xAE, 0x6A, 0xAE, 0x40, 0x40, 0xEF, 0x78, 0x79, 0x7A]) (fun t =>
      (t.entry 0).call == 0x20205735574E && (t.entry 0).info == { clen := 4, ssid := 7, ch := true, last := true, rsv := 3 }
        && t.remOff == 7 && t.remLen == 3) = true := by
  decide +kernel

/-- L2-AX25: only trailing spaces are trimmed. -/
theorem test_ax25DecA_inner_space : ends .ax25DecA (window [0x82, 0x84, 0x86, 0x88, 0x40, 0x8A, 0x00]) (fun t =>
      (t.entry 0).info == { clen := 6, ssid := 0, ch := false, last := false, rsv := 0 }) = true := by
  decide +kernel

/-- L2-AX25, program P1. -/
theorem test_ax25EncF : ends .ax25EncF { stations 3 threeStations with ilen := 14, mem := Memory.writeBytes [] ibufBase (frame37.drop 23) }
      (wrote frame37) = true := by
  decide +kernel

/-- L2-AX25. -/
theorem test_ax25EncF_lowest_entry : ends .ax25EncF (stations 3 [station (ascii "APRS") 4 0 false false, station [] 9 0 false false, station [] 0 99 false false])
      (fun t => t.statusWord == 0x109200402 && t.olen == 0) = true
    ∧ ends .ax25EncF (stations 11 threeStations) (fun t => t.statusWord == 0xB00320802) = true := by
  decide +kernel

/-- Program P2. -/
theorem test_ax25DecF : ends .ax25DecF (window frame37) (fun t =>
      t.statusWord == 2 && t.naddr == 3 && t.frameHdr.word == 0xF003 && t.remOff == 23 && t.remLen == 14
        && (t.entry 0).info.word == 0xC0004 && (t.entry 1).call == 0x20205735574E && (t.entry 1).info.word == 0xC0704
        && (t.entry 2).call == 0x203245444957 && (t.entry 2).info.word == 0xE0205) = true := by
  decide +kernel

/-- L2-AX25. -/
theorem test_ax25DecF_errors : ends .ax25DecF (window (frame37.take 22)) (fun t => t.statusWord == 0x300200602 && t.naddr == 0) = true
    ∧ ends .ax25DecF (window ((List.range 11).flatMap fun _ => frame37.take 7)) (fun t => t.statusWord == 0xA00320802) = true := by
  decide +kernel

/-! ### Steps and the host port -/

/-- R90, withFetchWord: the first step after reset runs a placed NOP and leaves STATUS = 0x2. -/
theorem test_step_runs_a_placed_word : steps (State.reset.withFetchWord 64 0) (fun t => t.statusWord == 2) = true := by
  decide +kernel

/-- L2-CMD: the STATUS of illegal words; VAL is unchanged. -/
theorem test_step_illegal_words :
    [(0x0100, 0x100000702), (0x0310, 0x310000702), (0x0810, 0x702), (0x001A, 0x1A000702), (0x0112, 0x112000702)].all
      (fun w => steps ({ State.reset with val := 5 }.withFetchWord 64 w.1) fun t => t.statusWord == w.2 && t.val == 5)
      = true := by
  decide +kernel

/-- L2-CMD: the window checks; B91.DEC 4 at IOFF = 508 reads the last four bytes of IBUF. -/
theorem test_window_edges :
    ends .aprsDecC { State.reset with ioff := 500, ilen := 13 } (fun t => t.statusWord == 0x300802) = true
      ∧ ends .aprsClass { State.reset with ioff := 512 } (fun t => t.statusWord == 2 && t.val == 0) = true
      ∧ ends .aprsClass { State.reset with ioff := 513 } (fun t => t.statusWord == 0x300802) = true
      ∧ ends (.b91Dec 4)
          { State.reset with ioff := 508, ilen := 4, mem := Memory.writeBytes [] (ibufBase + 508) [0, 0, 0, 0] }
          (fun t => t.statusWord == 0x60302) = true := by
  decide +kernel

/-- After reset, with one event of the host to come. -/
def hosted (e : HostEvent) : State := { State.reset with inputs := [e] }

/-- R23, R33, R41: a write to P_FLAGS keeps its fields and drops the reserved bits. -/
theorem test_write_drops_reserved_bits :
    steps (hosted (.write .b64 0x070 0xFFFFFFFFFFFFFFFF)) (fun t => t.point.flags.word == 0x3F) = true := by
  decide +kernel

/-- R38, R43: the last entry of the table at MAX_ADDR = 10, offset 0x0A0 + 0x10·9. -/
theorem test_write_last_entry :
    steps (hosted (.write .b64 0x130 0xFFFF5735574E0000)) (fun t => (t.entry 9).call == 0x5735574E0000) = true := by
  decide +kernel

/-- R85: a CMD write is accepted; BUSY reads 1, DONE and ERR read 0. -/
theorem test_cmd_write_is_accepted :
    steps { hosted (.write .b64 0x000 0x16) with status := { Status.zero with done := true, err := 3, ovr := true } }
      (fun t => t.pend == some 0x16 && t.cmd == 0x16 && t.statusWord == 9) = true := by
  decide +kernel

/-- A busy block with one event of the host to come before the engine step. -/
def busy (e : HostEvent) : State := { hosted e with pend := some 0x16, cmd := 0x16, delay := 1 }

/-- R86, program P6 run A: a write during BUSY is dropped and sets OVR. -/
theorem test_busy_write_is_dropped :
    steps (busy (.write .b64 0x050 5)) (fun t => t.point.alt == 0 && t.statusWord == 9 && t.pend == some 0x16) = true
      ∧ steps (busy (.write .b64 0x000 0)) (fun t => t.cmd == 0x16 && t.statusWord == 9) = true := by
  decide +kernel

/-- R25, R86: a write of 1 to STATUS bit 3 clears OVR also during BUSY; STATUS reads as it is. -/
theorem test_busy_status :
    steps { busy (.write .b64 0x008 8) with status := { Status.zero with ovr := true } }
        (fun t => t.statusWord == 1) = true
      ∧ steps (busy (.read .b64 0x008)) (fun t => t.replies == [1]) = true := by
  decide +kernel

/-- R53, U3: unsupported shapes and addresses. -/
theorem test_unsupported_accesses :
    step (hosted (.read .b8 0x008)) = .refused .unsupportedAccess
      ∧ step (hosted (.write .b64 0x1004 0)) = .refused .unsupportedAccess
      ∧ step (hosted (.read .b32 0x1000)) = .refused .unsupportedAccess
      ∧ step (hosted (.read .b64 0x3000)) = .refused .outsideBlockSpace :=
  ⟨rfl, rfl, rfl, rfl⟩

/-- R54, R55: the bytes of a 64-bit write. -/
theorem test_little_endian :
    steps (hosted (.write .b64 0x1000 0x0807060504030201)) (fun t => t.readByte 0x1000 == 1 && t.readByte 0x1007 == 8)
      = true := by
  decide +kernel

/-- R52: a reserved register offset reads 0; a buffer offset at IBUF_SIZE ignores a write. -/
theorem test_reserved_offsets :
    steps (hosted (.read .b64 0x140)) (fun t => t.replies == [0]) = true
      ∧ steps (hosted (.write .b8 0x1200 7)) (fun t => t.mem == []) = true := by
  decide +kernel

/-- R260: RST clears the registers and discards the pending command; an access while it is asserted is refused. -/
theorem test_reset_input :
    steps { busy (.rst true) with val := 7 } (fun t => t.rst && t.val == 0 && t.pend == none && t.cmd == 0) = true
      ∧ step { hosted (.read .b64 0) with rst := true } = .refused .accessDuringReset := by
  exact ⟨by decide +kernel, rfl⟩

/-! ### Witnesses: encoding, the command cycle, the host port -/

theorem witness_DecodeOfEncodeGivesCommand : (Instr.b91Enc 4).wf = true ∧ Instr.ax25DecF.wf = true := by decide

theorem witness_EncodeOfDecodeGivesWord : decode 0x0411 = .ok (.b91Dec 4) ∧ decode 0 = .ok .nop := by decide

/-- A block with a command pending and due. -/
def due (c : Word) : State := { State.reset with pend := some c, cmd := c }

theorem witness_StepExecutesPendingCommand :
    (due 0x16).rst = false ∧ (due 0x16).pend = some 0x16 ∧ (due 0x16).delay = 0 ∧ decode 0x16 = .ok .altEnc
      ∧ Instr.altEnc.wf = true := by
  decide

/-- A word for each clause: bit 11 set; the first and the last reserved OP; a Base91 width of 3 and of 0; NOP with W = 1. -/
theorem witness_IllegalWordWritesOnlyStatus :
    (due 0x800).rst = false ∧ (due 0x800).pend = some 0x800 ∧ (due 0x800).delay = 0
      ∧ (0x800#64).toNat / 2 ^ 11 ≠ 0
      ∧ (∀ c ∈ ([0x01, 0xFF] : List Nat), (BitVec.ofNat 64 c).toNat / 2 ^ 11 = 0
        ∧ ∃ r ∈ [(0x01, 0x0F), (0x1A, 0x1F), (0x24, 0x2F), (0x36, 0x3F), (0x44, 0xFF)],
            r.1 ≤ (BitVec.ofNat 64 c).toNat % 256 ∧ (BitVec.ofNat 64 c).toNat % 256 ≤ r.2)
      ∧ ∀ c ∈ ([0x310, 0x011, 0x100, 0x743] : List Nat),
          (BitVec.ofNat 64 c).toNat / 2 ^ 11 = 0
        ∧ (∀ r ∈ [(0x01, 0x0F), (0x1A, 0x1F), (0x24, 0x2F), (0x36, 0x3F), (0x44, 0xFF)],
            ¬ (r.1 ≤ (BitVec.ofNat 64 c).toNat % 256 ∧ (BitVec.ofNat 64 c).toNat % 256 ≤ r.2))
        ∧ if (BitVec.ofNat 64 c).toNat % 256 ∈ [0x10, 0x11] then (BitVec.ofNat 64 c).toNat / 256 ∉ [1, 2, 4]
          else (BitVec.ofNat 64 c).toNat / 256 ≠ 0 := by
  decide +kernel

theorem witness_IdleCmdWriteIsAccepted :
    (hosted (.write .b64 0 0x16)).rst = false ∧ (hosted (.write .b64 0 0x16)).pend = none
      ∧ (hosted (.write .b64 0 0x16)).inputs = .write .b64 (hosted (.write .b64 0 0x16)).params.base 0x16 :: [] := by
  decide

/-- An access of each kind: STATUS, CMD, another register, the last byte of the block space, a buffer word. -/
theorem witness_BusyAccessesAreDroppedOrRead :
    (due 0x16).pend = some 0x16 ∧ accessTarget (due 0x16) .b64 0x008 = .ok (.register 0x008)
      ∧ accessTarget (due 0x16) .b64 0x000 = .ok (.register 0x000)
      ∧ accessTarget (due 0x16) .b64 0x010 = .ok (.register 0x010)
      ∧ accessTarget (due 0x16) .b8 0x2FFF = .ok (.buffer 0x2FFF 1)
      ∧ accessTarget (due 0x16) .b64 0x1000 = .ok (.buffer 0x1000 8) :=
  ⟨rfl, rfl, rfl, rfl, rfl, rfl⟩

theorem witness_EveryAcceptedCommandCompletes :
    (busy (.write .b64 0x050 5)).rst = false ∧ (busy (.write .b64 0x050 5)).pend = some 0x16
      ∧ ∀ e ∈ (busy (.write .b64 0x050 5)).inputs, e.supported (busy (.write .b64 0x050 5)).params := by
  refine ⟨rfl, rfl, ?_⟩
  intro e he
  simp only [busy, hosted, List.mem_singleton] at he
  subst he
  exact ⟨by decide, by decide⟩

theorem witness_OnlyUnsupportedAccessesAreRefused :
    step { hosted (.read .b64 0) with rst := true } = .refused .accessDuringReset
      ∧ step (hosted (.read .b8 0)) = .refused .unsupportedAccess
      ∧ step (hosted (.read .b8 0x3000)) = .refused .outsideBlockSpace :=
  ⟨rfl, rfl, rfl⟩

/-- An error of a command that keeps nothing, a window error of a position decoder, an error of each matched one. -/
theorem witness_ErrorUndoesAllOtherWrites :
    (∃ t, exec .latPre (position 900000001 0 0) = .next t
        ∧ (decide ((position 900000001 0 0).status.err = 0) && decide (t.status.err ≠ 0)) = true)
      ∧ (∃ t, exec .aprsDecU { State.reset with ioff := 513 } = .next t
        ∧ (decide (State.reset.status.err = 0) && decide (t.status.err = 8)) = true)
      ∧ (∃ t, exec .aprsDecU (window (ascii "!35X4.00N/07906.00WO")) = .next t
        ∧ (decide (t.status.err ≠ 0) && decide (t.status.err ≠ 8)) = true)
      ∧ (∃ t, exec .aprsDecT (window (ascii "@999999z49 3.50N/07201.75W>Test")) = .next t
        ∧ (decide (t.status.err ≠ 0) && decide (t.status.err ≠ 8)) = true)
      ∧ ∃ t, exec .aprsDecC (window (ascii "=/5L !<*e7OS]S")) = .next t
        ∧ (decide (t.status.err ≠ 0) && decide (t.status.err ≠ 8)) = true :=
  ⟨exec_of_ends (by decide +kernel), exec_of_ends (by decide +kernel), exec_of_ends (by decide +kernel),
    exec_of_ends (by decide +kernel), exec_of_ends (by decide +kernel)⟩

/-- The window one byte past IBUF; the window that ends at IBUF_SIZE with one byte too many for each length; widths. -/
theorem witness_WindowThenLengthAreChecked :
    ¬ { State.reset with ioff := 509, ilen := 4 }.windowOk
      ∧ (∀ n ∈ [1, 2, 4, 8, 9], { State.reset with ioff := 502, ilen := 10 }.windowOk
        ∧ { State.reset with ioff := 502, ilen := 10 }.ilen.toNat ≠ n)
      ∧ ∀ w ∈ [1#3, 2#3, 4#3], widthLegal w = true := by
  unfold State.windowOk
  decide +kernel

theorem witness_ResetRegistersReadZero :
    regAt Params.reference.maxAddr 0x138 = some (.addrMeta 9) ∧ regAt Params.reference.maxAddr 0x008 = some .status := by
  decide

theorem witness_AssertingRstResetsTheBlock :
    ({ hosted (.rst true) with rst := true }.rst = true ∧ { hosted (.rst true) with rst := true }.inputs = [.rst true])
      ∧ (hosted (.rst true)).pend = none
      ∧ ((busy (.rst true)).delay ≠ 0 ∧ (busy (.rst true)).pend = some 0x16 ∧ (busy (.rst true)).inputs = [.rst true])
      ∧ (∀ level, (HostEvent.read .b64 0) ≠ .rst level)
      ∧ { hosted (.rst false) with rst := true }.inputs = [.rst false] := by
  refine ⟨⟨rfl, rfl⟩, rfl, ⟨by decide, rfl, rfl⟩, by simp, rfl⟩

/-- The last register of the list, an "R" register, and write events to STATUS and to the last byte of OBUF's region. -/
theorem witness_RegisterWriteKeepsFieldsOnly :
    State.reset.pend = none ∧ State.reset.addrs.length = State.reset.params.maxAddr
      ∧ (0x0A8 + 0x10 * 9, 0xFFFFF#64) ∈ (List.range State.reset.params.maxAddr).flatMap
          (fun i => [(0x0A0 + 0x10 * i, 0xFFFFFFFFFFFF#64), (0x0A8 + 0x10 * i, 0xFFFFF#64)])
      ∧ 0x020 ∈ [0x020, 0x028, 0x030, 0x090]
      ∧ accessTarget (hosted (.write .b64 0x008 8)) .b64 0x008 = .ok (.register 0x008)
      ∧ accessTarget (hosted (.write .b8 0x2FFF 8)) .b8 0x2FFF = .ok (.buffer 0x2FFF 1)
      ∧ ((hosted (.write .b64 0x008 8)).pend = none ∧ (hosted (.write .b64 0x008 8)).rst = false
        ∧ (hosted (.write .b64 0x008 8)).inputs = [.write .b64 0x008 8]) :=
  ⟨rfl, rfl, by decide, by decide, rfl, rfl, rfl, rfl, rfl⟩

theorem witness_IdleReadsHaveNoEffect :
    State.reset.pend = none ∧ accessTarget State.reset .b64 0x138 = .ok (.register 0x138)
      ∧ accessTarget State.reset .b8 0x1000 = .ok (.buffer 0x1000 1)
      ∧ regAt State.reset.params.maxAddr 0x138 = some (.addrMeta 9) ∧ 9 < State.reset.params.maxAddr :=
  ⟨rfl, rfl, rfl, rfl, by decide⟩

/-- The first bytes of IBUF, the last eight of OBUF, the last byte of IBUF, and a word of which a buffer of 33 bytes
holds the first byte only. -/
theorem witness_BufferAccessesAreLittleEndian :
    State.reset.pend = none ∧ (∀ k < 8, inBuffer State.reset.params (0x1000 + k) = true)
      ∧ (∀ k < 8, inBuffer State.reset.params (0x2000 + 504 + k) = true)
      ∧ inBuffer State.reset.params 0x11FF = true
      ∧ (inBuffer { Params.reference with ibufSize := 33 } (0x1020 + 0) = true
        ∧ inBuffer { Params.reference with ibufSize := 33 } (0x1020 + 1) = false) := by
  decide

/-- A register offset past the table, the byte at IBUF_SIZE, and the last byte of a word that ends there. -/
theorem witness_ReservedOffsetsReadZero :
    State.reset.pend = none ∧ regAt State.reset.params.maxAddr 0x140 = none
      ∧ inBuffer State.reset.params 0x1200 = false ∧ inBuffer State.reset.params (0x11F9 + 7) = false
      ∧ inBuffer State.reset.params (0x11F9 + 6) = true := by
  decide

/-- A block at BASE 0x4000, so that there is an address below it, and each refused shape at an edge. -/
theorem witness_UnsupportedAccessesAreRefused :
    { State.reset with params := { Params.reference with base := 0x4000 } }.rst = false
      ∧ 0x3FFF < 0x4000 ∧ 0x4000 + 0x3000 ≤ 0x7000 ∧ (0x4000 ≤ 0x6FFF ∧ 0x6FFF < 0x4000 + 0x3000)
      ∧ (0x4000 ≤ 0x4FFF ∧ 0x4FFF < 0x4000 + 0x1000) ∧ (0x6FFC - 0x4000) % 8 ≠ 0 := by
  decide

theorem witness_NopChangesOnlyStatus :
    ((0x100#64).toNat % 256 = 0 ∧ 0x100#64 ≠ 0) ∧ ((0x8000000000000000#64).toNat % 256 = 0)
      ∧ ∃ t, step { State.reset with pend := some 0 } = .next t ∧ regAt t.params.maxAddr 0x138 = some (.addrMeta 9) :=
  ⟨by decide, by decide, _, rfl, rfl⟩

/-! ### Witnesses: the Base91 commands -/

theorem witness_Base91EncodeWritesDigits :
    { State.reset with val := 90 }.params.valid ∧ widthLegal 1 = true ∧ (90#64).toNat ≤ 91 ^ (1#3).toNat - 1
      ∧ (91#64).toNat > 91 ^ (1#3).toNat - 1 ∧ widthLegal 4 = true ∧ (68574960#64).toNat ≤ 91 ^ (4#3).toNat - 1
      ∧ (68574961#64).toNat > 91 ^ (4#3).toNat - 1 := by
  decide +kernel

/-- The clauses of a decoder of exactly `n` digits (Base91DecodeReadsCodePoint, PositionDigitsDecode,
AltitudeSpeedRangeDecode): all digits valid, the highest and the lowest digit among them, and
an invalid last one, one above the highest. -/
theorem witness_DecodesDigits :
    (∀ n ∈ [1, 2, 4], ∀ s ∈ [window (List.replicate n 0x21), window (List.replicate n 0x7B)],
        s.windowOk ∧ s.ilen.toNat = n ∧ ∀ k < n, s.b91At k)
      ∧ ∀ n ∈ [1, 2, 4], (window (List.replicate (n - 1) 0x21 ++ [0x7C])).windowOk
        ∧ (window (List.replicate (n - 1) 0x21 ++ [0x7C])).ilen.toNat = n
        ∧ (∀ j < n - 1, (window (List.replicate (n - 1) 0x21 ++ [0x7C])).b91At j)
        ∧ ¬ (window (List.replicate (n - 1) 0x21 ++ [0x7C])).b91At (n - 1) := by
  unfold State.windowOk State.b91At
  decide +kernel

theorem witness_Base91DecodeReadsCodePoint : widthLegal 1 = true ∧ widthLegal 2 = true ∧ widthLegal 4 = true := by decide

/-- Positions on the bounds of the ranges and one unit outside them (PrecompressRoundsHalfUp, DmmEncodeWritesText,
UncompressedEncodeWritesReport, CompressedEncodeWritesReport). -/
theorem witness_positions :
    (position (-900000000) 1800000000 0).params.valid
      ∧ (position (-900000000) 1800000000 0).point.lat.toInt.natAbs ≤ 900000000
      ∧ (position (-900000000) 1800000000 0).point.lon.toInt.natAbs ≤ 1800000000
      ∧ 900000000 < (position 900000001 0 0).point.lat.toInt.natAbs
      ∧ (position 900000000 (-1800000001) 0).point.lat.toInt.natAbs ≤ 900000000
      ∧ 1800000000 < (position 900000000 (-1800000001) 0).point.lon.toInt.natAbs := by
  decide +kernel

theorem witness_AltitudeEncodeCountsThresholds : (position 0 0 1532).params.valid := by decide +kernel

/-! ### Witnesses: degrees-decimal-minutes -/

/-- The check at place `n` of a grammar is the first broken one where the ones before it are met. -/
theorem firstBroken_at {s : State} {gs : List GrammarByte} {g : GrammarByte} (n : Nat) (h : gs[n]? = some g)
    (hb : ∀ b ∈ gs.take n, s.meets b) (hg : ¬ s.meets g) : s.firstBroken gs g := by
  obtain ⟨hn, rfl⟩ := List.getElem?_eq_some_iff.1 h
  exact ⟨gs.take n, gs.drop (n + 1), by simp, hb, hg⟩

/-- A field that keeps the grammar, the first and the last byte that can break it, and a hemisphere that is none. -/
theorem witness_DmmDecodeLatitude :
    ((window (ascii "9960.99s")).windowOk ∧ (window (ascii "9960.99s")).ilen.toNat = 8
        ∧ (∀ g ∈ latGrammar 0, (window (ascii "9960.99s")).meets g)
        ∧ (window (ascii "9960.99s")).inByte 7 ∈ [0x4E, 0x53, 0x6E, 0x73])
      ∧ (window (ascii "a554.00N")).firstBroken (latGrammar 0) ⟨0, 0x10, false⟩
      ∧ (window (ascii "3554.0xn")).firstBroken (latGrammar 0) ⟨6, 0x11, false⟩
      ∧ (window (ascii "3554.00X")).windowOk
      ∧ (∀ g ∈ latGrammar 0, (window (ascii "3554.00X")).meets g)
      ∧ (window (ascii "3554.00X")).inByte 7 ∉ [0x4E, 0x53, 0x6E, 0x73] := by
  refine ⟨?_, firstBroken_at 0 rfl ?_ ?_, firstBroken_at 6 rfl ?_ ?_, ?_⟩ <;>
    (unfold State.meets State.digitAt; try unfold State.windowOk) <;> decide +kernel

theorem witness_DmmDecodeLongitude :
    ((window (ascii "99999.99w")).windowOk ∧ (window (ascii "99999.99w")).ilen.toNat = 9
        ∧ (∀ g ∈ lonGrammar 0, (window (ascii "99999.99w")).meets g)
        ∧ (window (ascii "99999.99w")).inByte 8 ∈ [0x45, 0x57, 0x65, 0x77])
      ∧ (window (ascii "a7906.00W")).firstBroken (lonGrammar 0) ⟨0, 0x12, false⟩
      ∧ (window (ascii "0790600W ")).firstBroken (lonGrammar 0) ⟨5, 0x13, true⟩
      ∧ (window (ascii "07906.00Q")).windowOk
      ∧ (∀ g ∈ lonGrammar 0, (window (ascii "07906.00Q")).meets g)
      ∧ (window (ascii "07906.00Q")).inByte 8 ∉ [0x45, 0x57, 0x65, 0x77] := by
  refine ⟨?_, firstBroken_at 0 rfl ?_ ?_, firstBroken_at 5 rfl ?_ ?_, ?_⟩ <;>
    (unfold State.meets State.digitAt; try unfold State.windowOk) <;> decide +kernel

/-! ### Witnesses: position reports -/

/-- A window for each clause of APRS.CLASS, in their order; the edges of the digit and letter ranges among them. -/
theorem witness_ClassifyReportKind :
    (window []).windowOk ∧ (window []).ilen.toNat = 0 ∧ (window (ascii "@")).inByte 0 = 0x40
      ∧ (window (ascii "/")).inByte 0 = 0x2F ∧ (window (ascii ">a")).inByte 0 ∉ [0x21, 0x3D, 0x2F, 0x40]
      ∧ (window (ascii "!")).ilen.toNat = 1 ∧ (window (ascii "!")).inByte 0 ∈ [0x21, 0x3D]
      ∧ (window (ascii "=/")).inByte 1 ∈ [0x2F, 0x5C]
      ∧ (∀ b ∈ [0x30#8, 0x39#8, 0x41#8, 0x5A#8, 0x61#8, 0x7A#8],
          ∃ r ∈ [(0x30, 0x39), (0x41, 0x5A), (0x61, 0x7A)],
            r.1 ≤ ((window [0x3D, b]).inByte 1).toNat ∧ ((window [0x3D, b]).inByte 1).toNat ≤ r.2)
      ∧ ∀ b ∈ [0x3A#8, 0x40#8, 0x5B#8, 0x60#8, 0x7B#8], (window [0x21, b]).inByte 1 ∉ [0x2F, 0x5C]
        ∧ ∀ r ∈ [(0x30, 0x39), (0x41, 0x5A), (0x61, 0x7A)],
            ¬ (r.1 ≤ ((window [0x21, b]).inByte 1).toNat ∧ ((window [0x21, b]).inByte 1).toNat ≤ r.2) := by
  unfold State.windowOk
  decide +kernel

/-- One byte too short for each layout, and a wrong byte of each pattern. -/
theorem witness_PatternMismatchIsNoError :
    (window (ascii "!3554.00N/07906.00W")).windowOk ∧ ¬ (window (ascii "!3554.00N/07906.00W")).patternU
      ∧ ¬ (window (ascii "!3554.00X/07906.00WO")).patternU
      ∧ ¬ (window (ascii "@092345z4903.50N/07201.75W")).patternT
      ∧ ¬ (window (ascii "/09234a/4903.50N/07201.75W>")).patternT
      ∧ ¬ (window (ascii "=/5L!!<*e7OS]")).patternC ∧ ¬ (window (ascii "@/5L!!<*e7OS]S")).patternC := by
  unfold State.windowOk State.patternU State.patternT State.patternC State.digitAt
  decide +kernel

theorem witness_UncompressedDecodeReadsReport :
    (window (ascii "!3554.00N/07906.00WO")).windowOk ∧ (window (ascii "!3554.00N/07906.00WO")).patternU
      ∧ ∀ g ∈ latGrammar 1 ++ lonGrammar 10, (window (ascii "!3554.00N/07906.00WO")).meets g := by
  unfold State.windowOk State.patternU State.meets State.digitAt
  decide +kernel

/-- Each format code, and one that is none. -/
theorem witness_TimestampedDecodeReadsReport :
    ∀ b ∈ [0x7A#8, 0x2F#8, 0x68#8, 0x5A#8],
      (window (ascii "@092345" ++ [b] ++ ascii "4903.50N/07201.75W>")).windowOk
        ∧ (window (ascii "@092345" ++ [b] ++ ascii "4903.50N/07201.75W>")).patternT
        ∧ (∀ g ∈ latGrammar 8 ++ lonGrammar 17,
            (window (ascii "@092345" ++ [b] ++ ascii "4903.50N/07201.75W>")).meets g)
        ∧ (window (ascii "@092345" ++ [b] ++ ascii "4903.50N/07201.75W>")).inByte 7 = b := by
  unfold State.windowOk State.patternT State.meets State.digitAt
  decide +kernel

/-- The first and the last byte that can break the grammar of each layout. -/
theorem witness_MalformedReportKeepsSymbol :
    ((window (ascii "!a554.00N/07906.00WO")).windowOk ∧ (window (ascii "!a554.00N/07906.00WO")).patternU)
      ∧ (window (ascii "!a554.00N/07906.00WO")).firstBroken (latGrammar 1 ++ lonGrammar 10) ⟨1, 0x10, false⟩
      ∧ (window (ascii "!3554.00N/07906.0xWO")).patternU
      ∧ (window (ascii "!3554.00N/07906.0xWO")).firstBroken (latGrammar 1 ++ lonGrammar 10) ⟨17, 0x13, false⟩
      ∧ (window (ascii "@999999z49 3.50N/07201.75W>")).patternT
      ∧ (window (ascii "@999999z49 3.50N/07201.75W>")).firstBroken (latGrammar 8 ++ lonGrammar 17) ⟨10, 0x11, false⟩ := by
  refine ⟨?_, firstBroken_at 0 rfl ?_ ?_, ?_, firstBroken_at 14 rfl ?_ ?_, ?_, firstBroken_at 2 rfl ?_ ?_⟩ <;>
    (first | unfold State.windowOk State.patternU | unfold State.patternU | unfold State.patternT | unfold State.meets) <;>
    (try unfold State.digitAt) <;> decide +kernel

/-- A compressed report with the given trailing field. -/
def compressed (t1 t2 ty : Byte) : State := window (ascii "!/5L!!<*e7O" ++ [t1, t2, ty])

/-- A trailing field for each clause: SPACE; an altitude; course and speed at type value 0 and at 89; range; none. -/
theorem witness_CompressedDecodeReadsReport :
    (compressed 0x20 0 0).windowOk ∧ (compressed 0x20 0 0).patternC
      ∧ (∀ k < 8, (compressed 0x20 0 0).b91At (2 + k)) ∧ (compressed 0x20 0 0).inByte 11 = 0x20
      ∧ ((compressed 0x7B 0x7B 0x53).b91Value 13 &&& 0x18 = 0x10 ∧ (compressed 0x7B 0x7B 0x53).inByte 11 ≠ 0x20
        ∧ (compressed 0x7B 0x7B 0x53).b91At 11 ∧ (compressed 0x7B 0x7B 0x53).b91At 12
        ∧ (compressed 0x7B 0x7B 0x53).b91At 13)
      ∧ (∀ ty ∈ [0x21#8, 0x28#8], (compressed 0x7B 0x21 ty).b91Value 13 &&& 0x18 ≠ 0x10
        ∧ (compressed 0x7B 0x21 ty).b91Value 13 ≤ 89 ∧ (compressed 0x7B 0x21 ty).b91At 11
        ∧ (compressed 0x7B 0x21 ty).b91At 12 ∧ (compressed 0x7B 0x21 ty).b91At 13)
      ∧ ((compressed 0x7B 0x21 0x7B).b91Value 13 = 90 ∧ (compressed 0x7B 0x21 0x7B).b91At 13
        ∧ (compressed 0x7B 0x21 0x7B).inByte 11 = 0x7B ∧ (compressed 0x7B 0x21 0x7B).b91At 12)
      ∧ (compressed 0x7C 0x21 0x7B).b91Value 13 = 90 ∧ (compressed 0x7C 0x21 0x7B).inByte 11 ≠ 0x20
        ∧ (compressed 0x7C 0x21 0x7B).inByte 11 ≠ 0x7B := by
  unfold State.windowOk State.patternC State.b91At State.b91Value
  decide +kernel

/-- An invalid digit in each place the statement names. -/
theorem witness_CompressedDigitErrorsInOrder :
    ((window (ascii "!/5L! <*e7OS]S")).windowOk ∧ (window (ascii "!/5L! <*e7OS]S")).patternC
        ∧ (∀ j < 3, (window (ascii "!/5L! <*e7OS]S")).b91At (2 + j)) ∧ ¬ (window (ascii "!/5L! <*e7OS]S")).b91At (2 + 3))
      ∧ ((∀ j < 4 + 0, (window (ascii "!/5L!! *e7OS]S")).b91At (2 + j)) ∧ ¬ (window (ascii "!/5L!! *e7OS]S")).b91At (6 + 0))
      ∧ ((∀ k < 8, (compressed 0x53 0x5D 0x7C).b91At (2 + k)) ∧ (compressed 0x53 0x5D 0x7C).inByte 11 ≠ 0x20
        ∧ ¬ (compressed 0x53 0x5D 0x7C).b91At 13)
      ∧ ((compressed 0x7F 0x21 0x53).b91At 13 ∧ (compressed 0x7F 0x21 0x53).b91Value 13 ≤ 89
        ∧ (compressed 0x7F 0x21 0x53).b91Value 13 &&& 0x18 = 0x10 ∧ ¬ (compressed 0x7F 0x21 0x53).b91At 11)
      ∧ ((compressed 0x21 0x20 0x21).b91Value 13 &&& 0x18 ≠ 0x10 ∧ (compressed 0x21 0x20 0x21).b91At 11
        ∧ ¬ (compressed 0x21 0x20 0x21).b91At 12)
      ∧ (compressed 0x7B 0x20 0x7B).b91At 13 ∧ (compressed 0x7B 0x20 0x7B).b91Value 13 = 90
        ∧ (compressed 0x7B 0x20 0x7B).inByte 11 = 0x7B ∧ ¬ (compressed 0x7B 0x20 0x7B).b91At 12 := by
  unfold State.windowOk State.patternC State.b91At State.b91Value
  decide +kernel

theorem witness_PositionDecodeIgnoresOldPoint : (compressed 0x53 0x5D 0x53).windowOk := by
  unfold State.windowOk
  decide +kernel

/-! ### Witnesses: AX.25 -/

/-- CLEN 6 with SSID 15, CLEN 7, and SSID 16. -/
theorem witness_AddressEncodeWritesSevenBytes :
    (stations 0 [station (ascii "ABCDEF") 6 15 false false]).params.valid
      ∧ (stations 0 [station (ascii "ABCDEF") 6 15 false false]).entryValid 0
      ∧ 6 < ((stations 0 [station [] 7 0 false false]).entry 0).info.clen.toNat
      ∧ ((stations 0 [station [] 6 16 false false]).entry 0).info.clen.toNat ≤ 6
      ∧ 15 < ((stations 0 [station [] 6 16 false false]).entry 0).info.ssid.toNat := by
  unfold State.entryValid
  decide +kernel

/-- A window of exactly 7 bytes, and of 6. -/
theorem witness_AddressDecodeReadsSevenBytes :
    (window (frame37.take 7)).windowOk ∧ 7 ≤ (window (frame37.take 7)).ilen.toNat
      ∧ (window (frame37.take 7)).addrs.length = (window (frame37.take 7)).params.maxAddr
      ∧ 2 ≤ (window (frame37.take 7)).params.maxAddr ∧ (window (frame37.take 6)).ilen.toNat < 7 := by
  unfold State.windowOk
  decide +kernel

/-- Two stations and a payload that fills OBUF (L2-AX25: 496 bytes). -/
theorem witness_FrameEncodeWritesFrame :
    { stations 2 threeStations with ilen := 496 }.params.valid ∧ { stations 2 threeStations with ilen := 496 }.windowOk
      ∧ 2 ≤ (stations 2 threeStations).naddr.toNat
      ∧ (stations 2 threeStations).naddr.toNat ≤ (stations 2 threeStations).params.maxAddr
      ∧ (∀ i < 2, { stations 2 threeStations with ilen := 496 }.entryValid i) ∧ 7 * 2 + 2 + 496 ≤ 512 := by
  unfold State.windowOk State.entryValid
  decide +kernel

/-- NADDR 1 and 11; an invalid last entry of each kind; a payload of 497 bytes. -/
theorem witness_FrameEncodeErrorsInOrder :
    (stations 1 []).windowOk ∧ (stations 1 []).naddr.toNat < 2
      ∧ (2 ≤ (stations 11 []).naddr.toNat ∧ (stations 11 []).params.maxAddr < (stations 11 []).naddr.toNat)
      ∧ ((∀ j < 1, (stations 2 [station [] 0 0 false false, station [] 7 0 false false]).entryValid j)
        ∧ 6 < ((stations 2 [station [] 0 0 false false, station [] 7 0 false false]).entry 1).info.clen.toNat)
      ∧ (((stations 2 [station [] 0 0 false false, station [] 6 16 false false]).entry 1).info.clen.toNat ≤ 6
        ∧ 15 < ((stations 2 [station [] 0 0 false false, station [] 6 16 false false]).entry 1).info.ssid.toNat)
      ∧ { stations 2 threeStations with ilen := 497 }.windowOk ∧ 512 < 7 * 2 + 2 + 497 := by
  unfold State.windowOk State.entryValid
  decide +kernel

/-- F37 cut to 23 bytes: three addresses, control and PID, no payload. -/
theorem witness_FrameDecodeReadsFrame :
    (window (frame37.take 23)).windowOk ∧ (window (frame37.take 23)).params.valid
      ∧ (window (frame37.take 23)).addrs.length = (window (frame37.take 23)).params.maxAddr
      ∧ 7 * 3 + 2 ≤ (window (frame37.take 23)).ilen.toNat
      ∧ (∀ i < 3, i + 1 < 3 → ((window (frame37.take 23)).inByte (7 * i + 6)).toNat % 2 = 0)
      ∧ ((window (frame37.take 23)).inByte (7 * (3 - 1) + 6)).toNat % 2 = 1 := by
  unfold State.windowOk
  decide +kernel

/-- Fewer than 7 bytes for the first address and, after 10 addresses, for the eleventh; 11 addresses without LAST; and
no room for control and PID. -/
theorem witness_FrameDecodeErrors :
    ((window (frame37.take 6)).windowOk ∧ 7 * 0 ≤ (window (frame37.take 6)).ilen.toNat
        ∧ (window (frame37.take 6)).ilen.toNat < 7 * 0 + 7)
      ∧ ((∀ j < 10, ((window ((List.range 11).flatMap fun _ => frame37.take 7)).inByte (7 * j + 6)).toNat % 2 = 0)
        ∧ 10 = (window ((List.range 11).flatMap fun _ => frame37.take 7)).params.maxAddr
        ∧ 7 * 10 + 7 ≤ (window ((List.range 11).flatMap fun _ => frame37.take 7)).ilen.toNat)
      ∧ ((∀ j < 3, j + 1 < 3 → ((window (frame37.take 22)).inByte (7 * j + 6)).toNat % 2 = 0)
        ∧ ((window (frame37.take 22)).inByte (7 * (3 - 1) + 6)).toNat % 2 = 1
        ∧ 7 * 3 ≤ (window (frame37.take 22)).ilen.toNat ∧ (window (frame37.take 22)).ilen.toNat < 7 * 3 + 2) := by
  unfold State.windowOk
  decide +kernel

/-! ### Witnesses: round trips -/

/-- The window of `u` holds the output of `t`. -/
def holds (u t : State) : Bool :=
  u.ilen == t.olen && (List.range t.olen.toNat).all fun k => u.inByte k == t.readByte (obufBase + k)

theorem window_of_holds {u t : State} (h : holds u t = true) :
    u.ilen = t.olen ∧ ∀ k < t.olen.toNat, u.inByte k = t.readByte (obufBase + k) := by
  simp only [holds, Bool.and_eq_true, beq_iff_eq, List.all_eq_true, List.mem_range] at h
  exact h

theorem witness_Base91RoundTrip :
    State.reset.params.valid ∧ widthLegal 4 = true ∧ (68574960#64).toNat ≤ 91 ^ (4#3).toNat - 1
      ∧ (window [0x7B, 0x7B, 0x7B, 0x7B]).windowOk
      ∧ ∃ t, exec (.b91Enc 4) { State.reset with val := 68574960 } = .next t
        ∧ holds (window [0x7B, 0x7B, 0x7B, 0x7B]) t = true := by
  unfold State.windowOk
  exact ⟨by decide +kernel, by decide, by decide +kernel, by decide +kernel, exec_of_ends (by decide +kernel)⟩

theorem witness_PrecompressRoundTrip :
    (position (-900000000) 0 0).params.valid ∧ (window ([0x7B, 0x7B] ++ ascii "!!")).windowOk
      ∧ (∃ t, exec .latPre (position (-900000000) 0 0) = .next t
        ∧ (ends (.b91Enc 4) t (holds (window ([0x7B, 0x7B] ++ ascii "!!")))) = true)
      ∧ ∃ t, exec .lonPre (position 0 1800000000 0) = .next t
        ∧ (ends (.b91Enc 4) t (holds (window ([0x7B, 0x7B] ++ ascii "!!")))) = true := by
  unfold State.windowOk
  exact ⟨by decide +kernel, by decide +kernel, exec_of_ends (by decide +kernel), exec_of_ends (by decide +kernel)⟩

/-- 1 ft and 100000 ft. -/
theorem witness_AltitudeRoundTrip :
    (position 0 0 1000).params.valid ∧ 1000 ≤ (position 0 0 1000).point.alt.toInt
      ∧ (position 0 0 100000000).point.alt.toInt ≤ 100000000 ∧ (window [0x60, 0x3E]).windowOk
      ∧ (∃ t, exec .altEnc (position 0 0 1000) = .next t ∧ holds (window (ascii "!!")) t = true)
      ∧ ∃ t, exec .altEnc (position 0 0 100000000) = .next t ∧ holds (window [0x60, 0x3E]) t = true := by
  unfold State.windowOk
  exact ⟨by decide +kernel, by decide +kernel, by decide +kernel, by decide +kernel, exec_of_ends (by decide +kernel),
    exec_of_ends (by decide +kernel)⟩

theorem witness_DmmRoundTrip :
    (position 359999999 0 0).params.valid ∧ (window (ascii "3560.00N")).windowOk
      ∧ (∃ t, exec .dmmEncLat (position 359999999 0 0) = .next t ∧ holds (window (ascii "3560.00N")) t = true)
      ∧ ∃ t, exec .dmmEncLon (position 0 (-1800000000) 0) = .next t ∧ holds (window (ascii "18000.00W")) t = true := by
  unfold State.windowOk
  exact ⟨by decide +kernel, by decide +kernel, exec_of_ends (by decide +kernel), exec_of_ends (by decide +kernel)⟩

theorem witness_UncompressedReportRoundTrip :
    (window (ascii "!9000.00S/18000.00WO")).windowOk
      ∧ ∃ t, exec .aprsEncU (position (-900000000) (-1800000000) 0) = .next t
        ∧ holds (window (ascii "!9000.00S/18000.00WO")) t = true := by
  unfold State.windowOk
  exact ⟨by decide +kernel, exec_of_ends (by decide +kernel)⟩

theorem witness_CompressedReportRoundTrip :
    (window (ascii "!/!!!!" ++ [0x7B, 0x7B] ++ ascii "!!O!!S")).windowOk
      ∧ ∃ t, exec .aprsEncC (position 900000000 1800000000 0) = .next t
        ∧ holds (window (ascii "!/!!!!" ++ [0x7B, 0x7B] ++ ascii "!!O!!S")) t = true := by
  unfold State.windowOk
  exact ⟨by decide +kernel, exec_of_ends (by decide +kernel)⟩

theorem witness_AddressRoundTrip :
    (window (frame37.take 7)).windowOk ∧ (∀ k < 6, ((window (frame37.take 7)).inByte k).toNat % 2 = 0)
      ∧ ((window (frame37.take 7)).inByte 6).toNat / 32 % 4 = 3
      ∧ ∃ t, exec .ax25DecA (window (frame37.take 7)) = .next t ∧ (t.entry 0).info.rsv == 3 := by
  unfold State.windowOk
  exact ⟨by decide +kernel, by decide +kernel, by decide +kernel, exec_of_ends (p := fun t => (t.entry 0).info.rsv == 3)
    (by decide +kernel)⟩

/-- Program P1's frame. -/
theorem witness_FrameRoundTrip :
    (∀ i < 3, (stations 3 threeStations).entryValid i
        ∧ (∀ k < ((stations 3 threeStations).entry i).info.clen.toNat,
            (((stations 3 threeStations).entry i).callByte k).toNat < 0x80)
        ∧ ∀ k < 6, k + 1 = ((stations 3 threeStations).entry i).info.clen.toNat →
            ((stations 3 threeStations).entry i).callByte k ≠ 0x20)
      ∧ (window (frame37.take 23)).windowOk
      ∧ (window (frame37.take 23)).addrs.length = (window (frame37.take 23)).params.maxAddr
      ∧ ∃ t, exec .ax25EncF (stations 3 threeStations) = .next t ∧ holds (window (frame37.take 23)) t = true := by
  unfold State.windowOk State.entryValid
  exact ⟨by decide +kernel, by decide +kernel, by decide +kernel, exec_of_ends (by decide +kernel)⟩

/-! ### Witnesses: frames and the invariant -/

/-- A busy block with bytes in both buffers, a remainder and an output meets the invariant, and a step of it answers a
next state. -/
theorem witness_StepKeepsTheInvariant :
    { due 0x16 with mem := [(0x1000, 7), (0x21FF, 1)], olen := 512, remOff := 500, remLen := 12 }.Inv
      ∧ steps { due 0x16 with mem := [(0x1000, 7), (0x21FF, 1)], olen := 512, remOff := 500, remLen := 12 }
          (fun t => t.val == 0) = true :=
  ⟨{ params := by decide
     table := by decide
     memForm := by decide
     memInBuffers := by decide
     busyStatus := by decide
     resetIdle := by decide
     output := by decide
     remainder := by decide
     errCode := by decide
     noError := by decide }, by decide +kernel⟩

theorem witness_ResetMeetsTheInvariant : Params.reference.valid ∧ (⟨0, 32, 4096, 16⟩ : Params).valid := by decide

/-- Every command ends in a next state (CommandsLeaveHostRegisters, CommandsWriteOnlyOutputBytes,
CommandsWriteOnlyListedRegisters, UnlistedOperandsHaveNoInfluence). -/
theorem witness_commands_answer :
    (window (ascii "!!")).params.valid
      ∧ ([.nop, .b91Enc 2, .b91Dec 2, .latPre, .lonPre, .latDec, .lonDec, .altEnc, .altDec, .csDec, .rngDec, .dmmEncLat,
          .dmmEncLon, .dmmDecLat, .dmmDecLon, .aprsClass, .aprsEncU, .aprsEncC, .aprsDecU, .aprsDecT, .aprsDecC, .ax25EncA,
          .ax25DecA, .ax25EncF, .ax25DecF] : List Instr).all (fun i => ends i (window (ascii "!!")) fun _ => true) = true := by
  decide +kernel

/-- A frame of three addresses over a table of ten: entries 3 to 9 are at or above the new NADDR
(CommandsWriteOnlyListedRegisters). -/
theorem witness_entries_above_naddr :
    (window frame37).params.valid ∧ ends .ax25DecF (window frame37) (fun t => decide (t.naddr.toNat ≤ 3)) = true := by
  decide +kernel

end Sys2Proof.Tests
end

/-! The family of 40_command_cycle.md: acceptance (R85), host accesses while BUSY (R86), the checks of R89, and NOP
(R90). First the rules of the command word, the engine, the host port and the window checks, then the obligations. -/

namespace Sys2Proof.Proofs

open Sys2Proof.Machine Sys2Proof.Laws

/-! ### The command word (R70, R91) -/

theorem opField_toNat (c : Word) : (opField c).toNat = c.toNat % 2 ^ 8 := by
  simp [opField]

theorem wField_toNat (c : Word) : (wField c).toNat = c.toNat / 2 ^ 8 % 2 ^ 3 := by
  simp [wField, Nat.shiftRight_eq_div_pow]

theorem resField_toNat (c : Word) : (resField c).toNat = c.toNat / 2 ^ 11 := by
  have := c.isLt
  simp only [resField, BitVec.extractLsb'_toNat, Nat.shiftRight_eq_div_pow]
  omega

/-- R70: OP, W and RES are all the bits of a command word. -/
theorem toNat_eq_fields (c : Word) :
    c.toNat = (opField c).toNat + (wField c).toNat * 2 ^ 8 + (resField c).toNat * 2 ^ 11 := by
  rw [opField_toNat, wField_toNat, resField_toNat]
  omega

/-- R91: the check of RES comes first. -/
theorem decode_reserved {c : Word} (h : resField c ≠ 0) : decode c = .error .reserved := by
  rw [decode, if_pos h]

/-- R91: the check of W comes last. -/
theorem decode_width {c : Word} {i : Instr} (hr : resField c = 0) (ho : commandOf (opField c) (wField c) = some i)
    (hw : widthAdmitted (opField c) (wField c) = false) :
    decode c = .error (.width (opField c) (wField c)) := by
  simp [decode, hr, ho, hw]

/-- R74, R90: the word 0 is the only word with OP 0 that is a command. -/
theorem decode_error_of_nop_with_fields {c : Word} (ho : opField c = 0) (hc : c ≠ 0) :
    ∃ e, decode c = .error e := by
  by_cases hr : resField c = 0
  · have hw : wField c ≠ 0 := by
      intro hw
      exact hc (BitVec.eq_of_toNat_eq (by simp [toNat_eq_fields c, ho, hw, hr]))
    exact ⟨_, decode_width (i := .nop) hr (by rw [ho]; rfl) (by simpa [ho, widthAdmitted] using hw)⟩
  · exact ⟨_, decode_reserved hr⟩

/-! ### One step (R87, R91; log 4, log 5) -/

/-- A due command whose word decodes is sampled and executed. -/
theorem step_due {s : State} {c : Word} {i : Instr} (hr : s.rst = false) (hp : s.pend = some c) (hd : s.delay = 0)
    (hi : decode c = .ok i) : step s = exec i s.sampleNow := by
  simp [step, engineStep, hr, hp, hd, hi]

/-- An idle block takes the next event of the host. -/
theorem step_idle {s : State} {e : HostEvent} {rest : List HostEvent} (hr : s.rst = false) (hp : s.pend = none)
    (hi : s.inputs = e :: rest) : step s = hostEvent { s with inputs := rest } e := by
  simp [step, hostTurn, hr, hp, hi]

/-! ### Host accesses (R51, R85, R86) -/

/-- R50, R51: a 64-bit access to a register offset is supported. -/
theorem accessTarget_register {s : State} {off : Nat} (hr : s.rst = false) (ha : off % 8 = 0) (ho : off < 0x1000) :
    accessTarget s .b64 (s.params.base + off) = .ok (.register off) := by
  have hb : inBlock s.params (s.params.base + off) = true := by
    have : off < blockSize := Nat.lt_trans ho (by decide)
    simp [inBlock, this]
  simp [accessTarget, targetOf, ibufBase, hr, hb, ha, ho]

theorem hostEvent_read {s : State} {size : AccessSize} {addr : Nat} {t : Target}
    (h : accessTarget s size addr = .ok t) : hostEvent s (.read size addr) = .next (s.hostRead t) := by
  simp [hostEvent, h]

theorem hostEvent_write {s : State} {size : AccessSize} {addr : Nat} {t : Target} (v : Word)
    (h : accessTarget s size addr = .ok t) : hostEvent s (.write size addr v) = .next (s.hostWrite v t) := by
  simp [hostEvent, h]

/-- Only offset 8 of the register space reaches STATUS (R23). -/
theorem isStatus_iff {s : State} {t : Target} : s.isStatus t = true ↔ t = .register 0x008 := by
  cases t with
  | register off => simp [State.isStatus, regAt_status]
  | buffer off n => simp [State.isStatus]

/-- R25: bit 3 of STATUS is write-1-to-clear. -/
theorem writeStatus_eq (s : State) (v : Word) : s.writeStatus v =
    { s with status := { s.status with ovr := if v.getLsbD 3 then false else s.status.ovr } } := by
  unfold State.writeStatus
  split <;> rfl

/-- R86: a write to STATUS is honoured, BUSY or not. -/
theorem hostWrite_status (s : State) (v : Word) : s.hostWrite v (.register 0x008) = s.writeStatus v := by
  rw [State.hostWrite, if_pos (isStatus_iff.mpr rfl)]

/-- R86: every other write to a busy block is dropped. -/
theorem hostWrite_busy {s : State} {c : Word} {t : Target} (v : Word) (hp : s.pend = some c)
    (ht : t ≠ .register 0x008) : s.hostWrite v t = s.overrun := by
  rw [State.hostWrite, if_neg (mt isStatus_iff.mp ht), if_pos ((State.busy_iff s).mpr ⟨c, hp⟩)]

/-- R85: a write to CMD of an idle block is accepted, with the LATENCY drawn for it (log 4). -/
theorem hostWrite_cmd_idle {s : State} (c : Word) (hp : s.pend = none) :
    s.hostWrite c (.register 0x000)
      = { s.accept c (Config.latency s.draws) with draws := s.draws + 1 } :=
  hostWrite_register hp

/-- R86: a read of STATUS is defined in every state. -/
theorem hostRead_status (s : State) :
    s.hostRead (.register 0x008) = { s with replies := s.replies ++ [s.statusWord] } := rfl

/-- R86: a read of CMD is defined in every state. -/
theorem hostRead_cmd (s : State) : s.hostRead (.register 0x000) = { s with replies := s.replies ++ [s.cmd] } := rfl

/-- R56: a read adds its reply; only the counter of free values may move besides (log 3). -/
theorem hostRead_reply (s : State) (t : Target) :
    ∃ v draws, s.hostRead t = { s with replies := s.replies ++ [v], draws := draws } := by
  unfold State.hostRead
  split
  · exact ⟨_, _, rfl⟩
  · exact ⟨_, s.draws, rfl⟩

/-! ### Commands that check the window first (R89) -/

/-- A command whose first action is CheckWindow. -/
theorem checksWindow_of_exec {i : Instr} {f : State → Except Raise State}
    (h : ∀ s, exec i s = complete s (checkWindow s >>= fun _ => f s)) : ChecksWindow i := by
  intro s hw
  rw [h, checkWindow_error hw]
  rfl

/-- The position decoders check the window before they match their pattern. -/
theorem positionDecoder_checksWindow {i : Instr} (hi : i ∈ [Instr.aprsDecU, .aprsDecT, .aprsDecC]) :
    ChecksWindow i := by
  intro s hw
  simp only [List.mem_cons, List.not_mem_nil, or_false] at hi
  rcases hi with rfl | rfl | rfl
  · simp only [exec, execAprsDecU, checkWindow_error hw]
    rfl
  · simp only [exec, execAprsDecT, checkWindow_error hw]
    rfl
  · simp only [exec, execAprsDecC, checkWindow_error hw]
    rfl

/-- A command whose first action is NeedLen. -/
theorem checksLength_of_exec {i : Instr} {n : Nat} {f : State → Except Raise State}
    (h : ∀ s, exec i s = complete s (needLen s n >>= fun _ => f s)) : ChecksLength i n := by
  refine ⟨fun s hw => ?_, fun s hw hn => ?_⟩
  · rw [h, needLen_window hw]
    rfl
  · rw [h, needLen_length hw hn]
    rfl

/-- R106: with a width R72 admits, the first check of B91.DEC that can fail is NeedLen. -/
theorem b91Dec_checksLength {w : BitVec 3} (hw : widthLegal w = true) : ChecksLength (.b91Dec w) w.toNat := by
  have hc : checkWidth 0x11 w = .ok () := by rw [checkWidth, if_pos hw]
  exact checksLength_of_exec fun s => by
    simp only [exec, execB91Dec, hc, except_ok_bind]
    rfl

/-! ### NOP (R90) -/

theorem exec_nop (s : State) : exec .nop s = .next s.completed := rfl

/-- Completion writes STATUS and no other register. -/
theorem readReg_completed {r : Reg} (s : State) (h : r ≠ .status) : s.completed.readReg r = s.readReg r := by
  cases r with
  | status => exact absurd rfl h
  | _ => rfl

/-- NOW_S is hidden, and PEND is read in STATUS only (R40). -/
theorem readReg_sampleNow_pend {r : Reg} (s : State) (p : Option Word) (h : r ≠ .status) :
    { s with pend := p }.sampleNow.readReg r = s.readReg r := by
  cases r with
  | status => exact absurd rfl h
  | _ => rfl

/-! ### The obligations -/

/-- Settles O8: STATUS is honoured, CMD and STATUS are read as they are, every other write is an overrun and every other
read a reply. -/
theorem busyAccessesAreDroppedOrRead : Obligations.BusyAccessesAreDroppedOrRead := by
  intro s c size addr t hp ht
  refine ⟨fun v => ⟨?_, fun hne => ?_⟩, ?_, ?_, ?_⟩
  · rintro rfl
    rw [hostEvent_write v ht, hostWrite_status, writeStatus_eq]
  · rw [hostEvent_write v ht, hostWrite_busy v hp hne, State.overrun]
  · rintro rfl
    rw [hostEvent_read ht, hostRead_status]
  · rintro rfl
    rw [hostEvent_read ht, hostRead_cmd]
  · obtain ⟨v, draws, h⟩ := hostRead_reply s t
    exact ⟨v, draws, by rw [hostEvent_read ht, h]⟩

/-- Settles O13: every listed command begins with CheckWindow or NeedLen, B91.DEC after its check of W. -/
theorem windowThenLengthAreChecked : Obligations.WindowThenLengthAreChecked := by
  refine ⟨?_, fun w hw => b91Dec_checksLength hw, ?_⟩
  · simp only [List.forall_mem_cons]
    exact ⟨checksWindow_of_exec fun _ => rfl, positionDecoder_checksWindow (by decide),
      positionDecoder_checksWindow (by decide), positionDecoder_checksWindow (by decide),
      checksWindow_of_exec fun _ => rfl, checksWindow_of_exec fun _ => rfl, checksWindow_of_exec fun _ => rfl,
      List.forall_mem_nil _⟩
  · simp only [List.forall_mem_cons]
    exact ⟨checksLength_of_exec fun _ => rfl, checksLength_of_exec fun _ => rfl, checksLength_of_exec fun _ => rfl,
      checksLength_of_exec fun _ => rfl, checksLength_of_exec fun _ => rfl, checksLength_of_exec fun _ => rfl,
      checksLength_of_exec fun _ => rfl, List.forall_mem_nil _⟩

/-- Settles O7: the event at BASE is a write to CMD, which an idle block accepts. -/
theorem idleCmdWriteIsAccepted : Obligations.IdleCmdWriteIsAccepted := by
  intro s c rest hr hp hi
  have ht : accessTarget { s with inputs := rest } .b64 s.params.base = .ok (.register 0x000) :=
    accessTarget_register (s := { s with inputs := rest }) (off := 0) hr rfl (by decide)
  refine ⟨Config.latency s.draws, s.draws + 1, ?_⟩
  rw [step_idle hr hp hi, hostEvent_write c ht, hostWrite_cmd_idle (s := { s with inputs := rest }) c hp]
  rfl

/-- Settles O21: NOP completes; from reset, completion and the sample leave every register but STATUS at 0. -/
theorem nopChangesOnlyStatus : Obligations.NopChangesOnlyStatus := by
  refine ⟨exec_nop, rfl, fun c ho hc => ?_, fun t ht => ?_⟩
  · exact decode_error_of_nop_with_fields (BitVec.eq_of_toNat_eq ((opField_toNat c).trans ho)) hc
  · rw [step_due (c := 0) (i := .nop) rfl rfl rfl rfl, exec_nop, Host.Outcome.next.injEq] at ht
    subst ht
    refine ⟨by decide, fun off r hoff hreg => ?_⟩
    have hr : r ≠ .status := by
      rintro rfl
      exact hoff (regAt_status.mp hreg)
    rw [readReg_completed _ hr, readReg_sampleNow_pend _ _ hr]
    exact readReg_resetWith _ r

end Sys2Proof.Proofs

/-! The family of 41_base91.md: the digit commands (R105, R106), the precompress transforms (R107, R108), and the
altitude, course, speed and range codes (R111 to R115). First the rules of the width check, of output and of the digit
decoders, then the obligations. -/

namespace Sys2Proof.Proofs

open Sys2Proof.Machine Sys2Proof.Laws

/-! ### The width and the output of the digit commands (R72, R92) -/

/-- R72, R91: a width R72 admits passes the check of W. -/
theorem checkWidth_ok (op : Byte) {w : BitVec 3} (hw : widthLegal w = true) : checkWidth op w = .ok () := by
  rw [checkWidth, if_pos hw]

/-- R5: OBUF holds the text of every width a command word can carry. -/
theorem width_le_obufSize {p : Params} (hp : p.valid) (w : BitVec 3) : w.toNat ≤ p.obufSize := by
  obtain ⟨-, ⟨hmin, -⟩, -⟩ := hp
  have := w.isLt
  omega

/-- R87: where the output fits OBUF, the state kept for an error does not matter. -/
theorem complete_emit_kept (k : State) {u : State} {bs : List Byte} (h : bs.length ≤ u.params.obufSize) :
    complete k (emit u bs) = complete u (emit u bs) := by
  rw [emit_ok h, complete_ok, complete_ok]

/-- R105: B91.ENC of a value that `w` digits can write outputs its digits. -/
theorem exec_b91Enc_ok {s : State} {w : BitVec 3} (hw : widthLegal w = true) (hv : s.val.toNat ≤ 91 ^ w.toNat - 1) :
    exec (.b91Enc w) s = complete s (emit s (b91Text s.val.toNat w.toNat)) := by
  simp [exec, execB91Enc, checkWidth_ok _ hw, Nat.not_lt.mpr hv]

/-- R105: B91.ENC of a greater value raises. -/
theorem exec_b91Enc_error {s : State} {w : BitVec 3} (hw : widthLegal w = true) (hv : s.val.toNat > 91 ^ w.toNat - 1) :
    exec (.b91Enc w) s = .next (s.errored 1 0x06 0 0) := by
  simp only [exec, execB91Enc, checkWidth_ok _ hw, except_ok_bind, if_pos hv]
  rfl

/-! ### Decoders of Base91 digits (R101, R102) -/

/-- R101: the code point of one digit is its value. -/
theorem codePoint_one (s : State) (i : Nat) : s.codePoint i 1 = s.b91Value i := by
  simp [codePoint_succ]

/-- R101: the code point of two digits. -/
theorem codePoint_two (s : State) (i : Nat) : s.codePoint i 2 = 91 * s.b91Value i + s.b91Value (i + 1) := by
  rw [codePoint_succ, codePoint_one, pow_one, Nat.mul_comm]

/-- R102, R106: a command that checks the window's length, reads its digits and writes `u` of their code point is a
decoder of exactly `n` digits. -/
theorem decodesDigits_of_exec {i : Instr} {n : Nat} {f : Field} {u : State → Nat → State} {result : State → State}
    (h : ∀ s, exec i s = complete s (needLen s n >>= fun _ => digitsFrom s f n 0 0 >>= fun c => .ok (u s c)))
    (hu : ∀ s, result s = (u s (s.codePoint 0 n)).completed) : DecodesDigits i n f.code result := by
  refine ⟨checksLength_of_exec h, fun s hw hn => ?_⟩
  have hexec : exec i s = complete s (digitsFrom s f n 0 0 >>= fun c => .ok (u s c)) := by
    rw [h, needLen_ok hw hn, except_ok_bind]
  refine ⟨fun hall => ?_, fun k hk hbefore hbad => ?_⟩
  · have hread : digitsFrom s f n 0 0 = .ok (s.codePoint 0 n) := by
      simpa using digitsFrom_ok s f n 0 0 (by simpa using hall)
    rw [hexec, hread, except_ok_bind, complete_ok, hu]
  · have hraise := digitsFrom_error s f n 0 0 k hk (by simpa using hbefore) (by simpa using hbad)
    rw [hexec, hraise, except_error_bind, complete_error, Nat.zero_add, BitVec.ofNat_toNat, BitVec.setWidth_eq]
    rfl

/-- R106: with a width R72 admits, B91.DEC reads its digits after the length check. -/
theorem exec_b91Dec {w : BitVec 3} (hw : widthLegal w = true) (s : State) :
    exec (.b91Dec w) s = complete s (needLen s w.toNat >>= fun _ => digitsFrom s .value w.toNat 0 0 >>= fun c =>
      .ok { s with val := BitVec.ofNat 64 c }) := by
  simp only [exec, execB91Dec, checkWidth_ok _ hw, except_ok_bind]

/-- R113: CS.DEC reads a two-digit code, whose digits are course and speed. -/
theorem exec_csDec (s : State) :
    exec .csDec s = complete s (needLen s 2 >>= fun _ => digitsFrom s .courseSpeed 2 0 0 >>= fun c =>
      .ok { s with
        val := BitVec.ofNat 64 c
        point :=
          { s.point with
            course := BitVec.ofNat 64 (4 * s.b91Value 0), speed := signedWord (speedValue (s.b91Value 1)) } }) := by
  simp only [exec, execCsDec, digitsFrom, bind_assoc, except_ok_bind]
  by_cases h0 : s.b91At 0
  · by_cases h1 : s.b91At 1
    · simp [digit_ok _ _ h0, digit_ok _ _ h1, State.b91Value]
    · simp [digit_ok _ _ h0, digit_error _ _ h1]
  · simp [digit_error _ _ h0]

/-- R114: RNG.DEC reads a one-digit code. -/
theorem exec_rngDec (s : State) :
    exec .rngDec s = complete s (needLen s 1 >>= fun _ => digitsFrom s .range 1 0 0 >>= fun c =>
      .ok { s with val := BitVec.ofNat 64 c, point := { s.point with range := signedWord (rangeValue c) } }) := by
  simp [exec, execRngDec, digitsFrom]

/-! ### The obligations -/

/-- Settles O22: the text of a legal width fits OBUF, so B91.ENC fails exactly where VAL needs more digits. -/
theorem base91EncodeWritesDigits : Obligations.Base91EncodeWritesDigits := by
  refine fun s w hp hw => ⟨fun hv => ?_, exec_b91Enc_error hw⟩
  obtain ⟨t, hexec, hframe, hwrote, -⟩ :=
    complete_emit (b91Text s.val.toNat w.toNat) w.toNat (b91Text_length _ _) (width_le_obufSize hp w)
  exact ⟨t, (exec_b91Enc_ok hw hv).trans hexec, hframe, hwrote⟩

/-- Settles O23: B91.DEC is a decoder of exactly W digits. -/
theorem base91DecodeReadsCodePoint : Obligations.Base91DecodeReadsCodePoint :=
  fun _ hw => decodesDigits_of_exec (f := .value) (exec_b91Dec hw) fun _ => rfl

/-- Settles O24: within the range the transform is the rounded exact rational, outside it the range check raises. -/
theorem precompressRoundsHalfUp : Obligations.PrecompressRoundsHalfUp := by
  refine fun s => ⟨fun h => ?_, fun h => ?_, fun h => ?_, fun h => ?_⟩
  · rw [← latCode_eq, exec, execLatPre, checkLat_ok h]
    rfl
  · rw [exec, execLatPre, checkLat_error h]
    rfl
  · rw [← lonCode_eq, exec, execLonPre, checkLon_ok h]
    rfl
  · rw [exec, execLonPre, checkLon_error h]
    rfl

/-- Settles O26: two bytes fit OBUF, and the code the model finds by bisection is R115's count. -/
theorem altitudeEncodeCountsThresholds : Obligations.AltitudeEncodeCountsThresholds := by
  intro s hp
  have hfit : 2 ≤ s.params.obufSize := width_le_obufSize hp 2
  obtain ⟨t, hexec, hframe, hwrote, -⟩ :=
    complete_emit (s := { s with val := BitVec.ofNat 64 (altCodeOf s.point.alt) })
      [chr91 (altCodeOf s.point.alt / 91), chr91 (altCodeOf s.point.alt % 91)] 2 rfl hfit
  exact ⟨t, altCodeOf s.point.alt, (complete_emit_kept s (by simpa using hfit)).trans hexec, altCodeOf_eq _, hframe,
    hwrote⟩

/-- Settles O27: all three decode digits, and their values are the rounded exact powers. -/
theorem altitudeSpeedRangeDecode : Obligations.AltitudeSpeedRangeDecode := by
  refine ⟨decodesDigits_of_exec (f := .alt) (fun _ => rfl) fun s => ?_,
    decodesDigits_of_exec (f := .courseSpeed) exec_csDec fun s => ?_,
    decodesDigits_of_exec (f := .range) exec_rngDec fun s => ?_⟩
  · rw [codePoint_two, altValue_eq]
    rfl
  · rw [codePoint_two, speedValue_eq]
    rfl
  · rw [codePoint_one, rangeValue_eq]
    rfl

end Sys2Proof.Proofs

/-! The family of 42_geopoint.md: the degrees-decimal-minutes encoders (R135, R136) and decoders (R137, R138). First what
a checked value outputs, how a broken field and the hemisphere end a decoder, then the obligations. -/

namespace Sys2Proof.Proofs

open Sys2Proof.Machine Sys2Proof.Laws

/-! ### The encoders (R130, R135, R136) -/

/-- R135: a latitude in range is output as its text. -/
theorem exec_dmmEncLat_ok {s : State} (h : s.point.lat.toInt.natAbs ≤ 900000000) :
    exec .dmmEncLat s = complete s (emit s (latText s.point.lat.toInt)) := by
  rw [exec, execDmmEncLat, checkLat_ok h, except_ok_bind]

/-- R135: a latitude out of range raises before anything is output. -/
theorem exec_dmmEncLat_error {s : State} (h : 900000000 < s.point.lat.toInt.natAbs) :
    exec .dmmEncLat s = .next (s.errored 1 0x01 0 0) := by
  rw [exec, execDmmEncLat, checkLat_error h, except_error_bind, complete_error]
  rfl

/-- R136: a longitude in range is output as its text. -/
theorem exec_dmmEncLon_ok {s : State} (h : s.point.lon.toInt.natAbs ≤ 1800000000) :
    exec .dmmEncLon s = complete s (emit s (lonText s.point.lon.toInt)) := by
  rw [exec, execDmmEncLon, checkLon_ok h, except_ok_bind]

/-- R136: a longitude out of range raises before anything is output. -/
theorem exec_dmmEncLon_error {s : State} (h : 1800000000 < s.point.lon.toInt.natAbs) :
    exec .dmmEncLon s = .next (s.errored 1 0x02 0 0) := by
  rw [exec, execDmmEncLon, checkLon_error h, except_error_bind, complete_error]
  rfl

/-! ### How a decoder ends (R132, R133) -/

/-- R132, R230: a command that fails at a check writes the check's field, byte and place to STATUS. -/
theorem complete_of_reports {s : State} {g : GrammarByte} {r : Except Raise State}
    (h : ∃ e, r = .error e ∧ Reports s g e) :
    complete s r = .next (s.errored 2 g.field (s.inByte g.pos) (BitVec.ofNat 16 g.pos)) := by
  obtain ⟨e, rfl, herr, hfield, hbyte, hpos⟩ := h
  rw [complete_error, herr, hfield, hbyte, hpos, BitVec.ofNat_toNat, BitVec.setWidth_eq]
  rfl

/-- R137, R138: the hemisphere check is the last; a letter it admits lets the result `u` be written, any other byte is
reported. -/
theorem complete_hemisphereAt (s u : State) (ok : Byte → Bool) (f : Field) (p : Nat) :
    complete s (hemisphereAt s ok f p >>= fun _ => .ok u) =
      .next (if ok (s.inByte p) then u.completed
        else s.errored 2 f.code (s.inByte p) (BitVec.ofNat 16 p)) := by
  rw [hemisphereAt]
  cases ok (s.inByte p) with
  | true => rfl
  | false => exact complete_of_reports (g := ⟨p, f.code, false⟩) ⟨fieldError s f p, rfl, rfl, rfl, rfl, rfl⟩

/-! ### DMM.DECLAT (R137) -/

/-- Where the latitude field keeps the grammar, the hemisphere letter decides. -/
theorem exec_dmmDecLat_of_grammar {s : State} (hw : s.windowOk) (hn : s.ilen.toNat = 8)
    (h : ∀ g ∈ latGrammar 0, s.meets g) :
    exec .dmmDecLat s = .next
      (if isLatHemi (s.inByte 7) then
        { s.completed with point := { s.point with lat := BitVec.ofInt 64 (s.latField 0 (isSouth (s.inByte 7))) } }
      else s.errored 2 0x14 (s.inByte 7) 7) := by
  obtain ⟨hdegrees, hminutes⟩ := latField_ok h
  rw [exec, execDmmDecLat, needLen_ok hw hn, except_ok_bind, hdegrees, except_ok_bind, hminutes, except_ok_bind,
    complete_hemisphereAt, dmmValue_eq]
  rfl

/-- The first byte of the latitude field that breaks the grammar is reported, whatever the hemisphere byte is. -/
theorem exec_dmmDecLat_of_firstBroken {s : State} {g : GrammarByte} (hw : s.windowOk) (hn : s.ilen.toNat = 8)
    (h : s.firstBroken (latGrammar 0) g) :
    exec .dmmDecLat s = .next (s.errored 2 g.field (s.inByte g.pos) (BitVec.ofNat 16 g.pos)) := by
  rw [exec, execDmmDecLat, needLen_ok hw hn, except_ok_bind]
  exact complete_of_reports (latField_error h _)

/-! ### DMM.DECLON (R138) -/

/-- Where the longitude field keeps the grammar, the hemisphere letter decides. -/
theorem exec_dmmDecLon_of_grammar {s : State} (hw : s.windowOk) (hn : s.ilen.toNat = 9)
    (h : ∀ g ∈ lonGrammar 0, s.meets g) :
    exec .dmmDecLon s = .next
      (if isLonHemi (s.inByte 8) then
        { s.completed with point := { s.point with lon := BitVec.ofInt 64 (s.lonField 0 (isWest (s.inByte 8))) } }
      else s.errored 2 0x15 (s.inByte 8) 8) := by
  obtain ⟨hdegrees, hminutes⟩ := lonField_ok h
  rw [exec, execDmmDecLon, needLen_ok hw hn, except_ok_bind, hdegrees, except_ok_bind, hminutes, except_ok_bind,
    complete_hemisphereAt, dmmValue_eq]
  rfl

/-- The first byte of the longitude field that breaks the grammar is reported, whatever the hemisphere byte is. -/
theorem exec_dmmDecLon_of_firstBroken {s : State} {g : GrammarByte} (hw : s.windowOk) (hn : s.ilen.toNat = 9)
    (h : s.firstBroken (lonGrammar 0) g) :
    exec .dmmDecLon s = .next (s.errored 2 g.field (s.inByte g.pos) (BitVec.ofNat 16 g.pos)) := by
  rw [exec, execDmmDecLon, needLen_ok hw hn, except_ok_bind]
  exact complete_of_reports (lonField_error h _)

/-! ### The obligations -/

/-- Settles O28: the texts, 8 and 9 bytes, fit OBUF, so the encoders fail exactly where the value is out of range. -/
theorem dmmEncodeWritesText : Obligations.DmmEncodeWritesText := by
  rintro s ⟨-, ⟨hobuf, -⟩, -⟩
  refine ⟨fun h => ?_, exec_dmmEncLat_error, fun h => ?_, exec_dmmEncLon_error⟩
  · obtain ⟨t, hexec, hframe, hwrote, -⟩ :=
      complete_emit (s := s) (latText s.point.lat.toInt) 8 (latText_length _) (by omega)
    exact ⟨t, (exec_dmmEncLat_ok h).trans hexec, hframe, latText_eq _ ▸ hwrote⟩
  · obtain ⟨t, hexec, hframe, hwrote, -⟩ :=
      complete_emit (s := s) (lonText s.point.lon.toInt) 9 (lonText_length _) (by omega)
    exact ⟨t, (exec_dmmEncLon_ok h).trans hexec, hframe, lonText_eq _ ▸ hwrote⟩

/-- Settles O29: the length first, then the grammar of the field; a field that keeps it leaves the hemisphere letter to
decide. -/
theorem dmmDecodeLatitude : Obligations.DmmDecodeLatitude := by
  refine ⟨checksLength_of_exec fun _ => rfl, fun s hw hn => ⟨fun h hletter => ?_,
    fun _ => exec_dmmDecLat_of_firstBroken hw hn, fun h hletter => ?_⟩⟩
  · rw [exec_dmmDecLat_of_grammar hw hn h, if_pos ((isLatHemi_iff _).mpr hletter), isSouth_eq]
    rfl
  · rw [exec_dmmDecLat_of_grammar hw hn h, if_neg (mt (isLatHemi_iff _).mp hletter)]

/-- Settles O30: as for the latitude, with the grammar and the letters of a longitude. -/
theorem dmmDecodeLongitude : Obligations.DmmDecodeLongitude := by
  refine ⟨checksLength_of_exec fun _ => rfl, fun s hw hn => ⟨fun h hletter => ?_,
    fun _ => exec_dmmDecLon_of_firstBroken hw hn, fun h hletter => ?_⟩⟩
  · rw [exec_dmmDecLon_of_grammar hw hn h, if_pos ((isLonHemi_iff _).mpr hletter), isWest_eq]
    rfl
  · rw [exec_dmmDecLon_of_grammar hw hn h, if_neg (mt (isLonHemi_iff _).mp hletter)]

end Sys2Proof.Proofs

/-! The family of 43_aprs_position.md: the report classification (R155) and the report encoders (R156, R157). First what
the first two window bytes classify as, and how an encoder that validates the position ends, then the obligations. -/

namespace Sys2Proof.Proofs

open Sys2Proof.Machine Sys2Proof.Laws

/-! ### The classes of a byte (R12, R150) -/

theorem isRealtimeMarker_iff (b : Byte) : isRealtimeMarker b = true ↔ b ∈ [(0x21 : Byte), 0x3D] := by
  simp [isRealtimeMarker]

theorem isTimestampMarker_iff (b : Byte) : isTimestampMarker b = true ↔ b ∈ [(0x2F : Byte), 0x40] := by
  simp [isTimestampMarker]

/-- R150: no byte is the marker of two layouts. -/
theorem not_isTimestampMarker_of_isRealtimeMarker {b : Byte} (h : isRealtimeMarker b = true) :
    ¬ isTimestampMarker b = true := by
  rw [isRealtimeMarker_iff] at h
  simp only [List.mem_cons, List.not_mem_nil, or_false] at h
  rcases h with rfl | rfl <;> decide

/-- R12: DIGIT and LETTER as ranges of bytes. -/
theorem isDigit_or_isLetter_iff (b : Byte) : (isDigit b || isLetter b) = true ↔
    ∃ r ∈ [(0x30, 0x39), (0x41, 0x5A), (0x61, 0x7A)], r.1 ≤ b.toNat ∧ b.toNat ≤ r.2 := by
  simp [isDigit, isLetter]

/-- R150: the symbol tables of a compressed report are no DIGIT and no LETTER. -/
theorem not_isDigit_or_isLetter_of_table {b : Byte} (h : b ∈ [(0x2F : Byte), 0x5C]) :
    ¬ (isDigit b || isLetter b) = true := by
  simp only [List.mem_cons, List.not_mem_nil, or_false] at h
  rcases h with rfl | rfl <;> decide

/-! ### APRS.CLASS (R155) -/

/-- R29: VAL with and without MSGCAP. -/
theorem kind_add_msgcap (kind : Nat) (b marker : Byte) :
    kind + 4 * (b == marker).toNat = if b = marker then kind + 4 else kind := by
  by_cases h : b = marker <;> simp [h]

/-- A timestamp marker decides alone. -/
theorem classOf_timestamped {s : State} (hn : 1 ≤ s.ilen.toNat) (hb : isTimestampMarker (s.inByte 0) = true) :
    classOf s = if s.inByte 0 = 0x40 then 7 else 3 := by
  rw [classOf, if_pos ⟨hn, hb⟩, kind_add_msgcap]

/-- After a real-time marker the second byte decides. -/
theorem classOf_realtime {s : State} (hn : 2 ≤ s.ilen.toNat) (hb : isRealtimeMarker (s.inByte 0) = true) :
    classOf s =
      if s.inByte 1 ∈ [(0x2F : Byte), 0x5C] then if s.inByte 0 = 0x3D then 5 else 1
      else if isDigit (s.inByte 1) || isLetter (s.inByte 1) then if s.inByte 0 = 0x3D then 6 else 2
      else 0 := by
  rw [classOf, if_neg fun h => not_isTimestampMarker_of_isRealtimeMarker hb h.2, if_pos ⟨hn, hb⟩, kind_add_msgcap,
    kind_add_msgcap]
  simp only [List.mem_cons, List.not_mem_nil, or_false]

/-- A window without a marker, or without the byte a real-time marker needs, has no kind. -/
theorem classOf_none {s : State} (ht : 1 ≤ s.ilen.toNat → ¬ isTimestampMarker (s.inByte 0) = true)
    (hr : 2 ≤ s.ilen.toNat → ¬ isRealtimeMarker (s.inByte 0) = true) : classOf s = 0 := by
  rw [classOf, if_neg fun h => ht h.1 h.2, if_neg fun h => hr h.1 h.2]

/-- R155: a window in IBUF is classified. -/
theorem exec_aprsClass_ok {s : State} (hw : s.windowOk) :
    exec .aprsClass s = .next { s.completed with val := BitVec.ofNat 64 (classOf s) } := by
  rw [exec, execAprsClass, checkWindow_ok hw]
  rfl

/-! ### The report encoders (R156, R157) -/

section
variable {i : Instr} {s : State} {bs : List Byte}
  (h : exec i s = complete s (checkLat s >>= fun _ => checkLon s >>= fun _ => emit s bs))
include h

/-- An encoder outputs its report where both coordinates are in range. -/
theorem exec_reportEncoder_ok (hlat : s.point.lat.toInt.natAbs ≤ 900000000)
    (hlon : s.point.lon.toInt.natAbs ≤ 1800000000) : exec i s = complete s (emit s bs) := by
  rw [h, checkLat_ok hlat, except_ok_bind, checkLon_ok hlon, except_ok_bind]

/-- The latitude is validated first, whatever the longitude is. -/
theorem exec_reportEncoder_latError (hlat : 900000000 < s.point.lat.toInt.natAbs) :
    exec i s = .next (s.errored 1 0x01 0 0) := by
  rw [h, checkLat_error hlat, except_error_bind, complete_error]
  rfl

/-- The longitude is validated after a latitude in range. -/
theorem exec_reportEncoder_lonError (hlat : s.point.lat.toInt.natAbs ≤ 900000000)
    (hlon : 1800000000 < s.point.lon.toInt.natAbs) : exec i s = .next (s.errored 1 0x02 0 0) := by
  rw [h, checkLat_ok hlat, except_ok_bind, checkLon_error hlon, except_error_bind, complete_error]
  rfl

end

/-! ### The obligations -/

/-- Settles O31: the window check comes first; then the length and the first two bytes choose the branch of the
classification. -/
theorem classifyReportKind : Obligations.ClassifyReportKind := by
  refine ⟨checksWindow_of_exec fun _ => rfl, fun s hw =>
    ⟨classOf s, exec_aprsClass_ok hw, ?_, ?_, ?_, ?_, ?_, ?_, ?_, ?_⟩⟩
  · intro hn
    exact classOf_none (fun _ => by omega) (fun _ => by omega)
  · intro hn hb
    rw [classOf_timestamped hn (by rw [hb]; rfl), if_pos hb]
  · intro hn hb
    rw [classOf_timestamped hn (by rw [hb]; rfl), hb]
    rfl
  · intro _ hb
    refine classOf_none (fun _ ht => hb ?_) (fun _ hr => hb ?_)
    · exact List.mem_append_right [(0x21 : Byte), 0x3D] ((isTimestampMarker_iff _).mp ht)
    · exact List.mem_append_left [(0x2F : Byte), 0x40] ((isRealtimeMarker_iff _).mp hr)
  · intro hn hb
    exact classOf_none (fun _ => not_isTimestampMarker_of_isRealtimeMarker ((isRealtimeMarker_iff _).mpr hb))
      (fun _ => by omega)
  · intro hn hb hc
    rw [classOf_realtime hn ((isRealtimeMarker_iff _).mpr hb), if_pos hc]
  · intro hn hb hc
    have hletter := (isDigit_or_isLetter_iff _).mpr hc
    rw [classOf_realtime hn ((isRealtimeMarker_iff _).mpr hb),
      if_neg fun htable => not_isDigit_or_isLetter_of_table htable hletter, if_pos hletter]
  · intro hn hb hc hd
    rw [classOf_realtime hn ((isRealtimeMarker_iff _).mpr hb), if_neg hc, if_neg fun hletter => ?_]
    obtain ⟨r, hr, hin⟩ := (isDigit_or_isLetter_iff _).mp hletter
    exact hd r hr hin

/-- Settles O32: the 20 bytes fit OBUF, so the encoder fails exactly where a coordinate is out of range. -/
theorem uncompressedEncodeWritesReport : Obligations.UncompressedEncodeWritesReport := by
  rintro s ⟨-, ⟨hobuf, -⟩, -⟩
  refine ⟨fun hlat hlon => ?_, exec_reportEncoder_latError (i := .aprsEncU) rfl,
    exec_reportEncoder_lonError (i := .aprsEncU) rfl⟩
  rw [← latText_eq, ← lonText_eq, exec_reportEncoder_ok (i := .aprsEncU) rfl hlat hlon]
  exact complete_emit _ 20 (by simp) (by omega)

/-- Settles O33: as for the uncompressed report; the code points are the rounded exact rationals and R115's count. -/
theorem compressedEncodeWritesReport : Obligations.CompressedEncodeWritesReport := by
  rintro s ⟨-, ⟨hobuf, -⟩, -⟩
  refine ⟨fun hlat hlon => ?_, exec_reportEncoder_latError (i := .aprsEncC) rfl,
    exec_reportEncoder_lonError (i := .aprsEncC) rfl⟩
  rw [← latCode_eq, ← lonCode_eq, ← altCodeOf_eq, exec_reportEncoder_ok (i := .aprsEncC) rfl hlat hlon]
  exact complete_emit _ 14 (by simp) (by omega)

end Sys2Proof.Proofs

/-! The family of 44_ax25.md: the address commands AX25.ENCA (R200) and AX25.DECA (R201). First how each ends, by the
check that decides it, then the obligations. -/

namespace Sys2Proof.Proofs

open Sys2Proof.Machine Sys2Proof.Laws

/-! ### AX25.ENCA (R193, R200) -/

/-- R200: a valid entry 0 is output as its 7 bytes, with LAST as the entry has it. -/
theorem exec_ax25EncA_ok {s : State} (h : s.entryValid 0) :
    exec .ax25EncA s = complete s (emit s (addressBytes (s.entry 0) (s.entry 0).info.last)) := by
  rw [exec, execAx25EncA, encAddr_ok _ h, except_ok_bind]

/-- R193, R200: what CheckAddr raises for entry 0 ends the command before anything is output; the byte it reports
stands in EBYTE unchanged. -/
theorem exec_ax25EncA_error {s : State} {err : Err} {field : Field} {b : Byte} {pos : Nat}
    (h : checkAddr s 0 = .error { err := err, field := field, byte := b.toNat, pos := pos }) :
    exec .ax25EncA s = .next (s.errored err.code field.code b (BitVec.ofNat 16 pos)) := by
  rw [exec, execAx25EncA, encAddr_error _ h, except_error_bind, complete_error, BitVec.ofNat_toNat,
    BitVec.setWidth_eq]

/-! ### AX25.DECA (R196, R201) -/

/-- R201: a window with room for an address is decoded to entry 0, and the remainder begins after its 7 bytes. -/
theorem exec_ax25DecA_ok {s : State} (hw : s.windowOk) (hn : 7 ≤ s.ilen.toNat) :
    exec .ax25DecA s = .next
      { s.completed with
        addrs := s.addrs.set 0 (decAddr s 0), remOff := BitVec.ofNat 64 (s.ioff.toNat + 7)
        remLen := BitVec.ofNat 64 (s.ilen.toNat - 7) } := by
  rw [exec, execAx25DecA, checkWindow_ok hw, except_ok_bind, if_neg (show ¬ s.inLen < 7 from Nat.not_lt.mpr hn),
    complete_ok]
  rfl

/-- R201: a shorter window raises TruncatedFrame. -/
theorem exec_ax25DecA_error {s : State} (hw : s.windowOk) (hn : s.ilen.toNat < 7) :
    exec .ax25DecA s = .next (s.errored 6 0x20 0 0) := by
  rw [exec, execAx25DecA, checkWindow_ok hw, except_ok_bind, if_pos (show s.inLen < 7 from hn), complete_error]
  rfl

/-! ### The obligations -/

/-- Settles O41: the 7 bytes fit OBUF, so the command fails exactly where CheckAddr does, the length first. -/
theorem addressEncodeWritesSevenBytes : Obligations.AddressEncodeWritesSevenBytes := by
  rintro s ⟨-, ⟨hobuf, -⟩, -⟩
  refine ⟨fun hvalid => ?_, fun hlong => exec_ax25EncA_error (checkAddr_length hlong),
    fun hlength hssid => exec_ax25EncA_error (checkAddr_ssid hlength hssid)⟩
  rw [exec_ax25EncA_ok hvalid]
  exact complete_emit _ 7 (addressBytes_length _ _) (by omega)

/-- Settles O42: the window check comes first; then the length of the window decides, and the entry written is the one
DecAddr makes of the first 7 bytes. -/
theorem addressDecodeReadsSevenBytes : Obligations.AddressDecodeReadsSevenBytes := by
  refine ⟨checksWindow_of_exec fun _ => rfl, fun s hw => ⟨fun hn _ _ => ?_, exec_ax25DecA_error hw⟩⟩
  have hdecoded : IsDecodedAddress s.inByte (decAddr s 0) := by
    simpa only [Nat.zero_add] using decAddr_isDecoded s 0
  exact ⟨decAddr s 0, exec_ax25DecA_ok hw hn, hdecoded⟩

end Sys2Proof.Proofs

/-! The family of 60_exceptions.md: what an error leaves (R234). The inversion `exec_cases` says which of three ways a
command ends; what each leaves of STATUS.ERR decides the obligation. -/

namespace Sys2Proof.Proofs

open Sys2Proof.Machine Sys2Proof.Laws

/-! ### STATUS.ERR after each way a command ends -/

/-- R87: a command that completes without an error leaves ERR as acceptance set it. -/
theorem completed_err_of_result {i : Instr} {s u : State} (h : Result i s u) :
    u.completed.status.err = s.status.err := by
  rw [result_changed h]
  rfl

/-- R231: CapacityExceeded is code 8. -/
theorem raisedState_err_of_capacityExceeded (kept : State) {r : Raise} (h : r.err = .capacityExceeded) :
    (raisedState kept r).status.err = 8 :=
  congrArg Err.code h

/-- R231: the two errors of a matched position decoder have codes 2 and 3, so ERR tells them from its window error. -/
theorem raisedState_err_ne_8 (kept : State) {r : Raise} (h : r.err = .decodeField ∨ r.err = .invalidDigit) :
    (raisedState kept r).status.err ≠ 8 := by
  change r.err.code ≠ 8
  rcases h with h | h <;> rw [h] <;> decide

/-! ### The state after an error, in the terms of the claim -/

/-- R230: beside the writes of the kept state, a raise writes STATUS alone. -/
theorem raisedState_eq_errored (kept : State) (r : Raise) :
    raisedState kept r = kept.errored (raisedState kept r).status.err (raisedState kept r).status.efield
      (raisedState kept r).status.ebyte (raisedState kept r).status.epos := rfl

/-- R153: an error after a match keeps the outputs that `matchedReport` writes. -/
theorem errored_matchedReport (s : State) (n a b : Nat) (err efield ebyte : Byte) (epos : BitVec 16) :
    (s.matchedReport n a b).errored err efield ebyte epos = s.reportError n a b err efield ebyte epos := rfl

/-- R151: a position decoder has one layout. -/
theorem layouts_functional {i : Instr} {l m : Nat × Nat × Nat} (hl : (i, l) ∈ layouts) (hm : (i, m) ∈ layouts) :
    m = l := by
  simp only [layouts, List.mem_cons, List.not_mem_nil, or_false, Prod.mk.injEq] at hl hm
  rcases hl with ⟨rfl, rfl⟩ | ⟨rfl, rfl⟩ | ⟨rfl, rfl⟩ <;> simpa using hm

/-! ### The obligation -/

/-- Settles O12: a command that raises ends in one of two ways. Either every write is undone, which for a position
decoder is its window error, ERR = 8; or it is a matched position decoder, ERR is 2 or 3, and the outputs of its one
layout are kept. -/
theorem errorUndoesAllOtherWrites : Obligations.ErrorUndoesAllOtherWrites := by
  intro i s t hexec hbefore hraised
  cases exec_cases hexec with
  | ok u hresult => exact absurd ((completed_err_of_result hresult).trans hbefore) hraised
  | raised r hwindow =>
    refine ⟨fun _ => raisedState_eq_errored s r, fun l hl hi hne => ?_⟩
    have hdecoder : i ∈ layouts.map (·.1) := List.mem_map.mpr ⟨l, hl, hi.symm⟩
    exact absurd (raisedState_err_of_capacityExceeded s (hwindow hdecoder)) hne
  | matchedRaised n a b r hlayout _ _ hr =>
    have hne := raisedState_err_ne_8 (s.matchedReport n a b) hr
    have hdecoder : i ∈ layouts.map (·.1) := List.mem_map.mpr ⟨_, hlayout, rfl⟩
    refine ⟨fun h => h.elim (absurd hdecoder) (absurd · hne), fun l hl hi _ => ?_⟩
    obtain ⟨j, m⟩ := l
    obtain rfl : i = j := hi
    obtain rfl := layouts_functional hl hlayout
    rw [← errored_matchedReport]
    exact raisedState_eq_errored _ r

end Sys2Proof.Proofs

/-! The family of 30_encoding.md: the decoder and the encoder are inverse to each other (R70 to R74, R77). First the
fields of an encoded command and the command an OP names, then the obligations. -/

namespace Sys2Proof.Proofs

open Sys2Proof.Machine Sys2Proof.Laws

/-! ### The fields of an encoded command (R70, R71) -/

/-- R70, R71: the fields of the word of every command. -/
theorem encodeFields (i : Instr) : EncodeFields.Statement i := by
  cases i with
  | nop => exact EncodeFields.nop
  | b91Enc w => exact EncodeFields.b91Enc w
  | b91Dec w => exact EncodeFields.b91Dec w
  | latPre => exact EncodeFields.latPre
  | lonPre => exact EncodeFields.lonPre
  | latDec => exact EncodeFields.latDec
  | lonDec => exact EncodeFields.lonDec
  | altEnc => exact EncodeFields.altEnc
  | altDec => exact EncodeFields.altDec
  | csDec => exact EncodeFields.csDec
  | rngDec => exact EncodeFields.rngDec
  | dmmEncLat => exact EncodeFields.dmmEncLat
  | dmmEncLon => exact EncodeFields.dmmEncLon
  | dmmDecLat => exact EncodeFields.dmmDecLat
  | dmmDecLon => exact EncodeFields.dmmDecLon
  | aprsClass => exact EncodeFields.aprsClass
  | aprsEncU => exact EncodeFields.aprsEncU
  | aprsEncC => exact EncodeFields.aprsEncC
  | aprsDecU => exact EncodeFields.aprsDecU
  | aprsDecT => exact EncodeFields.aprsDecT
  | aprsDecC => exact EncodeFields.aprsDecC
  | ax25EncA => exact EncodeFields.ax25EncA
  | ax25DecA => exact EncodeFields.ax25DecA
  | ax25EncF => exact EncodeFields.ax25EncF
  | ax25DecF => exact EncodeFields.ax25DecF

/-- R72: the decoder's check of W is the well-formedness of the command. -/
theorem widthAdmitted_opcode (i : Instr) : widthAdmitted i.opcode i.width = i.wf := by
  cases i <;> rfl

/-- R70, R73: a word without reserved bits is OP + 256 W. -/
theorem toNat_of_resField_eq_zero {c : Word} (h : resField c = 0) :
    c.toNat = (opField c).toNat + 256 * (wField c).toNat := by
  have hres : (resField c).toNat = 0 := by rw [h]; rfl
  rw [toNat_eq_fields, hres]
  omega

/-! ### The command that OP names (R71) -/

/-- R71: a command is named by its OP only. -/
theorem opcode_of_commandOf {op : Byte} {w : BitVec 3} {i : Instr} (h : commandOf op w = some i) : i.opcode = op := by
  unfold commandOf at h
  split at h <;> cases h <;> (rename_i hop; exact BitVec.eq_of_toNat_eq hop.symm)

/-- R72: the width that the decoder admits is the width of the command. -/
theorem width_of_commandOf {w : BitVec 3} {i : Instr} (h : commandOf i.opcode w = some i)
    (hw : widthAdmitted i.opcode w = true) : i.width = w := by
  cases i with
  | b91Enc v => exact (Instr.b91Enc.inj (Option.some.inj h)).symm
  | b91Dec v => exact (Instr.b91Dec.inj (Option.some.inj h)).symm
  | _ => exact (eq_of_beq hw).symm

/-- R91: a word that decodes passes the three checks. -/
theorem checks_of_decode {c : Word} {i : Instr} (h : decode c = .ok i) :
    resField c = 0 ∧ commandOf (opField c) (wField c) = some i ∧ widthAdmitted (opField c) (wField c) = true := by
  unfold decode at h
  split at h
  · cases h
  · rename_i hres
    split at h
    · cases h
    · rename_i j hop
      split at h
      · rename_i hw
        cases h
        exact ⟨not_not.mp hres, hop, hw⟩
      · cases h

/-- R91: a word that passes the three checks decodes. -/
theorem decode_ok {c : Word} {i : Instr} (hr : resField c = 0) (ho : commandOf (opField c) (wField c) = some i)
    (hw : widthAdmitted (opField c) (wField c) = true) : decode c = .ok i := by
  simp [decode, hr, ho, hw]

/-! ### The obligations -/

/-- Settles O1: the fields of the encoded word pass the three checks of the decoder. -/
theorem decodeOfEncodeGivesCommand : Obligations.DecodeOfEncodeGivesCommand := by
  intro i hwf
  obtain ⟨hop, hw, hres, hcommand⟩ := encodeFields i
  refine decode_ok hres ?_ ?_
  · rw [hop, hw, hcommand]
  · rw [hop, hw, widthAdmitted_opcode, hwf]

/-- Settles O3: the fields of the encoded word are OP, W and no reserved bit. -/
theorem commandWordIsOpPlusWidth : Obligations.CommandWordIsOpPlusWidth := by
  intro i
  obtain ⟨hop, hw, hres, -⟩ := encodeFields i
  rw [toNat_of_resField_eq_zero hres, hop, hw]

/-- Settles O2: OP and W of the word are those of the command, and RES is 0, so the two words have the same fields. -/
theorem encodeOfDecodeGivesWord : Obligations.EncodeOfDecodeGivesWord := by
  intro c i h
  obtain ⟨hres, hcommand, hadmitted⟩ := checks_of_decode h
  have hop := opcode_of_commandOf hcommand
  rw [← hop] at hcommand hadmitted
  have hw := width_of_commandOf hcommand hadmitted
  refine ⟨by rw [← widthAdmitted_opcode, hw, hadmitted], BitVec.eq_of_toNat_eq ?_⟩
  rw [commandWordIsOpPlusWidth, toNat_of_resField_eq_zero hres, hop, hw]

/-- Settles O4: closed words, evaluated. -/
theorem wordsOfEachFamilyDecode : Obligations.WordsOfEachFamilyDecode := by
  unfold Obligations.WordsOfEachFamilyDecode
  decide

end Sys2Proof.Proofs

/-! The family of 40_command_cycle.md, continued: the engine step (R87, R88, R91) and what a step refuses (R53, R260).
First what the engine and the host's events do to a busy block, then the obligations. -/

namespace Sys2Proof.Proofs

open Sys2Proof.Machine Sys2Proof.Laws

/-! ### The engine step (R87, R88, R91) -/

/-- R88: however a command ends, it is no longer pending and it is done. -/
theorem ends_completed {i : Instr} {s t : State} (h : Ends i s t) : t.pend = none ∧ t.status.done = true := by
  cases h <;> exact ⟨rfl, rfl⟩

/-- R91: an illegal word completes with its raise. -/
theorem execIllegal_eq (e : Illegal) (s : State) : execIllegal e s = .next (raisedState s (illegalRaise e)) := rfl

/-- R88: the engine step completes whatever word is pending. -/
theorem engineStep_completes (c : Word) (s : State) :
    ∃ t, engineStep c s = .next t ∧ t.pend = none ∧ t.status.done = true := by
  unfold engineStep
  split
  · obtain ⟨t, hexec, hends⟩ := exec_ends _ s.sampleNow
    exact ⟨t, hexec, ends_completed hends⟩
  · exact ⟨_, execIllegal_eq _ _, rfl, rfl⟩

/-- R87: a due word is run by the engine. -/
theorem step_engine {s : State} {c : Word} (hr : s.rst = false) (hp : s.pend = some c) (hd : s.delay = 0) :
    step s = engineStep c s := by
  simp [step, hr, hp, hd]

/-- R91: a due word that does not decode completes with its raise. -/
theorem step_illegal {s : State} {c : Word} {e : Illegal} (hr : s.rst = false) (hp : s.pend = some c)
    (hd : s.delay = 0) (he : decode c = .error e) : step s = .next (raisedState s.sampleNow (illegalRaise e)) := by
  rw [step_engine hr hp hd, engineStep, he]
  rfl

/-- R267: while LATENCY has not passed, the host has its turn. -/
theorem step_waiting {s : State} {c : Word} (hr : s.rst = false) (hp : s.pend = some c) (hd : s.delay ≠ 0) :
    step s = hostTurn s.tick := by
  simp [step, hr, hp, hd]

/-! ### Illegal words (R72 to R74) -/

/-- The OP values R71 leaves out (R74). -/
def reservedOps : List (Nat × Nat) := [(0x01, 0x0F), (0x1A, 0x1F), (0x24, 0x2F), (0x36, 0x3F), (0x44, 0xFF)]

/-- R71, R74: an OP names no command exactly where it is reserved. -/
theorem commandOf_eq_none_iff (op : Byte) (w : BitVec 3) :
    commandOf op w = none ↔ ∃ r ∈ reservedOps, r.1 ≤ op.toNat ∧ op.toNat ≤ r.2 := by
  have hlt := op.isLt
  simp only [reservedOps, List.mem_cons, List.not_mem_nil, or_false, exists_eq_or_imp, exists_eq_left]
  unfold commandOf
  split
  case h_26 =>
    simp only [imp_false] at *
    simp only [true_iff]
    omega
  all_goals
    rename_i hop
    simp [hop]

/-- R91: the check of OP comes second. -/
theorem decode_opcode {c : Word} (hr : resField c = 0) (ho : commandOf (opField c) (wField c) = none) :
    decode c = .error (.opcode (opField c)) := by
  simp [decode, hr, ho]

/-- R72: the widths each OP admits, in numbers. -/
theorem widthAdmitted_eq_true_iff (op : Byte) (w : BitVec 3) : widthAdmitted op w = true ↔
    if op.toNat ∈ [0x10, 0x11] then w.toNat ∈ [1, 2, 4] else w.toNat = 0 := by
  have hop : (op == 0x10 || op == 0x11) = decide (op.toNat ∈ [0x10, 0x11]) := by
    revert op
    decide
  rw [widthAdmitted, hop]
  simp only [decide_eq_true_eq]
  split
  · revert w
    decide
  · revert w
    decide

/-! ### A host event on a busy block (R51, R86) -/

/-- R51: a supported access reaches a target. -/
theorem accessTarget_of_supported {s : State} {size : AccessSize} {addr : Nat} (hr : s.rst = false)
    (hb : inBlock s.params addr = true) (ht : (targetOf size (addr - s.params.base)).isSome) :
    ∃ t, accessTarget s size addr = .ok t := by
  obtain ⟨t, ht⟩ := Option.isSome_iff_exists.mp ht
  exact ⟨t, by simp [accessTarget, hr, hb, ht]⟩

/-- What a supported access leaves of a busy block (R86): the pending command and its LATENCY, the level of RST, the
parameters and the events to come. -/
def KeepsPending (s t : State) : Prop :=
  t.rst = s.rst ∧ t.pend = s.pend ∧ t.delay = s.delay ∧ t.inputs = s.inputs ∧ t.params = s.params

theorem hostRead_keepsPending (s : State) (t : Target) : KeepsPending s (s.hostRead t) := by
  obtain ⟨v, draws, h⟩ := hostRead_reply s t
  rw [h]
  exact ⟨rfl, rfl, rfl, rfl, rfl⟩

theorem hostWrite_keepsPending {s : State} {c : Word} (v : Word) (t : Target) (hp : s.pend = some c) :
    KeepsPending s (s.hostWrite v t) := by
  by_cases ht : t = .register 0x008
  · rw [ht, hostWrite_status, writeStatus_eq]
    exact ⟨rfl, rfl, rfl, rfl, rfl⟩
  · rw [hostWrite_busy v hp ht]
    exact ⟨rfl, rfl, rfl, rfl, rfl⟩

/-- R86: a supported access to a busy block is taken and keeps the command pending. -/
theorem hostEvent_keepsPending {s : State} {c : Word} {e : HostEvent} (hr : s.rst = false) (hp : s.pend = some c)
    (he : e.supported s.params) : ∃ t, hostEvent s e = .next t ∧ KeepsPending s t := by
  cases e with
  | read size addr =>
    obtain ⟨t, ht⟩ := accessTarget_of_supported hr he.1 he.2
    exact ⟨_, hostEvent_read ht, hostRead_keepsPending s t⟩
  | write size addr v =>
    obtain ⟨t, ht⟩ := accessTarget_of_supported hr he.1 he.2
    exact ⟨_, hostEvent_write v ht, hostWrite_keepsPending v t hp⟩
  | rst level => exact he.elim

/-- R86, R268: one step of a busy block whose command is not due. -/
theorem step_keepsPending {s : State} {c : Word} {d : Nat} (hr : s.rst = false) (hp : s.pend = some c)
    (hd : s.delay = d + 1) (hs : ∀ e ∈ s.inputs, e.supported s.params) :
    ∃ t, step s = .next t ∧ t.rst = false ∧ t.pend = some c ∧ t.delay = d ∧
      ∀ e ∈ t.inputs, e.supported t.params := by
  rw [step_waiting hr hp (by omega), hostTurn]
  cases hi : s.tick.inputs with
  | nil => exact ⟨s.tick, rfl, hr, hp, by simp [hd], hs⟩
  | cons e rest =>
    have hi' : s.inputs = e :: rest := hi
    obtain ⟨t, ht, hrst, hpend, hdelay, hinputs, hparams⟩ :=
      hostEvent_keepsPending (s := { s.tick with inputs := rest }) hr hp (hs e (by simp [hi']))
    refine ⟨t, ht, hrst.trans hr, hpend.trans hp, by simp [hdelay, hd], fun e' he' => ?_⟩
    rw [hparams]
    rw [hinputs] at he'
    exact hs e' (by simp [hi', he'])

/-- A run goes on from the state that its first step answers. -/
theorem run_of_step {s u : State} (h : step s = .next u) (k : Nat) :
    Host.Core.run Sys2Proof.core (k + 1) s = Host.Core.run Sys2Proof.core k u := by
  have hstep : Sys2Proof.core.step s = .next u := h
  simp only [Host.Core.run, hstep]

/-! ### What a step refuses (R53, R260) -/

/-- R53, R260: why an access has no target. -/
theorem accessTarget_error {s : State} {size : AccessSize} {addr : Nat} {r : Refusal}
    (h : accessTarget s size addr = .error r) : (s.rst = true ∧ r = .accessDuringReset) ∨
      (s.rst = false ∧ ¬ (inBlock s.params addr = true ∧ (targetOf size (addr - s.params.base)).isSome)
        ∧ (r = .unsupportedAccess ∨ r = .outsideBlockSpace)) := by
  unfold accessTarget at h
  split at h
  · rename_i hrst
    cases h
    exact .inl ⟨hrst, rfl⟩
  · rename_i hrst
    right
    refine ⟨by simpa using hrst, ?_⟩
    split at h
    · split at h
      · cases h
      · rename_i hnone
        cases h
        exact ⟨fun hs => by simp [hnone] at hs, .inl rfl⟩
    · rename_i hout
      cases h
      exact ⟨fun hs => hout hs.1, .inr rfl⟩

/-- A refused read has no target. -/
theorem accessTarget_of_read_refused {s : State} {size : AccessSize} {addr : Nat} {r : Refusal}
    (h : hostEvent s (.read size addr) = .refused r) : accessTarget s size addr = .error r := by
  cases ht : accessTarget s size addr with
  | ok t => rw [hostEvent_read ht] at h; cases h
  | error q => simpa [hostEvent, ht] using h

/-- A refused write has no target. -/
theorem accessTarget_of_write_refused {s : State} {size : AccessSize} {addr : Nat} {v : Word} {r : Refusal}
    (h : hostEvent s (.write size addr v) = .refused r) : accessTarget s size addr = .error r := by
  cases ht : accessTarget s size addr with
  | ok t => rw [hostEvent_write v ht] at h; cases h
  | error q => simpa [hostEvent, ht] using h

/-- A refused event is an access, and it is refused while RST is asserted or as unsupported. -/
theorem hostEvent_refused {s : State} {e : HostEvent} {r : Refusal} (h : hostEvent s e = .refused r) :
    (∀ level, e ≠ .rst level) ∧ ((s.rst = true ∧ r = .accessDuringReset)
      ∨ (s.rst = false ∧ ¬ e.supported s.params ∧ (r = .unsupportedAccess ∨ r = .outsideBlockSpace))) := by
  cases e with
  | read size addr =>
    exact ⟨fun _ => HostEvent.noConfusion, accessTarget_error (accessTarget_of_read_refused h)⟩
  | write size addr v =>
    exact ⟨fun _ => HostEvent.noConfusion, accessTarget_error (accessTarget_of_write_refused h)⟩
  | rst level => cases level <;> cases h

/-- The turn of the host is refused only at its next event. -/
theorem hostTurn_refused {s : State} {r : Refusal} (h : hostTurn s = .refused r) :
    ∃ e rest, s.inputs = e :: rest ∧ hostEvent { s with inputs := rest } e = .refused r := by
  unfold hostTurn at h
  split at h
  · cases h
  · rename_i e rest hi
    exact ⟨e, rest, hi, h⟩

/-- R88: the engine refuses nothing, so a refusal is the host's turn, LATENCY counted or not. -/
theorem step_refused {s : State} {r : Refusal} (h : step s = .refused r) :
    hostTurn s = .refused r ∨ hostTurn s.tick = .refused r := by
  unfold step at h
  split at h
  · exact .inl h
  · split at h
    · exact .inl h
    · split at h
      · obtain ⟨t, ht, -⟩ := engineStep_completes _ s
        rw [ht] at h
        cases h
      · exact .inr h

/-! ### The obligations -/

/-- Settles O5: a due word that decodes is executed after the sample; the word of a well-formed command decodes to it. -/
theorem stepExecutesPendingCommand : Obligations.StepExecutesPendingCommand := by
  refine ⟨fun s c i hr hp hd hi => step_due hr hp hd hi, fun s i hwf => ?_⟩
  have hword : BitVec.ofNat 64 ((encode i).toNat % 2 ^ 64) = encode i := by
    rw [Nat.mod_eq_of_lt (encode i).isLt, BitVec.ofNat_toNat, BitVec.setWidth_eq]
  have hfetch : s.withFetchWord 64 (encode i).toNat = { s.accept (encode i) 0 with rst := false } := by
    rw [State.withFetchWord, hword]
  rw [hfetch, step_due (c := encode i) rfl rfl rfl (decodeOfEncodeGivesCommand i hwf)]
  rfl

/-- Settles O6: each range of words fails one check of the decoder, and the engine completes it with that raise. -/
theorem illegalWordWritesOnlyStatus : Obligations.IllegalWordWritesOnlyStatus := by
  intro s c hr hp hd
  have hop256 : (opField c).toNat = c.toNat % 256 := opField_toNat c
  have hfields (h : c.toNat / 2 ^ 11 = 0) : resField c = 0 ∧ (wField c).toNat = c.toNat / 256 := by
    refine ⟨BitVec.eq_of_toNat_eq ((resField_toNat c).trans h), ?_⟩
    rw [wField_toNat]
    omega
  refine ⟨fun hres => ?_, fun hres hop => ?_, fun hres hop hw => ?_⟩
  · have hne : resField c ≠ 0 := fun h => hres (by rw [← resField_toNat, h]; rfl)
    rw [step_illegal hr hp hd (decode_reserved hne)]
    rfl
  · have hnone := (commandOf_eq_none_iff (opField c) (wField c)).mpr (by rw [hop256]; exact hop)
    rw [step_illegal hr hp hd (decode_opcode (hfields hres).1 hnone), ← hop256]
    rfl
  · obtain ⟨hzero, hwidth⟩ := hfields hres
    have hsome : commandOf (opField c) (wField c) ≠ none := fun h => by
      obtain ⟨r, hr, hin⟩ := (commandOf_eq_none_iff _ _).mp h
      rw [hop256] at hin
      exact hop r hr hin
    obtain ⟨i, hi⟩ := Option.ne_none_iff_exists'.mp hsome
    have hbad : widthAdmitted (opField c) (wField c) = false := by
      rw [← Bool.not_eq_true, widthAdmitted_eq_true_iff, hop256, hwidth]
      split at hw
      · rwa [if_pos ‹_›]
      · rwa [if_neg ‹_›]
    rw [step_illegal hr hp hd (decode_width hzero hi hbad), ← hwidth, ← hop256]
    rfl

/-- Settles O10: every way a command ends is a completion. -/
theorem execAlwaysCompletes : Obligations.ExecAlwaysCompletes := by
  intro i s
  obtain ⟨t, hexec, hends⟩ := exec_ends i s
  exact ⟨t, hexec, ends_completed hends⟩

/-- Settles O9, by induction on LATENCY: each step before the last keeps the command pending, the last runs it. -/
theorem everyAcceptedCommandCompletes : Obligations.EveryAcceptedCommandCompletes := by
  intro s c hr hp hs
  generalize hd : s.delay = d
  induction d generalizing s with
  | zero =>
    obtain ⟨t, ht, hdone⟩ := engineStep_completes c s
    refine ⟨t, ?_, hdone⟩
    exact run_of_step ((step_engine hr hp hd).trans ht) 0
  | succ d ih =>
    obtain ⟨u, hu, hr', hp', hd', hs'⟩ := step_keepsPending hr hp hd hs
    obtain ⟨t, ht, hdone⟩ := ih u hr' hp' hs' hd'
    exact ⟨t, (run_of_step hu (d + 1)).trans ht, hdone⟩

/-- Settles O11: only the host's turn can be refused, and only at an access without a target. -/
theorem onlyUnsupportedAccessesAreRefused : Obligations.OnlyUnsupportedAccessesAreRefused := by
  intro s r h
  rcases step_refused h with h | h
  · obtain ⟨e, rest, hi, he⟩ := hostTurn_refused h
    exact ⟨e, rest, hi, hostEvent_refused (s := { s with inputs := rest }) he⟩
  · obtain ⟨e, rest, hi, he⟩ := hostTurn_refused h
    exact ⟨e, rest, hi, hostEvent_refused (s := { s.tick with inputs := rest }) he⟩

end Sys2Proof.Proofs

/-! The families of 20_memory.md and 70_reset_and_hazards.md: the host port of an idle block (R23, R41, R51 to R56) and
RST (R45, R260). First the rules of accesses, registers and buffer bytes, then the obligations. -/

namespace Sys2Proof.Proofs

open Sys2Proof.Machine Sys2Proof.Laws

/-! ### The target of an access (R50 to R53) -/

/-- R50: an address below BASE or at offset 0x3000 or above is outside the block space. -/
theorem accessTarget_outside {s : State} (size : AccessSize) {addr : Nat} (hr : s.rst = false)
    (ha : addr < s.params.base ∨ s.params.base + 0x3000 ≤ addr) :
    accessTarget s size addr = .error .outsideBlockSpace := by
  have hout : ¬ inBlock s.params addr = true := fun hin => by
    simp only [inBlock, Bool.and_eq_true, decide_eq_true_eq] at hin
    rw [blockSize] at hin
    omega
  simp [accessTarget, hr, hout]

/-- R53: an access in the block space of a shape that reaches nothing. -/
theorem accessTarget_shape {s : State} {size : AccessSize} {addr : Nat} (hr : s.rst = false)
    (hlo : s.params.base ≤ addr) (hhi : addr < s.params.base + 0x3000)
    (ht : targetOf size (addr - s.params.base) = none) : accessTarget s size addr = .error .unsupportedAccess := by
  have hin : inBlock s.params addr = true := by simp [inBlock, blockSize, hlo, hhi]
  simp [accessTarget, hr, hin, ht]

/-- R53: the shapes that reach nothing. -/
theorem targetOf_eq_none {size : AccessSize} {off : Nat}
    (h : size = .b16 ∨ size = .b32 ∨ (size = .b8 ∧ off < 0x1000) ∨ (size = .b64 ∧ off % 8 ≠ 0)) :
    targetOf size off = none := by
  rcases h with rfl | rfl | ⟨rfl, h⟩ | ⟨rfl, h⟩
  · rfl
  · rfl
  · exact if_neg fun hin => absurd hin.1 (Nat.not_le.mpr h)
  · exact if_pos h

/-- An access without a target is refused, read or write. -/
theorem hostEvent_of_accessTarget_error {s : State} {size : AccessSize} {addr : Nat} {r : Refusal} (v : Word)
    (h : accessTarget s size addr = .error r) :
    hostEvent s (.read size addr) = .refused r ∧ hostEvent s (.write size addr v) = .refused r := by
  simp [hostEvent, h]

/-- R260, U4: an access during RST is refused, whatever its shape. -/
theorem hostEvent_during_reset {s : State} {e : HostEvent} (hr : s.rst = true) (he : ∀ level, e ≠ .rst level) :
    hostEvent s e = .refused .accessDuringReset := by
  have ht (size : AccessSize) (addr : Nat) : accessTarget s size addr = .error .accessDuringReset := by
    simp [accessTarget, hr]
  cases e with
  | read size addr => exact (hostEvent_of_accessTarget_error 0 (ht size addr)).1
  | write size addr v => exact (hostEvent_of_accessTarget_error v (ht size addr)).2
  | rst level => exact absurd rfl (he level)

/-! ### Steps that are the host's turn (log 4, log 5, log 7) -/

/-- While RST is asserted the host and the platform act. -/
theorem step_during_reset {s : State} {e : HostEvent} {rest : List HostEvent} (hr : s.rst = true)
    (hi : s.inputs = e :: rest) : step s = hostEvent { s with inputs := rest } e := by
  simp [step, hostTurn, hr, hi]

/-- Where no command is due, the next event is taken; a command that waits has its LATENCY counted down. -/
theorem step_event {s : State} {e : HostEvent} {rest : List HostEvent}
    (h : s.rst = true ∨ s.pend = none ∨ s.delay ≠ 0) (hi : s.inputs = e :: rest) :
    ∃ d, step s = hostEvent { s with delay := d, inputs := rest } e := by
  by_cases hr : s.rst = true
  · exact ⟨s.delay, step_during_reset hr hi⟩
  · rw [Bool.not_eq_true] at hr
    by_cases hp : s.pend = none
    · exact ⟨s.delay, step_idle hr hp hi⟩
    · obtain ⟨c, hc⟩ := Option.ne_none_iff_exists'.mp hp
      have hd : s.delay ≠ 0 := by simpa [hr, hp] using h
      exact ⟨s.delay - 1, by simp [step_waiting hr hc hd, hostTurn, hi, State.tick]⟩

/-- R260: RST asserted puts every register of the map to 0. -/
theorem readReg_assertReset (s : State) (r : Reg) : s.assertReset.readReg r = 0 := by
  rw [← readReg_resetWith s.params r]
  cases r <;> rfl

/-! ### Reads of an idle block (R56) -/

/-- R86: no read of an idle block is a free value. -/
theorem readIsFree_idle {s : State} (t : Target) (hp : s.pend = none) : s.readIsFree t = false := by
  have hb : s.busy = false := by simp [State.busy, hp]
  cases t with
  | register off =>
    unfold State.readIsFree
    simp only [hb]
    split <;> rfl
  | buffer off n => exact hb

/-- R56: a read of an idle block adds its reply. -/
theorem hostRead_idle {s : State} (t : Target) (hp : s.pend = none) :
    s.hostRead t = { s with replies := s.replies ++ [s.readValue t] } := by
  simp [State.hostRead, readIsFree_idle t hp]

/-! ### Reserved offsets (R52) -/

/-- R52: a reserved register offset reads 0. -/
theorem readValue_reserved {s : State} {off : Nat} (h : regAt s.params.maxAddr off = none) :
    s.readValue (.register off) = 0 := by
  simp [State.readValue, h]

/-- R52: a reserved register offset ignores a write. -/
theorem hostWrite_reserved {s : State} {off : Nat} (v : Word) (hp : s.pend = none)
    (h : regAt s.params.maxAddr off = none) : s.hostWrite v (.register off) = s := by
  rw [hostWrite_register hp, h]

/-- R52: a byte outside the buffers reads 0. -/
theorem bufRead_reserved {s : State} {a : Nat} (h : inBuffer s.params a = false) : s.bufRead a = 0 := by
  simp [State.bufRead, h]

/-- R44: a byte of a buffer reads as it is. -/
theorem bufRead_inBuffer {s : State} {a : Nat} (h : inBuffer s.params a = true) : s.bufRead a = s.readByte a := by
  simp [State.bufRead, h]

/-- An 8-bit write is one byte write. -/
theorem hostWrite_byte {s : State} (v : Word) (a : Nat) (hp : s.pend = none) :
    s.hostWrite v (.buffer a 1) = s.bufWrite a (leByte v 0) := hostWrite_buffer hp

/-! ### Buffer bytes (R51, R54, R55) -/

/-- R54: byte `k` of a value. -/
theorem leByte_toNat (v : Word) (k : Nat) : (leByte v k).toNat = v.toNat / 2 ^ (8 * k) % 2 ^ 8 := by
  simp [leByte, Nat.shiftRight_eq_div_pow]

/-- A byte written to a buffer offset reads back. -/
theorem bufRead_bufWriteAll {s : State} {a k : Nat} {xs : List Byte} (hk : k < xs.length)
    (h : inBuffer s.params (a + k) = true) : (s.bufWriteAll a xs).bufRead (a + k) = xs[k] := by
  rw [bufWriteAll_eq, State.bufRead, if_pos h, State.readByte, find_bufWriteAll, dif_pos ⟨by omega, by omega, h⟩]
  simp

/-- R54: bytes written to buffer offsets read back as their little-endian value. -/
theorem readValue_bufWriteAll {s : State} {a : Nat} {xs : List Byte}
    (h : ∀ k < xs.length, inBuffer s.params (a + k) = true) :
    (s.bufWriteAll a xs).readValue (.buffer a xs.length) = leWord xs := by
  refine congrArg leWord (List.ext_getElem (by simp) fun k _ hk => ?_)
  rw [List.getElem_map, List.getElem_range, bufRead_bufWriteAll hk (h k hk)]

/-- An 8-bit write of a zero-extended byte is that byte's write (log 16). -/
theorem hostWrite_setWidth {s : State} (b : Byte) (a : Nat) (hp : s.pend = none) :
    s.hostWrite (b.setWidth 64) (.buffer a 1) = s.bufWrite a b := by
  have hb : leByte (b.setWidth 64) 0 = b := BitVec.eq_of_toNat_eq (by
    rw [leByte_toNat, BitVec.toNat_setWidth]
    omega)
  rw [hostWrite_byte _ a hp, hb]

@[simp] theorem bufWrite_pend (s : State) (a : Nat) (b : Byte) : (s.bufWrite a b).pend = s.pend := by
  rw [bufWrite_eq]

/-! ### The bits a register stores (R41) -/

/-- A register of the low `n` bits: what is written to it is kept in them, and every other bit reads 0. -/
def StoresLow (r : Reg) (n : Nat) : Prop :=
  ∀ (s : State) (v : Word), (∀ i, r = .addrCall i ∨ r = .addrMeta i → i < s.addrs.length) →
    ((s.writeReg v r).readReg r).toNat = v.toNat % 2 ^ n ∧ (s.readReg r).toNat < 2 ^ n

/-- A register of which every bit is stored. -/
theorem storesLow_word {r : Reg} (h : ∀ (s : State) (v : Word), (s.writeReg v r).readReg r = v) : StoresLow r 64 :=
  fun s v _ => ⟨by rw [h, Nat.mod_eq_of_lt v.isLt], (s.readReg r).isLt⟩

/-- A bit of a written value, as a number. -/
theorem getLsbD_toNat (v : Word) (i : Nat) : (v.getLsbD i).toNat = v.toNat / 2 ^ i % 2 := Nat.toNat_testBit _ _

theorem storesLow_pFlags : StoresLow .pFlags 6 := by
  intro s v _
  refine ⟨?_, ?_⟩
  · simp only [State.writeReg, State.readReg, pointFlags_word_toNat, PointFlags.ofWord, BitVec.extractLsb'_toNat,
      Nat.shiftRight_eq_div_pow]
    rw [getLsbD_toNat]
    omega
  · simp only [State.readReg, pointFlags_word_toNat]
    have := Bool.toNat_lt s.point.flags.msgcap
    omega

theorem storesLow_pSym : StoresLow .pSym 16 := by
  intro s v _
  refine ⟨?_, ?_⟩
  · simp only [State.writeReg, State.readReg, symbol_word_toNat, Symbol.ofWord, BitVec.extractLsb'_toNat,
      Nat.shiftRight_eq_div_pow]
    omega
  · simp only [State.readReg, symbol_word_toNat]
    omega

theorem storesLow_naddr : StoresLow .naddr 8 := by
  intro s v _
  simp only [State.writeReg, State.readReg, BitVec.toNat_setWidth]
  omega

/-- Entry `i` after a write to it. -/
theorem entry_set_same {s : State} {i : Nat} (e : AddrEntry) (h : i < s.addrs.length) :
    { s with addrs := s.addrs.set i e }.entry i = e := by
  simp [State.entry, List.getD_eq_getElem?_getD, h]

theorem storesLow_addrCall (i : Nat) : StoresLow (.addrCall i) 48 := by
  intro s v hi
  simp only [State.writeReg, State.readReg, entry_set_same _ (hi i (.inl rfl)), BitVec.toNat_setWidth]
  omega

theorem storesLow_addrMeta (i : Nat) : StoresLow (.addrMeta i) 20 := by
  intro s v hi
  refine ⟨?_, ?_⟩
  · simp only [State.writeReg, State.readReg, entry_set_same _ (hi i (.inr rfl)), addrMeta_word_toNat, AddrMeta.ofWord,
      BitVec.extractLsb'_toNat, Nat.shiftRight_eq_div_pow, getLsbD_toNat]
    omega
  · simp only [State.readReg, addrMeta_word_toNat]
    have := Bool.toNat_lt (s.entry i).info.ch
    have := Bool.toNat_lt (s.entry i).info.last
    omega

/-- The mask of the low `n` bits. -/
def lowMask (n : Nat) : Word := BitVec.ofNat 64 (2 ^ n - 1)

theorem and_lowMask_toNat (v : Word) {n : Nat} (hn : n ≤ 64) : (v &&& lowMask n).toNat = v.toNat % 2 ^ n := by
  have hlt : 2 ^ n - 1 < 2 ^ 64 := lt_of_lt_of_le (Nat.sub_one_lt (by positivity)) (Nat.pow_le_pow_right (by decide) hn)
  rw [BitVec.toNat_and, lowMask, BitVec.toNat_ofNat, Nat.mod_eq_of_lt hlt, Nat.and_two_pow_sub_one_eq_mod]

/-- What O16 says of a register at offset `off` whose bits are those of `mask`. -/
def KeepsMasked (s : State) (v : Word) (off : Nat) (mask : Word) : Prop :=
  (s.hostWrite v (.register off)).readValue (.register off) = v &&& mask
    ∧ s.readValue (.register off) &&& ~~~ mask = 0
    ∧ ∀ off' ≠ off, (s.hostWrite v (.register off)).readValue (.register off') = s.readValue (.register off')

/-- R41, R56: a write to a register of an idle block stores its low bits and changes no other register. -/
theorem keepsMasked_of_storesLow {s : State} {v : Word} {off n : Nat} {r : Reg} (hp : s.pend = none)
    (hreg : regAt s.params.maxAddr off = some r) (hs : StoresLow r n) (hn : n ≤ 64) (hcmd : r ≠ .cmd)
    (hi : ∀ i, r = .addrCall i ∨ r = .addrMeta i → i < s.addrs.length) : KeepsMasked s v off (lowMask n) := by
  have hwrite : s.hostWrite v (.register off) = s.writeReg v r := by rw [hostWrite_register hp, hreg]
  have hparams : (s.writeReg v r).params = s.params := writeReg_params s v r
  obtain ⟨hstored, hread⟩ := hs s v hi
  refine ⟨BitVec.eq_of_toNat_eq ?_, ?_, fun off' hne => ?_⟩
  · rw [hwrite, readValue_register (by rw [hparams, hreg]), hstored, and_lowMask_toNat v hn]
  · have hlow : s.readReg r &&& lowMask n = s.readReg r :=
      BitVec.eq_of_toNat_eq (by rw [and_lowMask_toNat _ hn, Nat.mod_eq_of_lt hread])
    rw [readValue_register hreg, ← hlow, BitVec.and_assoc, BitVec.and_not_self]
    exact BitVec.and_zero
  · rw [hwrite]
    cases hq : regAt s.params.maxAddr off' with
    | none => rw [readValue_reserved hq, readValue_reserved (by rw [hparams, hq])]
    | some q =>
      have hqr : q ≠ r := fun h => hne (regAt_inj (h ▸ hq) hreg)
      rw [readValue_register hq, readValue_register (by rw [hparams, hq]), readReg_writeReg_ne s v r q hcmd hqr hi]

/-- A register outside the address table that an idle block stores as written; CMD is accepted instead. -/
def fixedReg : Reg → Bool
  | .cmd | .addrCall _ | .addrMeta _ => false
  | _ => true

/-- R41, R56: a register outside the address table needs no premise on the table. -/
theorem keepsMasked_of_fixed {s : State} {v : Word} {off n : Nat} {r : Reg} (hp : s.pend = none)
    (hreg : regAt s.params.maxAddr off = some r) (hs : StoresLow r n) (hn : n ≤ 64) (hr : fixedReg r = true) :
    KeepsMasked s v off (lowMask n) :=
  keepsMasked_of_storesLow hp hreg hs hn (by rintro rfl; cases hr) fun i hi => by
    rcases hi with rfl | rfl <;> cases hr

/-! ### The obligations -/

/-- Settles O14: every register reads 0 after reset, at whatever offset it stands. -/
theorem resetRegistersReadZero : Obligations.ResetRegistersReadZero :=
  fun p _ r _ => ⟨readReg_resetWith p r, rfl⟩

/-- Settles O15: where no command is due the event is taken, and asserting RST leaves the reset state. -/
theorem assertingRstResetsTheBlock : Obligations.AssertingRstResetsTheBlock := by
  refine ⟨fun s rest h hi => ?_, fun s e rest hr hi he => ?_, fun s rest hr hi => ?_⟩
  · obtain ⟨d, hd⟩ := step_event h hi
    exact ⟨_, hd, rfl, rfl, rfl, rfl, fun _ r _ => readReg_assertReset _ r, fun _ => rfl⟩
  · rw [step_during_reset hr hi]
    exact hostEvent_during_reset (s := { s with inputs := rest }) hr he
  · rw [step_during_reset hr hi]
    rfl

/-- Settles O19: a reserved register offset is no register, and a reserved byte is skipped byte by byte. -/
theorem reservedOffsetsReadZero : Obligations.ReservedOffsetsReadZero := by
  refine fun s v hp => ⟨fun off h => ⟨readValue_reserved h, hostWrite_reserved v hp h⟩, fun off h => ⟨?_, ?_⟩,
    fun off k hk h => ⟨?_, ?_⟩⟩
  · exact BitVec.eq_of_toNat_eq (by rw [readValue_byte_toNat, bufRead_reserved h]; rfl)
  · rw [hostWrite_byte v off hp, State.bufWrite, if_neg (by simp [h])]
  · rw [readValue_word_byte s off k hk, bufRead_reserved h]
    rfl
  · rw [hostWrite_buffer hp, find_bufWriteAll, dif_neg (by simp [h])]

/-- Settles O20: an address outside the block space and a shape of R53 have no target. -/
theorem unsupportedAccessesAreRefused : Obligations.UnsupportedAccessesAreRefused := by
  refine fun s size addr v hr => ⟨fun ha => ?_, fun hlo hhi hshape => ?_⟩
  · exact hostEvent_of_accessTarget_error v (accessTarget_outside size hr ha)
  · refine hostEvent_of_accessTarget_error v (accessTarget_shape hr hlo hhi (targetOf_eq_none ?_))
    rwa [show addr - s.params.base < 0x1000 ↔ addr < s.params.base + 0x1000 by omega]

/-- Settles O17: a read of an idle block is defined, and a register reads as its value, with its fields at their bits. -/
theorem idleReadsHaveNoEffect : Obligations.IdleReadsHaveNoEffect := by
  refine ⟨fun s size addr t hp ht => ⟨?_, ?_⟩, fun s => ⟨?_, ?_, ?_, ?_, ?_, ?_, fun i hi => ⟨?_, ?_⟩⟩⟩
  · rw [hostEvent_read ht, hostRead_idle t hp]
  · rintro off r rfl hreg
    exact readValue_register hreg
  · simp only [List.forall_mem_cons]
    exact ⟨rfl, rfl, rfl, rfl, rfl, rfl, rfl, rfl, rfl, rfl, rfl, rfl, rfl, rfl, rfl, List.forall_mem_nil _⟩
  · exact statusWord_toNat s
  · exact pointFlags_word_toNat _
  · exact symbol_word_toNat _
  · exact frameHdr_word_toNat _
  · exact BitVec.toNat_setWidth_of_le (by decide)
  · rw [readValue_register (regAt_addrCall hi)]
    exact BitVec.toNat_setWidth_of_le (by decide)
  · rw [readValue_register (regAt_addrMeta hi)]
    exact addrMeta_word_toNat _

/-- Settles O18: a buffer write is its bytes in little-endian order, and a read of eight bytes is eight byte reads. -/
theorem bufferAccessesAreLittleEndian : Obligations.BufferAccessesAreLittleEndian := by
  refine ⟨fun s v a hp => ⟨fun k hk h => ?_, fun h => ?_, fun b hb => ?_, fun h => ?_, fun b hb => ?_,
    fun n => hostWrite_buffer_eq hp⟩, fun s a => ⟨fun h => ?_, fun k hk => ?_⟩,
    fun s a v0 v1 v2 v3 v4 v5 v6 v7 hp h => ?_⟩
  · rw [readValue_byte_toNat, hostWrite_buffer hp, bufRead_bufWriteAll (by simpa using hk) h]
    simp only [List.getElem_map, List.getElem_range, leByte_toNat]
  · rw [hostWrite_buffer hp]
    exact (readValue_bufWriteAll (xs := (List.range 8).map (leByte v)) h).trans (leWord_leByte v)
  · rw [readByte_hostWrite_buffer hp, if_neg (by omega)]
  · rw [readValue_byte_toNat, hostWrite_byte v a hp]
    have hread := bufRead_bufWriteAll (xs := [leByte v 0]) (k := 0) Nat.one_pos h
    exact (congrArg BitVec.toNat hread).trans ((leByte_toNat v 0).trans (by simp))
  · rw [readByte_hostWrite_buffer hp, if_neg (by omega)]
  · rw [readValue_byte_toNat, bufRead_inBuffer h]
  · rw [readValue_word_byte s a k hk, readValue_byte_toNat]
  · simp only [List.foldl_cons, List.foldl_nil, hostWrite_setWidth, bufWrite_pend, hp]
    rw [← leWord_eight]
    exact congrArg BitVec.toNat (readValue_bufWriteAll (xs := [v0, v1, v2, v3, v4, v5, v6, v7]) h)

/-- Settles O16: every register of the list keeps the low bits that its mask names, and no other register is written. -/
theorem registerWriteKeepsFieldsOnly : Obligations.RegisterWriteKeepsFieldsOnly := by
  refine ⟨fun s v hp htable => ⟨?_, ?_⟩, fun s hp => ⟨fun v => ?_, fun size addr v t ht => ?_, fun e rest hr hi => ?_⟩⟩
  · rw [List.forall_mem_append]
    refine ⟨?_, ?_⟩
    · have hword {off : Nat} (r : Reg) (hreg : regAt s.params.maxAddr off = some r)
          (hs : ∀ (s : State) (v : Word), (s.writeReg v r).readReg r = v) (hr : fixedReg r = true) :
          KeepsMasked s v off (lowMask 64) := keepsMasked_of_fixed hp hreg (storesLow_word hs) le_rfl hr
      simp only [List.forall_mem_cons]
      exact ⟨hword .ioff rfl (fun _ _ => rfl) rfl, hword .ilen rfl (fun _ _ => rfl) rfl,
        hword .val rfl (fun _ _ => rfl) rfl, hword .pLat rfl (fun _ _ => rfl) rfl, hword .pLon rfl (fun _ _ => rfl) rfl,
        hword .pAlt rfl (fun _ _ => rfl) rfl, hword .pCourse rfl (fun _ _ => rfl) rfl,
        hword .pSpeed rfl (fun _ _ => rfl) rfl, hword .pRange rfl (fun _ _ => rfl) rfl,
        keepsMasked_of_fixed hp rfl storesLow_pFlags (by decide) rfl, hword .pTime rfl (fun _ _ => rfl) rfl,
        keepsMasked_of_fixed hp rfl storesLow_pSym (by decide) rfl, hword .now rfl (fun _ _ => rfl) rfl,
        keepsMasked_of_fixed hp rfl storesLow_naddr (by decide) rfl, List.forall_mem_nil _⟩
    · simp only [List.mem_flatMap, List.mem_range, List.mem_cons, List.not_mem_nil, or_false]
      rintro m ⟨i, hi, rfl | rfl⟩
      · refine keepsMasked_of_storesLow hp (regAt_addrCall hi) (storesLow_addrCall i) (by decide) (by simp) ?_
        simpa [htable] using hi
      · refine keepsMasked_of_storesLow hp (regAt_addrMeta hi) (storesLow_addrMeta i) (by decide) (by simp) ?_
        simpa [htable] using hi
  · simp only [List.forall_mem_cons]
    refine ⟨?_, ?_, ?_, ?_, List.forall_mem_nil _⟩ <;> rw [hostWrite_register hp] <;> rfl
  · rw [hostWrite_status, writeStatus_eq]
  · exact hostEvent_write v ht
  · exact step_idle hr hp hi

end Sys2Proof.Proofs

/-! The families of 41_base91.md and 43_aprs_position.md, continued: LAT.DEC and LON.DEC (R109, R110) and the position
decoders (R151 to R154, R158 to R161). First what each decoder does with a matching window, then the obligations. -/

namespace Sys2Proof.Proofs

open Sys2Proof.Machine Sys2Proof.Laws

/-! ### A window that does not match (R152) -/

theorem exec_aprsDecU_unmatched {s : State} (hw : s.windowOk) (h : ¬ s.patternU) :
    exec .aprsDecU s = .next s.unmatched := by
  simp only [exec, execAprsDecU, checkWindow_ok hw, if_neg (mt (matchesU_iff s).mp h)]
  rfl

theorem exec_aprsDecT_unmatched {s : State} (hw : s.windowOk) (h : ¬ s.patternT) :
    exec .aprsDecT s = .next s.unmatched := by
  simp only [exec, execAprsDecT, checkWindow_ok hw, if_neg (mt (matchesT_iff s).mp h)]
  rfl

theorem exec_aprsDecC_unmatched {s : State} (hw : s.windowOk) (h : ¬ s.patternC) :
    exec .aprsDecC s = .next s.unmatched := by
  simp only [exec, execAprsDecC, checkWindow_ok hw, if_neg (mt (matchesC_iff s).mp h)]
  rfl

/-! ### A window that matches (R153, R158 to R160) -/

theorem exec_aprsDecU_matched {s : State} (hw : s.windowOk) (h : s.patternU) :
    exec .aprsDecU s = complete (s.matchedReport 20 9 19) (dmmPosition s 1 >>= fun p =>
      .ok { s.matchedReport 20 9 19 with point := untimedPoint s p.1 p.2 }) := by
  simp only [exec, execAprsDecU, checkWindow_ok hw, if_pos ((matchesU_iff s).mpr h)]

/-- The Point of a timestamped report (R159). -/
def timedPoint (s : State) (lat lon : Int) : Point :=
  { Point.zero with
    lat := signedWord lat, lon := signedWord lon, time := (timestamp s).2
    flags := { msgcap := s.inByte 0 == 0x40, tskind := (timestamp s).1, extra := extraNone } }

theorem exec_aprsDecT_matched {s : State} (hw : s.windowOk) (h : s.patternT) :
    exec .aprsDecT s = complete (s.matchedReport 27 16 26) (dmmPosition s 8 >>= fun p =>
      .ok { s.matchedReport 27 16 26 with point := timedPoint s p.1 p.2 }) := by
  simp only [exec, execAprsDecT, checkWindow_ok hw, if_pos ((matchesT_iff s).mpr h)]
  rfl

theorem exec_aprsDecC_matched {s : State} (hw : s.windowOk) (h : s.patternC) :
    exec .aprsDecC s = complete (s.matchedReport 14 1 10) (digitsFrom s .lat 4 2 0 >>= fun y =>
      digitsFrom s .lon 4 6 0 >>= fun x => extraClass (s.inByte 11) (s.inByte 12) (s.inByte 13) >>= fun e =>
        .ok { s.matchedReport 14 1 10 with point := (untimedPoint s (latValue y) (lonValue x)).withExtra e }) := by
  simp only [exec, execAprsDecC, checkWindow_ok hw, if_pos ((matchesC_iff s).mpr h)]

/-- R154: a matched decoder that does not raise leaves the report and its Point. -/
theorem completed_matchedReport (s : State) (n a b : Nat) (p : Point) :
    { s.matchedReport n a b with point := p }.completed = s.reported n a b p := rfl

/-- R132, R153: a matched decoder that fails at a check keeps the "on error write" outputs. -/
theorem complete_matchedReport_of_reports {s : State} {g : GrammarByte} {r : Except Raise State} (n a b : Nat)
    (h : ∃ e, r = .error e ∧ Reports s g e) :
    complete (s.matchedReport n a b) r =
      .next (s.reportError n a b 2 g.field (s.inByte g.pos) (BitVec.ofNat 16 g.pos)) := by
  obtain ⟨e, rfl, herr, hfield, hbyte, hpos⟩ := h
  rw [complete_error, herr, hfield, hbyte, hpos, BitVec.ofNat_toNat, BitVec.setWidth_eq]
  rfl

/-- R132: a field error ends the decoder, whatever follows. -/
theorem dmmPosition_bind_error {α : Type} {s : State} {i : Nat} {g : GrammarByte}
    (h : s.firstBroken (latGrammar i ++ lonGrammar (i + 9)) g) (f : Int × Int → Except Raise α) :
    ∃ e, (dmmPosition s i >>= f) = .error e ∧ Reports s g e := by
  obtain ⟨e, he, hreports⟩ := dmmPosition_error h
  exact ⟨e, by rw [he, except_error_bind], hreports⟩

/-! ### The timestamp (R159) -/

/-- The six digits of a timestamp as P_TIME holds them (R34). -/
def stampOf (s : State) : Word := BitVec.ofNat 64 (s.dec2 1 * 2 ^ 16 + s.dec2 3 * 2 ^ 8 + s.dec2 5)

/-- R159: the format code at offset 7 decides. -/
theorem timestamp_eq (s : State) : timestamp s =
    if s.inByte 7 = 0x7A then (2, stampOf s)
    else if s.inByte 7 = 0x2F then (3, stampOf s)
    else if s.inByte 7 = 0x68 then (4, stampOf s)
    else (1, s.nowS) := rfl

/-- R12: two digits are at most 99. -/
theorem dec2_le {s : State} {i : Nat} (h0 : s.digitAt i) (h1 : s.digitAt (i + 1)) : s.dec2 i ≤ 99 := by
  have h0 := h0.2
  have h1 := h1.2
  simp only [State.dec2, State.decimal]
  omega

/-- R34: the digits of a timestamp fit P_TIME. -/
theorem stampOf_toNat {s : State} (h : s.patternT) :
    (stampOf s).toNat = s.dec2 1 * 2 ^ 16 + s.dec2 3 * 2 ^ 8 + s.dec2 5 := by
  obtain ⟨-, -, hdigits, -⟩ := h
  have h1 := dec2_le (hdigits 0 (by decide)) (hdigits 1 (by decide))
  have h3 := dec2_le (hdigits 2 (by decide)) (hdigits 3 (by decide))
  have h5 := dec2_le (hdigits 4 (by decide)) (hdigits 5 (by decide))
  simp only [Nat.reduceAdd] at h1 h3 h5
  rw [stampOf, BitVec.toNat_ofNat]
  omega

/-! ### The trailing field of a compressed report (R161) -/

/-- R160: the Point before its extra field. -/
theorem untimedPoint_eq_compressedPoint (s : State) :
    untimedPoint s (latValue (s.codePoint 2 4)) (lonValue (s.codePoint 6 4)) = s.compressedPoint := by
  rw [latValue_eq, lonValue_eq]
  rfl

/-- R160: with valid position digits the trailing field decides. -/
theorem exec_aprsDecC_of_digits {s : State} (hw : s.windowOk) (hp : s.patternC) (h : ∀ k < 8, s.b91At (2 + k)) :
    exec .aprsDecC s = complete (s.matchedReport 14 1 10)
      (extraClass (s.inByte 11) (s.inByte 12) (s.inByte 13) >>= fun e =>
        .ok { s.matchedReport 14 1 10 with point := s.compressedPoint.withExtra e }) := by
  have hlat : ∀ k < 4, s.b91At (2 + k) := fun k hk => h k (by omega)
  have hlon : ∀ k < 4, s.b91At (6 + k) := fun k hk => by
    have := h (4 + k) (by omega)
    rwa [show 2 + (4 + k) = 6 + k by omega] at this
  rw [exec_aprsDecC_matched hw hp, digitsFrom_ok s .lat 4 2 0 hlat, except_ok_bind, digitsFrom_ok s .lon 4 6 0 hlon,
    except_ok_bind, Nat.zero_mul, Nat.zero_add, Nat.zero_add, untimedPoint_eq_compressedPoint]

/-- R160: a trailing field without an error. -/
theorem exec_aprsDecC_of_extra {s : State} {e : Extra} (hw : s.windowOk) (hp : s.patternC)
    (h : ∀ k < 8, s.b91At (2 + k)) (he : extraClass (s.inByte 11) (s.inByte 12) (s.inByte 13) = .ok e) :
    exec .aprsDecC s = .next (s.reported 14 1 10 (s.compressedPoint.withExtra e)) := by
  rw [exec_aprsDecC_of_digits hw hp h, he, except_ok_bind, complete_ok, completed_matchedReport]

/-- R102, R153: what a matched compressed report leaves when the digit at offset `p` is invalid. -/
def digitError (s : State) (f : Field) (p : Nat) : State :=
  s.reportError 14 1 10 3 f.code (s.inByte p) (BitVec.ofNat 16 p)

/-- The raise of an invalid digit at offset `p` (R102). -/
def digitRaise (s : State) (f : Field) (p : Nat) : Raise :=
  { err := .invalidDigit, field := f, byte := (s.inByte p).toNat, pos := p }

theorem complete_digitRaise (s : State) (f : Field) (p : Nat) :
    complete (s.matchedReport 14 1 10) (.error (digitRaise s f p)) = .next (digitError s f p) := by
  rw [complete_error, digitRaise, BitVec.ofNat_toNat, BitVec.setWidth_eq]
  rfl

/-- R153: a trailing field with an invalid digit. -/
theorem exec_aprsDecC_of_extra_error {s : State} {f : Field} {p : Nat} (hw : s.windowOk) (hp : s.patternC)
    (h : ∀ k < 8, s.b91At (2 + k))
    (he : extraClass (s.inByte 11) (s.inByte 12) (s.inByte 13) = .error (digitRaise s f p)) :
    exec .aprsDecC s = .next (digitError s f p) := by
  rw [exec_aprsDecC_of_digits hw hp h, he, except_error_bind, complete_digitRaise]

theorem digit_inByte_ok {s : State} {p : Nat} (f : Field) (h : s.b91At p) :
    digit (s.inByte p) f p = .ok (s.b91Value p) := digit_ok f p h

theorem digit_inByte_error {s : State} {p : Nat} (f : Field) (h : ¬ s.b91At p) :
    digit (s.inByte p) f p = .error (digitRaise s f p) := digit_error f p h

section
variable {s : State}

/-- R161: a SPACE holds no extra field, whatever the other bytes are. -/
theorem extraClass_space (h1 : s.inByte 11 = 0x20) :
    extraClass (s.inByte 11) (s.inByte 12) (s.inByte 13) = .ok .none := by
  rw [extraClass, if_pos (show s.inByte 11 = space from h1)]
  rfl

/-- R161: the type byte is read first. -/
theorem extraClass_type_error (h1 : s.inByte 11 ≠ 0x20) (ht : ¬ s.b91At 13) :
    extraClass (s.inByte 11) (s.inByte 12) (s.inByte 13) = .error (digitRaise s .type 13) := by
  rw [extraClass, if_neg (show ¬ s.inByte 11 = space from h1), digit_inByte_error _ ht, except_error_bind]

/-- R161: a type byte of the GGA source makes the two bytes an altitude. -/
theorem extraClass_altitude (h1 : s.inByte 11 ≠ 0x20) (ht : s.b91At 13) (hgga : s.b91Value 13 &&& 0x18 = 0x10) :
    extraClass (s.inByte 11) (s.inByte 12) (s.inByte 13) =
      digit (s.inByte 11) .alt 11 >>= fun a => digit (s.inByte 12) .alt 12 >>= fun b =>
        .ok (.altitude (91 * a + b)) := by
  rw [extraClass, if_neg (show ¬ s.inByte 11 = space from h1), digit_inByte_ok _ ht, except_ok_bind, if_pos hgga]
  rfl

/-- R161: any other type value up to 89 makes them course and speed. -/
theorem extraClass_courseSpeed (h1 : s.inByte 11 ≠ 0x20) (ht : s.b91At 13) (hgga : s.b91Value 13 &&& 0x18 ≠ 0x10)
    (hle : s.b91Value 13 ≤ 89) : extraClass (s.inByte 11) (s.inByte 12) (s.inByte 13) =
      digit (s.inByte 11) .courseSpeed 11 >>= fun a => digit (s.inByte 12) .courseSpeed 12 >>= fun b =>
        .ok (.courseSpeed a b) := by
  rw [extraClass, if_neg (show ¬ s.inByte 11 = space from h1), digit_inByte_ok _ ht, except_ok_bind, if_neg hgga,
    if_pos hle]
  rfl

/-- R161: at type value 90 the first byte decides. -/
theorem extraClass_90 (h1 : s.inByte 11 ≠ 0x20) (ht : s.b91At 13) (h90 : s.b91Value 13 = 90) :
    extraClass (s.inByte 11) (s.inByte 12) (s.inByte 13) =
      if s.inByte 11 = 0x7B then digit (s.inByte 12) .range 12 >>= fun v => .ok (.radioRange v) else .ok .none := by
  rw [extraClass, if_neg (show ¬ s.inByte 11 = space from h1), digit_inByte_ok _ ht, except_ok_bind, h90]
  rfl

end

/-! ### The obligations -/

/-- Settles O25: both read four digits, and their values are the rounded exact inverses. -/
theorem positionDigitsDecode : Obligations.PositionDigitsDecode := by
  refine ⟨decodesDigits_of_exec (f := .lat) (fun _ => rfl) fun s => ?_,
    decodesDigits_of_exec (f := .lon) (fun _ => rfl) fun s => ?_⟩
  · rw [latValue_eq]
    rfl
  · rw [lonValue_eq]
    rfl

/-- Settles O34: without a match each decoder completes with the outputs of R152. -/
theorem patternMismatchIsNoError : Obligations.PatternMismatchIsNoError :=
  fun _ hw => ⟨exec_aprsDecU_unmatched hw, exec_aprsDecT_unmatched hw, exec_aprsDecC_unmatched hw⟩

/-- Settles O35: the fields that keep the grammar give the position. -/
theorem uncompressedDecodeReadsReport : Obligations.UncompressedDecodeReadsReport := by
  intro s hw hp hg
  rw [exec_aprsDecU_matched hw hp, dmmPosition_ok hg, except_ok_bind, complete_ok, completed_matchedReport, isSouth_eq,
    isWest_eq]
  rfl

/-- Settles O36: as for the uncompressed report, with the timestamp that the format code selects. -/
theorem timestampedDecodeReadsReport : Obligations.TimestampedDecodeReadsReport := by
  intro s hw hp hg
  refine ⟨(timestamp s).1, (timestamp s).2, ?_, fun h => ?_, fun h => ?_, fun h => ?_, fun h => ?_, fun h => ?_⟩
  · rw [exec_aprsDecT_matched hw hp, dmmPosition_ok hg, except_ok_bind, complete_ok, completed_matchedReport,
      isSouth_eq, isWest_eq]
    rfl
  · rw [timestamp_eq, if_pos h]
  · rw [timestamp_eq, h]
    rfl
  · rw [timestamp_eq, h]
    rfl
  · simp only [List.mem_cons, List.not_mem_nil, or_false] at h
    rw [← stampOf_toNat hp, timestamp_eq]
    rcases h with h | h | h <;> rw [h] <;> rfl
  · simp only [List.mem_cons, List.not_mem_nil, or_false, not_or] at h
    obtain ⟨hz, hslash, hh⟩ := h
    rw [timestamp_eq, if_neg hz, if_neg hslash, if_neg hh]
    exact ⟨rfl, rfl⟩

/-- Settles O37: the first broken check ends the position, and the decoder keeps its outputs. -/
theorem malformedReportKeepsSymbol : Obligations.MalformedReportKeepsSymbol := by
  refine fun s g hw => ⟨fun hp hg => ?_, fun hp hg => ?_⟩
  · rw [exec_aprsDecU_matched hw hp]
    exact complete_matchedReport_of_reports 20 9 19 (dmmPosition_bind_error hg _)
  · rw [exec_aprsDecT_matched hw hp]
    exact complete_matchedReport_of_reports 27 16 26 (dmmPosition_bind_error hg _)

/-- Settles O38: one class of R161 for each clause. -/
theorem compressedDecodeReadsReport : Obligations.CompressedDecodeReadsReport := by
  refine fun s hw hp h8 => ⟨fun h1 => ?_, fun h1 ht hgga ha hb => ?_, fun h1 ht hgga hle ha hb => ?_,
    fun h90 ht h1 hb => ?_, fun h90 ht h1 h2 => ?_⟩
  · exact exec_aprsDecC_of_extra hw hp h8 (extraClass_space h1)
  · rw [← altValue_eq]
    refine exec_aprsDecC_of_extra (e := .altitude (91 * s.b91Value 11 + s.b91Value 12)) hw hp h8 ?_
    rw [extraClass_altitude h1 ht hgga, digit_inByte_ok _ ha, except_ok_bind, digit_inByte_ok _ hb, except_ok_bind]
  · rw [← speedValue_eq]
    refine exec_aprsDecC_of_extra (e := .courseSpeed (s.b91Value 11) (s.b91Value 12)) hw hp h8 ?_
    rw [extraClass_courseSpeed h1 ht hgga hle, digit_inByte_ok _ ha, except_ok_bind, digit_inByte_ok _ hb,
      except_ok_bind]
  · rw [← rangeValue_eq]
    refine exec_aprsDecC_of_extra (e := .radioRange (s.b91Value 12)) hw hp h8 ?_
    rw [extraClass_90 (by rw [h1]; decide) ht h90, if_pos h1, digit_inByte_ok _ hb, except_ok_bind]
  · exact exec_aprsDecC_of_extra (e := .none) hw hp h8 (by rw [extraClass_90 h1 ht h90, if_neg h2])

/-- Settles O39: the digits are read in the order of R160, and the first invalid one ends the decoder. -/
theorem compressedDigitErrorsInOrder : Obligations.CompressedDigitErrorsInOrder := by
  refine fun s hw hp => ⟨fun k hk hbefore hbad => ?_, fun k hk hbefore hbad => ?_, fun h8 h1 => ⟨fun ht => ?_,
    fun ht hle field hfield => ⟨fun ha => ?_, fun ha hb => ?_⟩, fun ht h90 h7B hb => ?_⟩⟩
  · rw [exec_aprsDecC_matched hw hp, digitsFrom_error s .lat 4 2 0 k hk hbefore hbad, except_error_bind]
    exact complete_digitRaise s .lat (2 + k)
  · have hlat : ∀ j < 4, s.b91At (2 + j) := fun j hj => hbefore j (by omega)
    have hlon : ∀ j < k, s.b91At (6 + j) := fun j hj => by
      have := hbefore (4 + j) (by omega)
      rwa [show 2 + (4 + j) = 6 + j by omega] at this
    rw [exec_aprsDecC_matched hw hp, digitsFrom_ok s .lat 4 2 0 hlat, except_ok_bind,
      digitsFrom_error s .lon 4 6 0 k hk hlon hbad, except_error_bind]
    exact complete_digitRaise s .lon (6 + k)
  · exact exec_aprsDecC_of_extra_error hw hp h8 (extraClass_type_error h1 ht)
  · rw [hfield]
    split
    · refine exec_aprsDecC_of_extra_error (f := .alt) hw hp h8 ?_
      rw [extraClass_altitude h1 ht ‹_›, digit_inByte_error _ ha, except_error_bind]
    · refine exec_aprsDecC_of_extra_error (f := .courseSpeed) hw hp h8 ?_
      rw [extraClass_courseSpeed h1 ht ‹_› hle, digit_inByte_error _ ha, except_error_bind]
  · rw [hfield]
    split
    · refine exec_aprsDecC_of_extra_error (f := .alt) hw hp h8 ?_
      rw [extraClass_altitude h1 ht ‹_›, digit_inByte_ok _ ha, except_ok_bind, digit_inByte_error _ hb,
        except_error_bind]
    · refine exec_aprsDecC_of_extra_error (f := .courseSpeed) hw hp h8 ?_
      rw [extraClass_courseSpeed h1 ht ‹_› hle, digit_inByte_ok _ ha, except_ok_bind, digit_inByte_error _ hb,
        except_error_bind]
  · refine exec_aprsDecC_of_extra_error (f := .range) hw hp h8 ?_
    rw [extraClass_90 h1 ht h90, if_pos h7B, digit_inByte_error _ hb, except_error_bind]

/-- Settles O40: after the window check no decoder reads what it overwrites. -/
theorem positionDecodeIgnoresOldPoint : Obligations.PositionDecodeIgnoresOldPoint := by
  intro s p y a b hw i hi
  have hw' : { s with point := p, sym := y, remOff := a, remLen := b }.windowOk := hw
  simp only [List.mem_cons, List.not_mem_nil, or_false] at hi
  rcases hi with rfl | rfl | rfl
  · simp only [exec, execAprsDecU, checkWindow_ok hw, checkWindow_ok hw']
    rfl
  · simp only [exec, execAprsDecT, checkWindow_ok hw, checkWindow_ok hw']
    rfl
  · simp only [exec, execAprsDecC, checkWindow_ok hw, checkWindow_ok hw']
    rfl

end Sys2Proof.Proofs

/-! The family of 44_ax25.md, continued: the frame commands AX25.ENCF (R202) and AX25.DECF (R203). First the checks and
the bytes of a frame, then what the loop of AX25.DECF leaves, then the obligations. -/

namespace Sys2Proof.Proofs

open Sys2Proof.Machine Sys2Proof.Laws

/-! ### AX25.ENCF (R202) -/

theorem checkNaddr_ok {s : State} (h2 : 2 ≤ s.naddr.toNat) (hmax : s.naddr.toNat ≤ s.params.maxAddr) :
    checkNaddr s = .ok () := by
  rw [checkNaddr, if_neg (by omega), if_neg (by omega)]

theorem checkNaddr_few {s : State} (h : s.naddr.toNat < 2) :
    checkNaddr s = .error { err := .validation, field := .naddr, byte := 0, pos := s.naddr.toNat } := by
  rw [checkNaddr, if_pos h]

theorem checkNaddr_many {s : State} (h2 : 2 ≤ s.naddr.toNat) (h : s.params.maxAddr < s.naddr.toNat) :
    checkNaddr s = .error { err := .capacityExceeded, field := .naddr, byte := 0, pos := s.naddr.toNat } := by
  rw [checkNaddr, if_neg (by omega), if_pos h]

/-- The bytes of a frame (R197, R202): the first NADDR entries, LAST on the final one only, control, PID, the window. -/
def frameBytes (s : State) : List Byte :=
  (List.range s.naddr.toNat).flatMap (fun i => addressBytes (s.entry i) (decide (i + 1 = s.naddr.toNat)))
    ++ [0x03, 0xF0] ++ (List.range s.ilen.toNat).map s.inByte

@[simp] theorem frameBytes_length (s : State) : (frameBytes s).length = 7 * s.naddr.toNat + 2 + s.ilen.toNat := by
  simp only [frameBytes, List.length_append, List.length_flatMap, addressBytes_length, List.length_map, List.length_range,
    List.map_const', List.sum_replicate, List.length_cons, List.length_nil, smul_eq_mul]
  omega

/-- R202: past the window check, NADDR is checked. -/
theorem exec_ax25EncF_of_window {s : State} (hw : s.windowOk) :
    exec .ax25EncF s = complete s (checkNaddr s >>= fun _ => encAddrs s s.naddr.toNat 0 >>= fun a =>
      emit s (a ++ [0x03, 0xF0] ++ s.inBytes 0 s.inLen)) := by
  rw [exec, execAx25EncF, checkWindow_ok hw, except_ok_bind]

/-- R202: a NADDR out of range raises. -/
theorem exec_ax25EncF_naddr_error {s : State} {r : Raise} (hw : s.windowOk) (h : checkNaddr s = .error r) :
    exec .ax25EncF s = .next (raisedState s r) := by
  rw [exec_ax25EncF_of_window hw, h]
  rfl

section
variable {s : State} (hw : s.windowOk) (h2 : 2 ≤ s.naddr.toNat) (hmax : s.naddr.toNat ≤ s.params.maxAddr)
include hw h2 hmax

/-- R202: an invalid entry raises, the lowest first. -/
theorem exec_ax25EncF_entry_error {i : Nat} {err : Err} {field : Field} {b : Byte} (hi : i < s.naddr.toNat)
    (hbefore : ∀ j < i, s.entryValid j)
    (h : checkAddr s i = .error { err := err, field := field, byte := b.toNat, pos := i }) :
    exec .ax25EncF s = .next (s.errored err.code field.code b (BitVec.ofNat 16 i)) := by
  have hraise := encAddrs_error s.naddr.toNat 0 i hi (by simpa using hbefore) (by simpa using h)
  rw [exec_ax25EncF_of_window hw, checkNaddr_ok h2 hmax, except_ok_bind, hraise, except_error_bind, complete_error,
    BitVec.ofNat_toNat, BitVec.setWidth_eq]

/-- R202: valid entries are output as a frame. -/
theorem exec_ax25EncF_of_entries (hvalid : ∀ i < s.naddr.toNat, s.entryValid i) :
    exec .ax25EncF s = complete s (emit s (frameBytes s)) := by
  have haddrs := encAddrs_ok (s := s) s.naddr.toNat 0 (by simpa using hvalid)
  rw [exec_ax25EncF_of_window hw, checkNaddr_ok h2 hmax, except_ok_bind, haddrs, except_ok_bind]
  simp [frameBytes, State.inBytes, State.inLen]

end

/-! ### AX25.DECF (R203) -/

/-- R203: past the window check, the addresses are read. -/
theorem exec_ax25DecF_of_window {s : State} (hw : s.windowOk) :
    exec .ax25DecF s = complete s (decAddrs s s.params.maxAddr 0 >>= fun t =>
      if s.inLen < 7 * t.length + 2 then
        .error { err := .truncatedFrame, field := .address, byte := 0, pos := t.length }
      else
        .ok { s.withRemainder (7 * t.length + 2) with
          addrs := t ++ s.addrs.drop t.length
          naddr := BitVec.ofNat 8 t.length
          frameHdr := { ctrl := s.inByte (7 * t.length), pid := s.inByte (7 * t.length + 1) } }) := by
  rw [exec, execAx25DecF, checkWindow_ok hw, except_ok_bind]

/-- R203: what the loop raises ends the command. -/
theorem exec_ax25DecF_of_error {s : State} {r : Raise} (hw : s.windowOk)
    (h : decAddrs s s.params.maxAddr 0 = .error r) : exec .ax25DecF s = .next (raisedState s r) := by
  rw [exec_ax25DecF_of_window hw, h]
  rfl

/-- The `n` entries that the window begins with (R196, R203). -/
def decodedEntries (s : State) (n : Nat) : List AddrEntry := (List.range n).map fun j => decAddr s (7 * j)

@[simp] theorem decodedEntries_length (s : State) (n : Nat) : (decodedEntries s n).length = n := by
  simp [decodedEntries]

section
variable {s : State} {n : Nat} (h1 : 1 ≤ n) (hmax : n ≤ s.params.maxAddr)
  (hlen : 7 * n ≤ s.ilen.toNat) (hmore : ∀ i, i + 1 < n → (s.inByte (7 * i + 6)).toNat % 2 = 0)
  (hlast : (s.inByte (7 * (n - 1) + 6)).toNat % 2 = 1)
include h1 hmax hlen hmore hlast

/-- R203: the loop ends at the first address with LAST. -/
theorem decAddrs_eq_decodedEntries : decAddrs s s.params.maxAddr 0 = .ok (decodedEntries s n) := by
  have h := decAddrs_ok (s := s) n s.params.maxAddr 0 h1 hmax (by simpa using hlen) (by simpa using hmore)
    (by simpa using hlast)
  simpa [decodedEntries] using h

/-- R203: a frame with room for control and PID. -/
theorem exec_ax25DecF_ok (hw : s.windowOk) (hroom : 7 * n + 2 ≤ s.ilen.toNat) :
    exec .ax25DecF s = .next
      { s.completed with
        addrs := decodedEntries s n ++ s.addrs.drop n, naddr := BitVec.ofNat 8 n
        frameHdr := { ctrl := s.inByte (7 * n), pid := s.inByte (7 * n + 1) }
        remOff := BitVec.ofNat 64 (s.ioff.toNat + (7 * n + 2))
        remLen := BitVec.ofNat 64 (s.ilen.toNat - (7 * n + 2)) } := by
  rw [exec_ax25DecF_of_window hw, decAddrs_eq_decodedEntries h1 hmax hlen hmore hlast, except_ok_bind,
    decodedEntries_length, if_neg (show ¬ s.inLen < 7 * n + 2 from Nat.not_lt.mpr hroom)]
  rfl

/-- R203: a frame without room for control and PID. -/
theorem exec_ax25DecF_truncated (hw : s.windowOk) (hroom : s.ilen.toNat < 7 * n + 2) :
    exec .ax25DecF s = .next (s.errored 6 0x20 0 (BitVec.ofNat 16 n)) := by
  rw [exec_ax25DecF_of_window hw, decAddrs_eq_decodedEntries h1 hmax hlen hmore hlast, except_ok_bind,
    decodedEntries_length, if_pos (show s.inLen < 7 * n + 2 from hroom)]
  rfl

end

/-- The entries after AX25.DECF: below the new NADDR those of the window, above it those of before. -/
theorem entry_of_decodedEntries {s t : State} {n : Nat} (h : t.addrs = decodedEntries s n ++ s.addrs.drop n) (i : Nat) :
    t.entry i = if i < n then decAddr s (7 * i) else s.entry i := by
  simp only [State.entry, h, List.getD_eq_getElem?_getD]
  split
  · rename_i hi
    rw [List.getElem?_append_left (by simpa using hi)]
    simp [decodedEntries, hi]
  · rename_i hi
    rw [List.getElem?_append_right (by simpa using hi), List.getElem?_drop, decodedEntries_length,
      Nat.add_sub_cancel' (by omega)]

/-! ### The obligations -/

/-- Settles O43: past the checks the frame is output, and it fits OBUF. -/
theorem frameEncodeWritesFrame : Obligations.FrameEncodeWritesFrame := by
  intro s hp hw h2 hmax hvalid hfit
  obtain ⟨-, ⟨-, hobuf⟩, -⟩ := hp
  obtain ⟨t, hexec, hframe, hwrote, hlen⟩ := complete_emit (s := s) (frameBytes s) _ (frameBytes_length s) hfit
  refine ⟨t, (exec_ax25EncF_of_entries hw h2 hmax hvalid).trans hexec, hframe, hwrote, ?_⟩
  rw [hlen, BitVec.toNat_ofNat]
  omega

/-- Settles O44: the checks in their order; the capacity of OBUF is the last. -/
theorem frameEncodeErrorsInOrder : Obligations.FrameEncodeErrorsInOrder := by
  have hpos (b : BitVec 8) : BitVec.ofNat 16 b.toNat = b.setWidth 16 := BitVec.ofNat_toNat 16 b
  refine ⟨checksWindow_of_exec fun _ => rfl, fun s hw => ⟨fun hfew => ?_, fun h2 hmany => ?_, fun h2 hmax =>
    ⟨fun i hi hbefore => ⟨fun hlong => ?_, fun hlength hssid => ?_⟩, fun hvalid hfit => ?_⟩⟩⟩
  · rw [exec_ax25EncF_naddr_error hw (checkNaddr_few hfew), ← hpos]
    rfl
  · rw [exec_ax25EncF_naddr_error hw (checkNaddr_many h2 hmany), ← hpos]
    rfl
  · exact exec_ax25EncF_entry_error hw h2 hmax hi hbefore (checkAddr_length hlong)
  · exact exec_ax25EncF_entry_error hw h2 hmax hi hbefore (checkAddr_ssid hlength hssid)
  · rw [exec_ax25EncF_of_entries hw h2 hmax hvalid, emit_error (by simpa using hfit)]
    rfl

/-- Settles O45: the loop reads the `n` addresses, and control and PID follow them. -/
theorem frameDecodeReadsFrame : Obligations.FrameDecodeReadsFrame := by
  intro s n hw hp htable h1 hmax hroom hmore hlast
  refine ⟨_, exec_ax25DecF_ok h1 hmax (by omega) hmore hlast hw hroom, ?_, ?_, fun i hi => ?_, fun i hi => ?_⟩
  · rw [Nat.add_assoc, Nat.sub_sub]
  · simp only [List.length_append, decodedEntries_length, List.length_drop]
    omega
  · rw [entry_of_decodedEntries (s := s) (n := n) rfl, if_pos hi]
    exact decAddr_isDecoded s (7 * i)
  · rw [entry_of_decodedEntries (s := s) (n := n) rfl, if_neg (by omega)]

/-- Settles O46: the loop passes the addresses without LAST and raises at address `i`, or control and PID are missing
after it. -/
theorem frameDecodeErrors : Obligations.FrameDecodeErrors := by
  refine ⟨checksWindow_of_exec fun _ => rfl, fun s i hw => ⟨fun hmax hmore => ⟨fun hlo hhi => ?_, fun hfull hlen => ?_⟩,
    fun h1 hmax hmore hlast hlo hhi => exec_ax25DecF_truncated h1 hmax hlo hmore hlast hw hhi⟩⟩
  · have hraise := decAddrs_error i (s.params.maxAddr - i) 0 (by omega) (by simpa using hmore)
      (decAddrs_truncated (s := s) _ (0 + i) (by omega))
    rw [Nat.sub_add_cancel hmax] at hraise
    rw [exec_ax25DecF_of_error hw hraise, Nat.zero_add]
    rfl
  · have hraise := decAddrs_error i 0 0 (by omega) (by simpa using hmore)
      (decAddrs_full (s := s) (0 + i) (by omega))
    rw [Nat.zero_add, hfull] at hraise
    rw [exec_ax25DecF_of_error hw hraise, hfull]
    rfl

end Sys2Proof.Proofs

/-! The round trips of 41_base91.md, 42_geopoint.md and 43_aprs_position.md (R116, R139, R163). First how a window holds
the texts an encoder writes, then the arithmetic of each conversion and its inverse, then the obligations. -/

namespace Sys2Proof.Proofs

open Sys2Proof.Machine Sys2Proof.Laws

/-! ### A window that holds bytes -/

/-- The window of `u` holds `bs` from offset `i` on. -/
def HoldsAt (u : State) (i : Nat) (bs : List Byte) : Prop := ∀ k, (h : k < bs.length) → u.inByte (i + k) = bs[k]

/-- The window that a round trip reads holds what the encoder wrote (R92). -/
theorem holdsAt_of_output {s t u : State} {bs : List Byte} (hw : Wrote s t bs) (hb : bs.length < 2 ^ 64)
    (hl : u.ilen = t.olen) (hk : ∀ k < t.olen.toNat, u.inByte k = t.readByte (obufBase + k)) :
    u.ilen.toNat = bs.length ∧ HoldsAt u 0 bs := by
  obtain ⟨hlen, hbytes⟩ := window_of_output hw hb hl hk
  exact ⟨hlen, fun k h => by rw [Nat.zero_add, hbytes k h]⟩

theorem holdsAt_append {u : State} {i : Nat} {as bs : List Byte} :
    HoldsAt u i (as ++ bs) ↔ HoldsAt u i as ∧ HoldsAt u (i + as.length) bs := by
  constructor
  · refine fun h => ⟨fun k hk => ?_, fun k hk => ?_⟩
    · rw [h k (by simp only [List.length_append]; omega), List.getElem_append_left hk]
    · rw [Nat.add_assoc, h (as.length + k) (by simp only [List.length_append]; omega)]
      simp
  · rintro ⟨ha, hb⟩ k hk
    by_cases hlt : k < as.length
    · rw [ha k hlt, List.getElem_append_left hlt]
    · have hb' := hb (k - as.length) (by simp only [List.length_append] at hk; omega)
      rw [Nat.add_assoc, Nat.add_sub_cancel' (Nat.not_lt.mp hlt)] at hb'
      rw [hb', List.getElem_append_right (Nat.not_lt.mp hlt)]

theorem holdsAt_singleton {u : State} {i : Nat} {b : Byte} : HoldsAt u i [b] ↔ u.inByte i = b := by
  constructor
  · exact fun h => h 0 Nat.one_pos
  · intro h k hk
    obtain rfl : k = 0 := by simpa using hk
    exact h

theorem holdsAt_cons {u : State} {i : Nat} {b : Byte} {bs : List Byte} :
    HoldsAt u i (b :: bs) ↔ u.inByte i = b ∧ HoldsAt u (i + 1) bs := by
  rw [← List.singleton_append, holdsAt_append, holdsAt_singleton]
  rfl

@[simp] theorem codeText_length (v n : Nat) : (codeText v n).length = n := b91Text_length v n

@[simp] theorem decimalText_length (v n : Nat) : (decimalText v n).length = n := by simp [decimalText]

/-- R101: a window that holds a code point's text has valid digits with that code point. -/
theorem codePoint_of_holdsAt {u : State} {i v n : Nat} (hv : v < 91 ^ n) (h : HoldsAt u i (codeText v n)) :
    (∀ k < n, u.b91At (i + k)) ∧ u.codePoint i n = v :=
  codePoint_of_text hv fun k hk => by
    rw [h k (by simpa using hk)]
    simp [codeText]

/-- R12: a window that holds a number's text has DIGITs with its decimal digits. -/
theorem digits_of_holdsAt {u : State} {i n w : Nat} (h : HoldsAt u i (decimalText n w)) :
    ∀ k < w, u.digitAt (i + k) ∧ u.decimal (i + k) = n / 10 ^ (w - 1 - k) % 10 :=
  digit_of_text fun k hk => by
    rw [h k (by simpa using hk)]
    simp [decimalText]

/-- R12: the two-digit text of a number. -/
theorem dec2_of_holdsAt {u : State} {i n : Nat} (hn : n < 100) (h : HoldsAt u i (decimalText n 2)) :
    u.digitAt i ∧ u.digitAt (i + 1) ∧ u.dec2 i = n := by
  obtain ⟨hd0, hv0⟩ := digits_of_holdsAt h 0 (by decide)
  obtain ⟨hd1, hv1⟩ := digits_of_holdsAt h 1 (by decide)
  refine ⟨hd0, hd1, ?_⟩
  simp only [Nat.add_zero] at hv0
  rw [State.dec2, hv0, hv1]
  omega

/-- R12: the three-digit text of a number. -/
theorem dec3_of_holdsAt {u : State} {i n : Nat} (hn : n < 1000) (h : HoldsAt u i (decimalText n 3)) :
    u.digitAt i ∧ u.digitAt (i + 1) ∧ u.digitAt (i + 2) ∧ u.dec3 i = n := by
  obtain ⟨hd0, hv0⟩ := digits_of_holdsAt h 0 (by decide)
  obtain ⟨hd1, hv1⟩ := digits_of_holdsAt h 1 (by decide)
  obtain ⟨hd2, hv2⟩ := digits_of_holdsAt h 2 (by decide)
  refine ⟨hd0, hd1, hd2, ?_⟩
  simp only [Nat.add_zero] at hv0
  rw [State.dec3, hv0, hv1, hv2]
  omega

/-! ### Signed registers (R7) -/

/-- R7: a signed register holds every value a position can take. -/
theorem toInt_ofInt_of_small {v : Int} (h : v.natAbs < 2 ^ 63) : (BitVec.ofInt 64 v).toInt = v := by
  rw [BitVec.toInt_ofInt]
  exact Int.bmod_eq_of_le (by omega) (by omega)

/-! ### The precompress codes and their inverses (R107 to R110) -/

section
variable {l : Int}

/-- R107: a latitude in range has a code point of four digits. -/
theorem latCode_range (h : l.natAbs ≤ 900000000) : 0 ≤ latCode l ∧ (latCode l).toNat < 91 ^ 4 := by
  have hcode := rhu_bounds (380926 * (900000000 - l)) (10 ^ 7) (by decide)
  rw [← latCode] at hcode
  omega

/-- R108: a longitude in range has a code point of four digits. -/
theorem lonCode_range (h : l.natAbs ≤ 1800000000) : 0 ≤ lonCode l ∧ (lonCode l).toNat < 91 ^ 4 := by
  have hcode := rhu_bounds (190463 * (1800000000 + l)) (10 ^ 7) (by decide)
  rw [← lonCode] at hcode
  omega

/-- R107, R109: the inverse of a latitude's code point is within 14 units. -/
theorem latValue_latCode (h : l.natAbs ≤ 900000000) :
    ((BitVec.ofInt 64 (latValue (latCode l).toNat)).toInt - l).natAbs < 14 := by
  have hrange := latCode_range h
  have hcode := rhu_bounds (380926 * (900000000 - l)) (10 ^ 7) (by decide)
  have hvalue := rhu_bounds ((latCode l).toNat * 10 ^ 7) 380926 (by decide)
  rw [← latCode] at hcode
  have hclose : (latValue (latCode l).toNat - l).natAbs < 14 := by
    rw [latValue]
    omega
  rwa [toInt_ofInt_of_small (by omega)]

/-- R108, R110: the inverse of a longitude's code point is within 27 units. -/
theorem lonValue_lonCode (h : l.natAbs ≤ 1800000000) :
    ((BitVec.ofInt 64 (lonValue (lonCode l).toNat)).toInt - l).natAbs < 27 := by
  have hrange := lonCode_range h
  have hcode := rhu_bounds (190463 * (1800000000 + l)) (10 ^ 7) (by decide)
  have hvalue := rhu_bounds ((lonCode l).toNat * 10 ^ 7) 190463 (by decide)
  rw [← lonCode] at hcode
  have hclose : (lonValue (lonCode l).toNat - l).natAbs < 27 := by
    rw [lonValue]
    omega
  rwa [toInt_ofInt_of_small (by omega)]

end

/-- R107: LAT.PRE of a latitude in range. -/
theorem exec_latPre_ok {s : State} (h : s.point.lat.toInt.natAbs ≤ 900000000) :
    exec .latPre s = .next { s.completed with val := BitVec.ofInt 64 (latCode s.point.lat.toInt) } := by
  rw [latCode_eq]
  exact (precompressRoundsHalfUp s).1 h

/-- R108: LON.PRE of a longitude in range. -/
theorem exec_lonPre_ok {s : State} (h : s.point.lon.toInt.natAbs ≤ 1800000000) :
    exec .lonPre s = .next { s.completed with val := BitVec.ofInt 64 (lonCode s.point.lon.toInt) } := by
  rw [lonCode_eq]
  exact (precompressRoundsHalfUp s).2.2.1 h

/-- R109: LAT.DEC of four digits. -/
theorem exec_latDec_ok {s : State} (hw : s.windowOk) (hn : s.ilen.toNat = 4) (h : ∀ k < 4, s.b91At k) :
    exec .latDec s = .next
      { s.completed with
        val := BitVec.ofNat 64 (s.codePoint 0 4)
        point := { s.point with lat := BitVec.ofInt 64 (latValue (s.codePoint 0 4)) } } := by
  rw [latValue_eq]
  exact (positionDigitsDecode.1.2 s hw hn).1 h

/-- R110: LON.DEC of four digits. -/
theorem exec_lonDec_ok {s : State} (hw : s.windowOk) (hn : s.ilen.toNat = 4) (h : ∀ k < 4, s.b91At k) :
    exec .lonDec s = .next
      { s.completed with
        val := BitVec.ofNat 64 (s.codePoint 0 4)
        point := { s.point with lon := BitVec.ofInt 64 (lonValue (s.codePoint 0 4)) } } := by
  rw [lonValue_eq]
  exact (positionDigitsDecode.2.2 s hw hn).1 h

/-- R7: VAL holds a code point as it is. -/
theorem toNat_ofInt_of_code {v : Int} (h : 0 ≤ v ∧ v.toNat < 91 ^ 4) : (BitVec.ofInt 64 v).toNat = v.toNat := by
  rw [BitVec.toNat_ofInt]
  omega

/-! ### The degrees-decimal-minutes text and its value (R130, R131) -/

/-- R130, R131: the value of the text is within 834 units of the value it was written from. -/
theorem dmmValue_minuteHundredths (l : Int) (south : Bool) (hs : south = decide (l < 0)) :
    (dmmValue (l.natAbs / 10 ^ 7) (minuteHundredths l.natAbs) south - l).natAbs < 834 := by
  have hcode := rhu_bounds (6 * (l.natAbs % 10 ^ 7 : Nat)) (10 ^ 4) (by decide)
  have hvalue := rhu_bounds (minuteHundredths l.natAbs * 10 ^ 7) 6000 (by decide)
  have hnat : (minuteHundredths l.natAbs : Int) = rhu (6 * (l.natAbs % 10 ^ 7 : Nat)) (10 ^ 4) := by
    rw [minuteHundredths]
    omega
  rw [← hnat] at hcode
  rw [dmmValue]
  by_cases hl : l < 0
  · rw [hs, decide_eq_true hl, if_pos rfl]
    omega
  · rw [hs, decide_eq_false hl, if_neg (by decide)]
    omega

/-- R130: the minutes are at most 60.00. -/
theorem minuteHundredths_le (m : Nat) : minuteHundredths m ≤ 6000 := by
  have hcode := rhu_bounds (6 * (m % 10 ^ 7 : Nat)) (10 ^ 4) (by decide)
  rw [minuteHundredths]
  omega

/-- R131, R132: a latitude field, and a longitude field, are DmmValue of their numbers. -/
theorem latField_eq_dmmValue (u : State) (i : Nat) (south : Bool) :
    u.latField i south = dmmValue (u.dec2 i) (100 * u.dec2 (i + 2) + u.dec2 (i + 5)) south := (dmmValue_eq _ _ _).symm

theorem lonField_eq_dmmValue (u : State) (i : Nat) (west : Bool) :
    u.lonField i west = dmmValue (u.dec3 i) (100 * u.dec2 (i + 3) + u.dec2 (i + 6)) west := (dmmValue_eq _ _ _).symm

/-- R130, R132: the minutes of a text, where they stand in the window. -/
theorem minutes_of_holdsAt {u : State} {i m : Nat}
    (hmm : HoldsAt u i (decimalText (minuteHundredths m / 100) 2)) (hpoint : HoldsAt u (i + 2) [0x2E])
    (hhh : HoldsAt u (i + 3) (decimalText (minuteHundredths m % 100) 2)) :
    (u.digitAt i ∧ u.digitAt (i + 1) ∧ u.inByte (i + 2) = 0x2E ∧ u.digitAt (i + 3) ∧ u.digitAt (i + 4))
      ∧ 100 * u.dec2 i + u.dec2 (i + 3) = minuteHundredths m := by
  have hle := minuteHundredths_le m
  obtain ⟨h0, h1, hv⟩ := dec2_of_holdsAt (by omega) hmm
  obtain ⟨h3, h4, hw⟩ := dec2_of_holdsAt (by omega) hhh
  exact ⟨⟨h0, h1, holdsAt_singleton.mp hpoint, h3, h4⟩, by omega⟩

/-- R130 to R133: a window that holds the text of a latitude in range has its field, its hemisphere and, within 834
units, its value. -/
theorem lat_of_holdsAt {u : State} {i : Nat} {l : Int} (hl : l.natAbs ≤ 900000000) (h : HoldsAt u i (latText l)) :
    (∀ g ∈ latGrammar i, u.meets g) ∧ u.inByte (i + 7) ∈ [(0x4E : Byte), 0x53, 0x6E, 0x73]
      ∧ ((BitVec.ofInt 64 (u.latField i (decide (u.inByte (i + 7) ∈ [(0x53 : Byte), 0x73])))).toInt - l).natAbs
        < 834 := by
  rw [latText_eq, dmmTextOf, ← minuteHundredths_eq] at h
  simp only [holdsAt_append, List.length_append, decimalText_length, List.length_singleton, Nat.reduceAdd] at h
  obtain ⟨⟨⟨⟨hdeg, hmm⟩, hpoint⟩, hhh⟩, hhemi⟩ := h
  obtain ⟨hd0, hd1, hdegrees⟩ := dec2_of_holdsAt (by omega) hdeg
  obtain ⟨⟨hm0, hm1, hm2, hm3, hm4⟩, hminutes⟩ := minutes_of_holdsAt hmm hpoint hhh
  rw [holdsAt_singleton] at hhemi
  have hsouth : decide (u.inByte (i + 7) ∈ [(0x53 : Byte), 0x73]) = decide (l < 0) := by
    by_cases hneg : 0 ≤ l
    · rw [hhemi, if_pos hneg, decide_eq_false (show ¬ l < 0 by omega)]
      rfl
    · rw [hhemi, if_neg hneg, decide_eq_true (show l < 0 by omega)]
      rfl
  refine ⟨?_, ?_, ?_⟩
  · simp only [latGrammar_eq, List.forall_mem_cons, meets_digit, meets_point]
    exact ⟨hd0, hd1, hm0, hm1, hm2, hm3, hm4, List.forall_mem_nil _⟩
  · rw [hhemi]
    split <;> decide
  · have hclose := dmmValue_minuteHundredths l _ hsouth
    rw [latField_eq_dmmValue, hdegrees, hminutes, toInt_ofInt_of_small (by omega)]
    exact hclose

/-- R130 to R133: the same of a longitude. -/
theorem lon_of_holdsAt {u : State} {i : Nat} {l : Int} (hl : l.natAbs ≤ 1800000000) (h : HoldsAt u i (lonText l)) :
    (∀ g ∈ lonGrammar i, u.meets g) ∧ u.inByte (i + 8) ∈ [(0x45 : Byte), 0x57, 0x65, 0x77]
      ∧ ((BitVec.ofInt 64 (u.lonField i (decide (u.inByte (i + 8) ∈ [(0x57 : Byte), 0x77])))).toInt - l).natAbs
        < 834 := by
  rw [lonText_eq, dmmTextOf, ← minuteHundredths_eq] at h
  simp only [holdsAt_append, List.length_append, decimalText_length, List.length_singleton, Nat.reduceAdd] at h
  obtain ⟨⟨⟨⟨hdeg, hmm⟩, hpoint⟩, hhh⟩, hhemi⟩ := h
  obtain ⟨hd0, hd1, hd2, hdegrees⟩ := dec3_of_holdsAt (by omega) hdeg
  obtain ⟨⟨hm0, hm1, hm2, hm3, hm4⟩, hminutes⟩ := minutes_of_holdsAt hmm hpoint hhh
  rw [holdsAt_singleton] at hhemi
  have hwest : decide (u.inByte (i + 8) ∈ [(0x57 : Byte), 0x77]) = decide (l < 0) := by
    by_cases hneg : 0 ≤ l
    · rw [hhemi, if_pos hneg, decide_eq_false (show ¬ l < 0 by omega)]
      rfl
    · rw [hhemi, if_neg hneg, decide_eq_true (show l < 0 by omega)]
      rfl
  refine ⟨?_, ?_, ?_⟩
  · simp only [lonGrammar_eq, List.forall_mem_cons, meets_digit, meets_point]
    exact ⟨hd0, hd1, hd2, hm0, hm1, hm2, hm3, hm4, List.forall_mem_nil _⟩
  · rw [hhemi]
    split <;> decide
  · have hclose := dmmValue_minuteHundredths l _ hwest
    rw [lonField_eq_dmmValue, hdegrees, hminutes, toInt_ofInt_of_small (by omega)]
    exact hclose

/-! ### The output of B91.ENC in a window (R101, R105) -/

/-- A window that holds the output of B91.ENC holds as many digits as its width, with VAL as their code point. -/
theorem codePoint_of_b91Enc {s t u : State} {w : BitVec 3} (hp : s.params.valid) (hw : widthLegal w = true)
    (hv : s.val.toNat ≤ 91 ^ w.toNat - 1) (ht : exec (.b91Enc w) s = .next t) (hlen : u.ilen = t.olen)
    (hbytes : ∀ k < t.olen.toNat, u.inByte k = t.readByte (obufBase + k)) :
    u.ilen.toNat = w.toNat ∧ (∀ k < w.toNat, u.b91At k) ∧ u.codePoint 0 w.toNat = s.val.toNat := by
  obtain ⟨t', ht', -, hwrote⟩ := (base91EncodeWritesDigits s w hp hw).1 hv
  obtain rfl : t = t' := Host.Outcome.next.inj (ht.symm.trans ht')
  have hwidth := w.isLt
  obtain ⟨hn, hholds⟩ := holdsAt_of_output hwrote (by rw [codeText_length]; omega) hlen hbytes
  have hlt : s.val.toNat < 91 ^ w.toNat := by
    have : 0 < 91 ^ w.toNat := by positivity
    omega
  obtain ⟨hdigits, hcode⟩ := codePoint_of_holdsAt hlt hholds
  exact ⟨by rw [hn, codeText_length], by simpa using hdigits, hcode⟩

/-! ### The obligations -/

/-- Settles O47: the window holds the digits of VAL, and B91.DEC reads their code point. -/
theorem base91RoundTrip : Obligations.Base91RoundTrip := by
  intro s t u w hp hw hv ht hwin hlen hbytes
  obtain ⟨hn, hdigits, hcode⟩ := codePoint_of_b91Enc hp hw hv ht hlen hbytes
  rw [((base91DecodeReadsCodePoint w hw).2 u hwin hn).1 hdigits]
  simp only [hcode, BitVec.ofNat_toNat, BitVec.setWidth_eq]

/-- Settles O48: the precompress code is written and read back exactly, and its inverse is close to the coordinate. -/
theorem precompressRoundTrip : Obligations.PrecompressRoundTrip := by
  intro s t m u hp hm hwin hlen hbytes
  refine ⟨fun hl ht => ?_, fun hl ht => ?_⟩
  · have hpre := Host.Outcome.next.inj (ht.symm.trans (exec_latPre_ok hl))
    have hparams : t.params = s.params := by rw [hpre]; rfl
    have hval : t.val.toNat = (latCode s.point.lat.toInt).toNat := by
      rw [hpre]
      exact toNat_ofInt_of_code (latCode_range hl)
    obtain ⟨hn, hdigits, hcode⟩ := codePoint_of_b91Enc (w := 4) (hparams ▸ hp) (by decide)
      (hval.trans_le (Nat.le_sub_one_of_lt (latCode_range hl).2)) hm hlen hbytes
    refine ⟨_, exec_latDec_ok hwin hn hdigits, ?_⟩
    have hclose := latValue_latCode hl
    rwa [← hval, ← hcode] at hclose
  · have hpre := Host.Outcome.next.inj (ht.symm.trans (exec_lonPre_ok hl))
    have hparams : t.params = s.params := by rw [hpre]; rfl
    have hval : t.val.toNat = (lonCode s.point.lon.toInt).toNat := by
      rw [hpre]
      exact toNat_ofInt_of_code (lonCode_range hl)
    obtain ⟨hn, hdigits, hcode⟩ := codePoint_of_b91Enc (w := 4) (hparams ▸ hp) (by decide)
      (hval.trans_le (Nat.le_sub_one_of_lt (lonCode_range hl).2)) hm hlen hbytes
    refine ⟨_, exec_lonDec_ok hwin hn hdigits, ?_⟩
    have hclose := lonValue_lonCode hl
    rwa [← hval, ← hcode] at hclose

/-- Settles O50: the window holds the text, and the decoder reads its value. -/
theorem dmmRoundTrip : Obligations.DmmRoundTrip := by
  intro s t u hp hwin hlen hbytes
  refine ⟨fun hl ht => ?_, fun hl ht => ?_⟩
  · obtain ⟨t', ht', -, hwrote⟩ := (dmmEncodeWritesText s hp).1 hl
    obtain rfl : t = t' := Host.Outcome.next.inj (ht.symm.trans ht')
    rw [← latText_eq] at hwrote
    obtain ⟨hn, hholds⟩ := holdsAt_of_output hwrote (by simp) hlen hbytes
    obtain ⟨hg, hhemi, hclose⟩ := lat_of_holdsAt hl hholds
    exact ⟨_, (dmmDecodeLatitude.2 u hwin (by simpa using hn)).1 hg hhemi, hclose⟩
  · obtain ⟨t', ht', -, hwrote⟩ := (dmmEncodeWritesText s hp).2.2.1 hl
    obtain rfl : t = t' := Host.Outcome.next.inj (ht.symm.trans ht')
    rw [← lonText_eq] at hwrote
    obtain ⟨hn, hholds⟩ := holdsAt_of_output hwrote (by simp) hlen hbytes
    obtain ⟨hg, hhemi, hclose⟩ := lon_of_holdsAt hl hholds
    exact ⟨_, (dmmDecodeLongitude.2 u hwin (by simpa using hn)).1 hg hhemi, hclose⟩

/-- Settles O51: the layout holds marker, latitude, SYMTAB, longitude and SYMCODE where APRS.DECU reads them. -/
theorem uncompressedReportRoundTrip : Obligations.UncompressedReportRoundTrip := by
  intro s t u hp hlat hlon ht hwin hlen hbytes
  obtain ⟨t', ht', -, hwrote, -⟩ := (uncompressedEncodeWritesReport s hp).1 hlat hlon
  obtain rfl : t = t' := Host.Outcome.next.inj (ht.symm.trans ht')
  rw [← latText_eq, ← lonText_eq] at hwrote
  obtain ⟨hn, hholds⟩ := holdsAt_of_output hwrote (by simp) hlen hbytes
  simp only [holdsAt_append, List.length_append, latText_length, lonText_length, List.length_singleton, Nat.reduceAdd,
    Nat.zero_add, holdsAt_singleton] at hn hholds
  obtain ⟨⟨⟨⟨hmarker, hlatText⟩, htable⟩, hlonText⟩, hcode⟩ := hholds
  obtain ⟨hlatGrammar, hlatHemi, hlatClose⟩ := lat_of_holdsAt hlat hlatText
  obtain ⟨hlonGrammar, hlonHemi, hlonClose⟩ := lon_of_holdsAt hlon hlonText
  have hpattern : u.patternU := ⟨hn.ge, by rw [hmarker]; split <;> decide, hlatHemi, hlonHemi⟩
  have hgrammar : ∀ g ∈ latGrammar 1 ++ lonGrammar 10, u.meets g :=
    List.forall_mem_append.mpr ⟨hlatGrammar, hlonGrammar⟩
  refine ⟨_, uncompressedDecodeReadsReport u hwin hpattern hgrammar, rfl, rfl, hlatClose, hlonClose, ?_, ?_⟩
  · simp only [State.reported, htable, hcode]
  · simp only [State.reported, hmarker]
    cases s.point.flags.msgcap <;> rfl

/-- Settles O52: the layout holds SYMTAB, the position digits, SYMCODE and an altitude where APRS.DECC reads them. -/
theorem compressedReportRoundTrip : Obligations.CompressedReportRoundTrip := by
  intro s t u hp hlat hlon ht hwin hlen hbytes
  obtain ⟨t', ht', -, hwrote, -⟩ := (compressedEncodeWritesReport s hp).1 hlat hlon
  obtain rfl : t = t' := Host.Outcome.next.inj (ht.symm.trans ht')
  rw [← latCode_eq, ← lonCode_eq, ← altCodeOf_eq] at hwrote
  obtain ⟨hn, hholds⟩ := holdsAt_of_output hwrote (by simp) hlen hbytes
  simp only [holdsAt_append, holdsAt_cons, List.length_append, List.length_cons, List.length_nil, codeText_length,
    Nat.reduceAdd, Nat.zero_add, and_assoc] at hn hholds
  obtain ⟨hmarker, htable, -, hlatText, hlonText, hcode, -, haltText, htype, -⟩ := hholds
  obtain ⟨hlatDigits, hlatCode⟩ := codePoint_of_holdsAt (latCode_range hlat).2 hlatText
  obtain ⟨hlonDigits, hlonCode⟩ := codePoint_of_holdsAt (lonCode_range hlon).2 hlonText
  have haltLt : altCodeOf s.point.alt < 91 ^ 2 := by
    have := altCodeOf_le s.point.alt
    omega
  obtain ⟨haltDigits, -⟩ := codePoint_of_holdsAt haltLt haltText
  have hdigits : ∀ k < 8, u.b91At (2 + k) := fun k hk => by
    rcases Nat.lt_or_ge k 4 with hk4 | hk4
    · exact hlatDigits k hk4
    · have := hlonDigits (k - 4) (by omega)
      rwa [show 6 + (k - 4) = 2 + k by omega] at this
  have hpattern : u.patternC := ⟨hn.ge, by rw [hmarker]; decide⟩
  have hspace : u.inByte 11 ≠ 0x20 := fun h => by
    have := (haltDigits 0 (by decide)).1
    rw [h] at this
    exact absurd this (by decide)
  have htypeDigit : u.b91At 13 := by
    rw [State.b91At, htype]
    decide
  have hgga : u.b91Value 13 &&& 0x18 = 0x10 := by
    rw [State.b91Value, htype]
    decide
  refine ⟨_, (compressedDecodeReadsReport u hwin hpattern hdigits).2.1 hspace htypeDigit hgga
    (haltDigits 0 (by decide)) (haltDigits 1 (by decide)), rfl, rfl, ?_, ?_, rfl, ?_⟩
  · simp only [State.reported, State.compressedPoint]
    rw [← latValue_eq, hlatCode]
    exact latValue_latCode hlat
  · simp only [State.reported, State.compressedPoint]
    rw [← lonValue_eq, hlonCode]
    exact lonValue_lonCode hlon
  · simp only [State.reported, htable, hcode]

end Sys2Proof.Proofs

/-! The round trip of the altitude code (R111, R112, R115, R116). First how close the powers of 501/500 are to the
altitudes of one code, then the obligation. -/

namespace Sys2Proof.Proofs

open Sys2Proof.Machine Sys2Proof.Laws

/-! ### The thresholds as powers (R115) -/

/-- The ratio of two successive altitudes (R112). -/
def altRatio : ℚ := 501 / 500

theorem one_le_altRatio : 1 ≤ altRatio := by norm_num [altRatio]

/-- R115: a value exceeds threshold `j` where its square exceeds the power. -/
theorem exceeds_iff (a j : Nat) : exceeds a j = true ↔ 10 ^ 6 * altRatio ^ (2 * j - 1) < (a : ℚ) ^ 2 := by
  have hpos : (0 : ℚ) < 500 ^ (2 * j - 1) := by positivity
  rw [exceeds, decide_eq_true_eq, altRatio, div_pow, mul_div_assoc', div_lt_iff₀ hpos, gt_iff_lt]
  exact_mod_cast Iff.rfl

/-- 250 steps of the ratio are more than 13/8. -/
theorem altRatio_pow_250 : (13 / 8 : ℚ) ≤ altRatio ^ 250 := by norm_num [altRatio]

/-- R115: no value up to 100000 ft exceeds the last threshold. -/
theorem exceeds_last_eq_false {a : Nat} (ha : a ≤ 10 ^ 8) : exceeds a 8280 = false := by
  rw [← Bool.not_eq_true, exceeds_iff, not_lt]
  have ha' : (a : ℚ) ≤ 10 ^ 8 := by exact_mod_cast ha
  calc (a : ℚ) ^ 2 ≤ (10 ^ 8) ^ 2 := by gcongr
    _ ≤ 10 ^ 6 * (13 / 8) ^ 66 := by norm_num
    _ ≤ 10 ^ 6 * (altRatio ^ 250) ^ 66 := by gcongr; exact altRatio_pow_250
    _ = 10 ^ 6 * altRatio ^ 16500 := by rw [← pow_mul]
    _ ≤ 10 ^ 6 * altRatio ^ (2 * 8280 - 1) := by gcongr; exacts [one_le_altRatio, by decide]

/-- R115: the square of a value lies between the squares of its code's altitude, half a step down and half a step up. -/
theorem altCode_brackets {a : Nat} (hlo : 1000 ≤ a) (hhi : a ≤ 10 ^ 8) :
    (1000 * altRatio ^ altCode a) ^ 2 ≤ altRatio * (a : ℚ) ^ 2
      ∧ (a : ℚ) ^ 2 ≤ altRatio * (1000 * altRatio ^ altCode a) ^ 2 := by
  obtain ⟨hle, hexceeds, hnot⟩ := altCode_spec a
  have hne : altCode a ≠ 8280 := fun h => by
    rw [h] at hexceeds
    simp [exceeds_last_eq_false hhi] at hexceeds
  generalize altCode a = c at *
  have hlo' : (1000 : ℚ) ≤ a := by exact_mod_cast hlo
  have hstep := one_le_altRatio
  constructor
  · cases c with
    | zero =>
      rw [pow_zero, mul_one]
      nlinarith
    | succ c =>
      have h := (exceeds_iff a (c + 1)).mp (hexceeds.resolve_left c.succ_ne_zero)
      rw [show 2 * (c + 1) - 1 = 2 * c + 1 by omega] at h
      calc (1000 * altRatio ^ (c + 1)) ^ 2 = altRatio * (10 ^ 6 * altRatio ^ (2 * c + 1)) := by ring
        _ ≤ altRatio * (a : ℚ) ^ 2 := by gcongr
  · have h := hnot (c + 1) (by omega) (by omega)
    rw [← Bool.not_eq_true, exceeds_iff, not_lt, show 2 * (c + 1) - 1 = 2 * c + 1 by omega] at h
    calc (a : ℚ) ^ 2 ≤ 10 ^ 6 * altRatio ^ (2 * c + 1) := h
      _ = altRatio * (1000 * altRatio ^ c) ^ 2 := by ring

/-- Half a step up or down is less than a thousandth, because 1.001 squared exceeds the ratio. -/
theorem abs_sub_le_of_brackets {a v : ℚ} (ha : 0 ≤ a) (hv : 0 ≤ v) (hup : v ^ 2 ≤ altRatio * a ^ 2)
    (hdown : a ^ 2 ≤ altRatio * v ^ 2) : |v - a| ≤ a / 1000 := by
  rw [altRatio] at hup hdown
  have hle : v ≤ 1001 / 1000 * a := by
    rw [← pow_le_pow_iff_left₀ hv (by positivity) two_ne_zero]
    nlinarith
  have hge : 999 / 1000 * a ≤ v := by
    rw [← pow_le_pow_iff_left₀ (by positivity) hv two_ne_zero]
    nlinarith
  rw [abs_le]
  constructor <;> linarith

/-- R112, R116: the altitude of a value's code, rounded, is within a thousandth and a half of the value. -/
theorem altValue_altCode {a : Nat} (hlo : 1000 ≤ a) (hhi : a ≤ 10 ^ 8) :
    |((BitVec.ofInt 64 (altValue (altCode a))).toInt : ℚ) - a| ≤ a / 1000 + 1 / 2 := by
  obtain ⟨hup, hdown⟩ := altCode_brackets hlo hhi
  have hclose := abs_le.mp (abs_sub_le_of_brackets a.cast_nonneg (by unfold altRatio; positivity) hup hdown)
  obtain ⟨hfloor, hceil⟩ := roundHalfUp_bounds (1000 * altRatio ^ altCode a)
  have hvalue : (altValue (altCode a) : ℚ) = roundHalfUp (1000 * altRatio ^ altCode a) := by rw [altValue_eq, altRatio]
  have hvalueClose : |(altValue (altCode a) : ℚ) - a| ≤ a / 1000 + 1 / 2 := by
    rw [hvalue, abs_le]
    constructor <;> linarith
  have hsmall : (altValue (altCode a)).natAbs < 2 ^ 63 := by
    have hhi' : (a : ℚ) ≤ 10 ^ 8 := by exact_mod_cast hhi
    have ha : (0 : ℚ) ≤ a := a.cast_nonneg
    obtain ⟨hmin, hmax⟩ := abs_le.mp hvalueClose
    have hmin' : ((-(10 ^ 9) : ℤ) : ℚ) ≤ altValue (altCode a) := by push_cast; linarith
    have hmax' : (altValue (altCode a) : ℚ) ≤ ((10 ^ 9 : ℤ) : ℚ) := by push_cast; linarith
    rw [Int.cast_le] at hmin' hmax'
    omega
  rwa [toInt_ofInt_of_small hsmall]

/-! ### The obligation -/

/-- R111: ALT.ENC writes the two-digit text of its code. -/
theorem chr91_pair_eq_codeText {c : Nat} (h : c ≤ 8280) :
    [BitVec.ofNat 8 (33 + c / 91), BitVec.ofNat 8 (33 + c % 91)] = codeText c 2 := by
  have hmod : c / 91 % 91 = c / 91 := Nat.mod_eq_of_lt (by omega)
  simp [codeText, List.range_succ, hmod]

/-- Settles O49: the window holds the two digits of the code, and ALT.DEC writes the rounded altitude of it. -/
theorem altitudeRoundTrip : Obligations.AltitudeRoundTrip := by
  intro s t u hp hlo hhi ht hwin hlen hbytes
  obtain ⟨t', c, ht', hc, -, hwrote⟩ := altitudeEncodeCountsThresholds s hp
  obtain rfl : t = t' := Host.Outcome.next.inj (ht.symm.trans ht')
  obtain ⟨a, ha⟩ : ∃ a : Nat, s.point.alt.toInt = a := ⟨s.point.alt.toInt.toNat, by omega⟩
  have hcode : c = altCode a := by rw [hc, if_neg (by omega), altCode_eq_count, ha, Int.toNat_natCast]
  have hle : c ≤ 8280 := hcode ▸ (altCode_spec a).1
  rw [chr91_pair_eq_codeText hle] at hwrote
  obtain ⟨hn, hholds⟩ := holdsAt_of_output hwrote (by simp) hlen hbytes
  obtain ⟨hdigits, hpoint⟩ := codePoint_of_holdsAt (by omega) hholds
  simp only [Nat.zero_add] at hdigits
  have hvalue : 91 * u.b91Value 0 + u.b91Value 1 = c := by rw [← hpoint, codePoint_two]
  refine ⟨_, (altitudeSpeedRangeDecode.1.2 u hwin (by simpa using hn)).1 hdigits, ?_⟩
  simp only [hvalue, ← altValue_eq, hcode, ha, Int.cast_natCast]
  exact altValue_altCode (by omega) (by omega)

end Sys2Proof.Proofs

/-! The round trips of 44_ax25.md (R204). First the seven bytes of an address and the entry they stand for, in both
directions, then a frame in a window, then the obligations. -/

namespace Sys2Proof.Proofs

open Sys2Proof.Machine Sys2Proof.Laws

/-! ### The callsign bytes of a decoded entry (R38, R196) -/

/-- R38, R196: byte `k` of a decoded callsign is the byte of the address without its low bit. -/
theorem callByte_of_decoded {b : Nat → Byte} {e : AddrEntry} (h : IsDecodedAddress b e) {k : Nat} (hk : k < 6) :
    e.call.toNat / 2 ^ (8 * k) % 2 ^ 8 = (b k).toNat / 2 := by
  obtain ⟨hcall, -⟩ := h
  simp only [Finset.sum_range_succ, Finset.sum_range_zero, Nat.zero_add] at hcall
  rw [hcall]
  interval_cases k <;> omega

/-- R196: CLEN of a decoded entry is determined by where the trailing spaces begin. -/
theorem clen_of_decoded {b : Nat → Byte} {e : AddrEntry} (h : IsDecodedAddress b e) {n : Nat} (hn : n ≤ 6)
    (hspaces : ∀ k, n ≤ k → k < 6 → (b k).toNat / 2 = 0x20) (hlast : ∀ k, k + 1 = n → (b k).toNat / 2 ≠ 0x20) :
    e.info.clen.toNat = n := by
  obtain ⟨-, hle, hspaces', hlast', -⟩ := h
  rcases Nat.lt_trichotomy e.info.clen.toNat n with hlt | heq | hlt
  · exact absurd (hspaces' (n - 1) (by omega) (by omega)) (hlast (n - 1) (by omega))
  · exact heq
  · exact absurd (hspaces (e.info.clen.toNat - 1) (by omega) (by omega)) (hlast' _ (by omega))

/-! ### Decoded, then encoded (R204 (b)) -/

/-- R192: the SSID byte of an entry whose reserved bits were 1 1. -/
theorem ssidByte_of_decoded {b : Nat → Byte} {e : AddrEntry} (h : IsDecodedAddress b e)
    (hrsv : (b 6).toNat / 32 % 4 = 3) : BitVec.ofNat 8
      ((if e.info.ch then 0x80 else 0) + 0x60 + 2 * e.info.ssid.toNat + (if e.info.last then 1 else 0)) = b 6 := by
  obtain ⟨-, -, -, -, hssid, hch, hlast, -⟩ := h
  apply BitVec.eq_of_toNat_eq
  have := (b 6).isLt
  rw [BitVec.toNat_ofNat, hssid]
  simp only [hch, hlast]
  split <;> split <;> omega

/-- R204: the bytes of a decoded entry are the bytes it was decoded from, where nothing was dropped. -/
theorem addressBytes_of_decoded {b : Nat → Byte} {e : AddrEntry} (h : IsDecodedAddress b e)
    (hlow : ∀ k < 6, (b k).toNat % 2 = 0) (hrsv : (b 6).toNat / 32 % 4 = 3) :
    addressBytes e e.info.last = (List.range 7).map b := by
  rw [addressBytes, ssidByte_of_decoded h hrsv, show List.range 7 = List.range 6 ++ [6] from rfl, List.map_append,
    List.map_singleton]
  congr 1
  refine List.map_congr_left fun k hk => ?_
  have hk6 : k < 6 := List.mem_range.mp hk
  have hbyte := callByte_of_decoded h hk6
  have heven := hlow k hk6
  have := (b k).isLt
  obtain ⟨-, -, hspaces, -⟩ := h
  apply BitVec.eq_of_toNat_eq
  split
  · rw [hbyte, BitVec.toNat_ofNat]
    omega
  · have hspace := hspaces k (by omega) hk6
    change 0x40 = _
    omega

/-! ### Encoded, then decoded (R204 (a)) -/

/-- An entry that an encoded address keeps (R204): it may be encoded, its callsign bytes lose no bit, and its last
callsign byte is no space that decoding would trim. -/
def Encodable (e : AddrEntry) : Prop :=
  (e.info.clen.toNat ≤ 6 ∧ e.info.ssid.toNat ≤ 15) ∧ (∀ k < e.info.clen.toNat, (e.callByte k).toNat < 0x80)
    ∧ ∀ k, k + 1 = e.info.clen.toNat → e.callByte k ≠ 0x20

/-- R191: an encoded callsign byte. -/
theorem addressBytes_call (e : AddrEntry) (last : Bool) {k : Nat} (hk : k < 6) :
    (addressBytes e last)[k]'(by rw [addressBytes_length]; omega) =
      if k < e.info.clen.toNat then BitVec.ofNat 8 (2 * (e.callByte k).toNat) else 0x40 := by
  simp only [addressBytes, callByte_toNat]
  rw [List.getElem_append_left (by simpa using hk)]
  simp

/-- R192: an encoded SSID byte. -/
theorem addressBytes_ssid (e : AddrEntry) (last : Bool) :
    (addressBytes e last)[6]'(by rw [addressBytes_length]; omega) = BitVec.ofNat 8
      ((if e.info.ch then 0x80 else 0) + 0x60 + 2 * e.info.ssid.toNat + (if last then 1 else 0)) := by
  simp [addressBytes]

/-- What decoding restores of an encoded entry (R204). -/
def Restored (e d : AddrEntry) (last : Bool) : Prop :=
  d.info.clen = e.info.clen ∧ d.info.ssid = e.info.ssid ∧ d.info.ch = e.info.ch
    ∧ (∀ k < e.info.clen.toNat, d.callByte k = e.callByte k) ∧ d.info.last = last ∧ d.info.rsv = 3

/-- R204: the entry decoded from the bytes of an encoded one. -/
theorem restored_of_decoded {b : Nat → Byte} {e d : AddrEntry} {last : Bool} (he : Encodable e)
    (hb : ∀ k, (hk : k < 7) → b k = (addressBytes e last)[k]'(by rw [addressBytes_length]; exact hk))
    (hd : IsDecodedAddress b d) : Restored e d last := by
  obtain ⟨⟨hclen, hssid⟩, hascii, hlast⟩ := he
  have hcall : ∀ k < e.info.clen.toNat, (b k).toNat / 2 = (e.callByte k).toNat := fun k hk => by
    have := hascii k hk
    rw [hb k (by omega), addressBytes_call e last (by omega), if_pos hk, BitVec.toNat_ofNat]
    omega
  have hpad : ∀ k, e.info.clen.toNat ≤ k → k < 6 → (b k).toNat / 2 = 0x20 := fun k hk hk6 => by
    rw [hb k (by omega), addressBytes_call e last hk6, if_neg (by omega)]
    rfl
  have hend : ∀ k, k + 1 = e.info.clen.toNat → (b k).toNat / 2 ≠ 0x20 := fun k hk h => by
    rw [hcall k (by omega)] at h
    exact hlast k hk (BitVec.eq_of_toNat_eq h)
  have hssidByte : (b 6).toNat = (if e.info.ch then 0x80 else 0) + 0x60 + 2 * e.info.ssid.toNat
      + (if last then 1 else 0) := by
    rw [hb 6 (by decide), addressBytes_ssid, BitVec.toNat_ofNat]
    split <;> split <;> omega
  have hcallByte : ∀ k < e.info.clen.toNat, d.callByte k = e.callByte k := fun k hk =>
    BitVec.eq_of_toNat_eq (by rw [callByte_toNat, callByte_of_decoded hd (by omega), hcall k hk])
  have hclenEq := BitVec.eq_of_toNat_eq (clen_of_decoded hd hclen hpad hend)
  obtain ⟨-, -, -, -, hdssid, hdch, hdlast, hdrsv⟩ := hd
  refine ⟨hclenEq, BitVec.eq_of_toNat_eq ?_, Bool.eq_iff_iff.mpr (hdch.trans ?_), hcallByte,
    Bool.eq_iff_iff.mpr (hdlast.trans ?_), BitVec.eq_of_toNat_eq ?_⟩
  · rw [hdssid, hssidByte]
    split <;> split <;> omega
  · rw [hssidByte]
    cases e.info.ch <;> simp <;> split <;> omega
  · rw [hssidByte]
    cases last <;> simp <;> split <;> omega
  · rw [hdrsv, hssidByte]
    change _ = 3
    split <;> split <;> omega

/-! ### A frame in a window (R197) -/

/-- A window that holds texts of seven bytes one after another holds each at its place. -/
theorem holdsAt_flatMap {u : State} {f : Nat → List Byte} (hf : ∀ j, (f j).length = 7) {n : Nat}
    (h : HoldsAt u 0 ((List.range n).flatMap f)) : ∀ j < n, HoldsAt u (7 * j) (f j) := by
  induction n with
  | zero => exact fun j hj => absurd hj (Nat.not_lt_zero j)
  | succ n ih =>
    rw [List.range_succ, List.flatMap_append, List.flatMap_singleton, holdsAt_append] at h
    intro j hj
    rcases Nat.lt_succ_iff_lt_or_eq.mp hj with hlt | rfl
    · exact ih h.1 j hlt
    · have hlen : ((List.range j).flatMap f).length = 7 * j := by simp [List.length_flatMap, hf, Nat.mul_comm]
      simpa [hlen] using h.2

/-- A frame in a window (R197): its addresses, the header and the payload. -/
theorem frame_of_holdsAt {s u : State} (h : HoldsAt u 0 (frameBytes s)) :
    (∀ j < s.naddr.toNat, HoldsAt u (7 * j) (addressBytes (s.entry j) (decide (j + 1 = s.naddr.toNat))))
      ∧ u.inByte (7 * s.naddr.toNat) = 0x03 ∧ u.inByte (7 * s.naddr.toNat + 1) = 0xF0
      ∧ ∀ k < s.ilen.toNat, u.inByte (7 * s.naddr.toNat + 2 + k) = s.inByte k := by
  have hlen : ((List.range s.naddr.toNat).flatMap fun j =>
      addressBytes (s.entry j) (decide (j + 1 = s.naddr.toNat))).length = 7 * s.naddr.toNat := by
    simp [List.length_flatMap, Nat.mul_comm]
  rw [frameBytes, holdsAt_append, holdsAt_append, holdsAt_cons, holdsAt_singleton, List.length_append, hlen,
    Nat.zero_add] at h
  obtain ⟨⟨haddrs, hctrl, hpid⟩, hpayload⟩ := h
  refine ⟨holdsAt_flatMap (fun _ => addressBytes_length _ _) haddrs, hctrl, hpid, fun k hk => ?_⟩
  have := hpayload k (by simpa using hk)
  simpa [Nat.add_assoc] using this

/-- R192: LAST of an encoded address, where it stands in the window. -/
theorem lastBit_of_holdsAt {u : State} {i : Nat} {e : AddrEntry} {last : Bool} (h : HoldsAt u i (addressBytes e last)) :
    (u.inByte (i + 6)).toNat % 2 = if last then 1 else 0 := by
  rw [h 6 (by rw [addressBytes_length]; decide), addressBytes_ssid, BitVec.toNat_ofNat]
  split <;> split <;> omega

/-! ### The obligations -/

/-- Settles O53: entry 0 is the decoded address, which may be encoded, and its bytes are those of the window. -/
theorem addressRoundTrip : Obligations.AddressRoundTrip := by
  intro s t hp htable hwin hlen hlow hrsv ht
  have hmax := hp.2.2.1
  obtain ⟨e, hdec, hdecoded⟩ := (addressDecodeReadsSevenBytes.2 s hwin).1 hlen htable hmax
  have hstate := Host.Outcome.next.inj (ht.symm.trans hdec)
  have hentry : t.entry 0 = e := by
    rw [hstate]
    exact entry_set_same e (by omega)
  have hparams : t.params.valid := by
    rw [hstate]
    exact hp
  have hvalid : t.entryValid 0 := by
    obtain ⟨-, hclen, -, -, hssid, -⟩ := hdecoded
    rw [State.entryValid, hentry]
    exact ⟨hclen, by omega⟩
  obtain ⟨v, hexec, -, hwrote, -⟩ := (addressEncodeWritesSevenBytes t hparams).1 hvalid
  rw [hentry, addressBytes_of_decoded hdecoded hlow hrsv] at hwrote
  exact ⟨v, hexec, hwrote⟩

/-- Settles O54: the frame stands in the window as it was encoded, so each entry is restored, LAST ends the loop after
NADDR addresses, and the payload is the remainder. -/
theorem frameRoundTrip : Obligations.FrameRoundTrip := by
  intro s t u hp hswin h2 hmax hentries hfit ht hparams htable hwin hlen hbytes
  obtain ⟨t', ht', -, hwrote, -⟩ := frameEncodeWritesFrame s hp hswin h2 hmax (fun i hi => (hentries i hi).1) hfit
  obtain rfl : t = t' := Host.Outcome.next.inj (ht.symm.trans ht')
  obtain ⟨⟨-, hibuf⟩, ⟨-, hobuf⟩, -, haddr⟩ := hp
  obtain ⟨hn, hholds⟩ := holdsAt_of_output (bs := frameBytes s) hwrote (by rw [frameBytes_length]; omega) hlen hbytes
  rw [frameBytes_length] at hn
  obtain ⟨haddrs, hctrl, hpid, hpayload⟩ := frame_of_holdsAt hholds
  have hbit : ∀ j < s.naddr.toNat, (u.inByte (7 * j + 6)).toNat % 2 = if j + 1 = s.naddr.toNat then 1 else 0 :=
    fun j hj => by simpa using lastBit_of_holdsAt (haddrs j hj)
  have hmore : ∀ j, j + 1 < s.naddr.toNat → (u.inByte (7 * j + 6)).toNat % 2 = 0 := fun j hj => by
    rw [hbit j (by omega), if_neg (by omega)]
  have hlast : (u.inByte (7 * (s.naddr.toNat - 1) + 6)).toNat % 2 = 1 := by
    rw [hbit _ (by omega), if_pos (by omega)]
  refine ⟨_, exec_ax25DecF_ok (by omega) (by rw [hparams]; exact hmax) (by omega) hmore hlast hwin (by omega), rfl, ?_,
    fun i hi => ?_, ?_, ?_, ?_, hpayload⟩
  · simp
  · rw [entry_of_decodedEntries (s := u) (n := s.naddr.toNat) rfl, if_pos hi]
    exact restored_of_decoded (hentries i hi)
      (fun k hk => haddrs i hi k (by rw [addressBytes_length]; exact hk)) (decAddr_isDecoded u (7 * i))
  · simp only [hctrl, hpid]
  · have hsum : u.ioff.toNat + u.ilen.toNat ≤ s.params.ibufSize := hparams ▸ hwin
    rw [BitVec.toNat_ofNat]
    omega
  · rw [hn, Nat.add_sub_cancel_left, BitVec.ofNat_toNat, BitVec.setWidth_eq]

end Sys2Proof.Proofs

/-! The invariant of the block (R5, R25, R27, R28, R43, R50, R231): it holds at reset, and every step keeps it. First what
a state keeps that its fields determine, then the commands, then the host's events, then the obligations. -/

namespace Sys2Proof.Proofs

open Sys2Proof.Machine Sys2Proof.Laws

/-! ### The invariant of a state whatever its BUSY and RST -/

/-- The invariant but for the two clauses on BUSY and RST: what a command may rely on and must leave. -/
structure Sound (s : State) : Prop where
  params : s.params.valid
  table : s.addrs.length = s.params.maxAddr
  memForm : s.mem.wf
  memInBuffers : ∀ c ∈ s.mem, inBuffer s.params c.1 = true
  output : s.olen.toNat ≤ s.params.obufSize
  remainder : s.remOff.toNat + s.remLen.toNat ≤ s.params.ibufSize
  errCode : s.status.err.toNat ≤ 9
  noError : s.status.err = 0 → s.status.efield = 0 ∧ s.status.ebyte = 0 ∧ s.status.epos = 0

theorem sound_of_inv {s : State} (h : s.Inv) : Sound s :=
  ⟨h.params, h.table, h.memForm, h.memInBuffers, h.output, h.remainder, h.errCode, h.noError⟩

/-- A sound idle block meets the invariant. -/
theorem inv_of_sound {s : State} (h : Sound s) (hp : s.pend = none) : s.Inv :=
  { params := h.params
    table := h.table
    memForm := h.memForm
    memInBuffers := h.memInBuffers
    busyStatus := fun hb => by simp [State.busy, hp] at hb
    resetIdle := fun _ => hp
    output := h.output
    remainder := h.remainder
    errCode := h.errCode
    noError := h.noError }

/-- The invariant reads the fields named here and no other. -/
theorem inv_of_eq {s t : State} (h : s.Inv) (hparams : t.params = s.params) (htable : t.addrs.length = s.addrs.length)
    (hmem : t.mem = s.mem) (hpend : t.pend = s.pend) (hstatus : t.status = s.status) (hrst : t.rst = s.rst)
    (holen : t.olen = s.olen) (hoff : t.remOff = s.remOff) (hlen : t.remLen = s.remLen) : t.Inv := by
  constructor
  · rw [hparams]; exact h.params
  · rw [htable, hparams]; exact h.table
  · rw [hmem]; exact h.memForm
  · rw [hmem, hparams]; exact h.memInBuffers
  · rw [State.busy, hpend, hstatus]; exact h.busyStatus
  · rw [hrst, hpend]; exact h.resetIdle
  · rw [holen, hparams]; exact h.output
  · rw [hoff, hlen, hparams]; exact h.remainder
  · rw [hstatus]; exact h.errCode
  · rw [hstatus]; exact h.noError

/-! ### Commands (R87, R230) -/

/-- R231: the error of a raise is a code from 1 to 9. -/
theorem sound_raisedState {s : State} (h : Sound s) (r : Raise) : Sound (raisedState s r) :=
  { h with
    errCode := (Err.code_range r.err).2
    noError := fun h0 => absurd h0 (Err.code_ne_zero r.err) }

/-- R50, R57: the output keeps the form of the memory and stays in OBUF. -/
theorem sound_memory_of_output {s u : State} (h : Sound s) (hparams : u.params = s.params) (ho : Output s u) :
    u.mem.wf ∧ (∀ c ∈ u.mem, inBuffer u.params c.1 = true) ∧ u.olen.toNat ≤ u.params.obufSize := by
  rw [hparams]
  rcases ho with ⟨hmem, holen⟩ | ⟨bs, hfit, hmem, holen⟩
  · rw [hmem, holen]
    exact ⟨h.memForm, h.memInBuffers, h.output⟩
  · rw [hmem, holen]
    refine ⟨wf_writeBytes bs h.memForm obufBase, fun c hc => ?_, ?_⟩
    · rcases mem_writeBytes hc with ⟨hlo, hhi⟩ | hc
      · simp only [inBuffer, Bool.or_eq_true, Bool.and_eq_true, decide_eq_true_eq]
        omega
      · exact h.memInBuffers c hc
    · obtain ⟨-, ⟨-, hobuf⟩, -⟩ := h.params
      rw [BitVec.toNat_ofNat]
      omega

/-- R28: the remainder is a range of IBUF. -/
theorem sound_remainder {s u : State} (h : Sound s) (hr : Remainder s u) :
    u.remOff.toNat + u.remLen.toNat ≤ s.params.ibufSize := by
  rcases hr with ⟨hoff, hlen⟩ | ⟨hw, n, hn, hoff, hlen⟩
  · rw [hoff, hlen]
    exact h.remainder
  · obtain ⟨⟨-, hibuf⟩, -⟩ := h.params
    unfold State.windowOk at hw
    rw [hoff, hlen, BitVec.toNat_ofNat, BitVec.toNat_ofNat]
    omega

/-- R76: what a command writes before it completes without an error. -/
theorem sound_of_result {i : Instr} {s u : State} (h : Sound s) (hr : Result i s u) : Sound u := by
  have hchanged := result_changed hr
  have hparams : u.params = s.params := by rw [hchanged]
  obtain ⟨hform, hin, hout⟩ := sound_memory_of_output h hparams (result_output hr)
  refine ⟨hparams ▸ h.params, ?_, hform, hin, hout, ?_, ?_, ?_⟩
  · rw [result_table hr h.table, hparams, h.table]
  · rw [hparams]
    exact sound_remainder h (result_remainder hr)
  · rw [hchanged]
    exact h.errCode
  · rw [hchanged]
    exact h.noError

/-- R153: the outputs that a matched decoder keeps on an error. -/
theorem sound_matchedReport {s : State} {n : Nat} (a b : Nat) (h : Sound s) (hw : s.windowOk) (hn : n ≤ s.ilen.toNat) :
    Sound (s.matchedReport n a b) :=
  { h with remainder := sound_remainder (s := s) h (.inr ⟨hw, n, hn, rfl, rfl⟩) }

/-- However a command ends, it leaves the invariant. -/
theorem inv_of_ends {i : Instr} {s t : State} (h : Sound s) (he : Ends i s t) : t.Inv := by
  cases he with
  | ok u hr => exact inv_of_sound { sound_of_result h hr with } rfl
  | raised r => exact inv_of_sound (sound_raisedState h r) rfl
  | matchedRaised n a b r hl hw hn => exact inv_of_sound (sound_raisedState (sound_matchedReport a b h hw hn) r) rfl

/-- The engine step leaves the invariant. -/
theorem inv_of_engineStep {c : Word} {s t : State} (h : s.Inv) (ht : engineStep c s = .next t) : t.Inv := by
  have hs : Sound s.sampleNow := { sound_of_inv h with }
  unfold engineStep at ht
  split at ht
  · exact inv_of_ends hs (exec_cases ht)
  · rw [execIllegal_eq] at ht
    obtain rfl := Host.Outcome.next.inj ht
    exact inv_of_sound (sound_raisedState hs _) rfl

/-! ### Host events (R52, R56, R85, R86, R260) -/

/-- OVR is in no clause of the invariant (R25). -/
theorem inv_ovr {s : State} (h : s.Inv) (b : Bool) : { s with status := { s.status with ovr := b } }.Inv :=
  { h with
    busyStatus := fun hb => congrArg (fun t : Status => { t with ovr := b }) (h.busyStatus hb) }

theorem inv_writeStatus {s : State} (h : s.Inv) (v : Word) : (s.writeStatus v).Inv := by
  rw [writeStatus_eq]
  exact inv_ovr h _

theorem inv_bufWriteAll {s : State} (h : s.Inv) (a : Nat) (xs : List Byte) : (s.bufWriteAll a xs).Inv := by
  induction xs generalizing s a with
  | nil => exact h
  | cons x xs ih =>
    refine ih ?_ (a + 1)
    obtain ⟨hform, hin⟩ := bufWrite_keeps ⟨h.memForm, h.memInBuffers⟩ a x
    rw [bufWrite_eq]
    exact { h with memForm := hform, memInBuffers := hin }

/-- R85: acceptance clears the error fields, and it happens while RST is released. -/
theorem inv_accept {s : State} (h : s.Inv) (hrst : s.rst = false) (c : Word) (d n : Nat) :
    { s.accept c d with draws := n }.Inv :=
  { h with
    busyStatus := fun _ => rfl
    resetIdle := fun hr => by
      change s.rst = true at hr
      simp [hrst] at hr
    errCode := Nat.zero_le 9
    noError := fun _ => ⟨rfl, rfl, rfl⟩ }

theorem inv_writeReg {s : State} (h : s.Inv) (hrst : s.rst = false) (v : Word) (r : Reg) : (s.writeReg v r).Inv := by
  cases r with
  | cmd => exact inv_accept h hrst v _ _
  | status => exact inv_writeStatus h v
  | olen | remOff | remLen | frameHdr => exact h
  | addrCall | addrMeta => exact inv_of_eq h rfl List.length_set rfl rfl rfl rfl rfl rfl rfl
  | _ => exact inv_of_eq h rfl rfl rfl rfl rfl rfl rfl rfl rfl

theorem inv_hostWrite {s : State} (h : s.Inv) (hrst : s.rst = false) (v : Word) (t : Target) : (s.hostWrite v t).Inv := by
  unfold State.hostWrite
  split
  · exact inv_writeStatus h v
  · split
    · exact inv_ovr h true
    · cases t with
      | register off =>
        cases hreg : regAt s.params.maxAddr off with
        | none => simpa only [State.writeIdle, hreg] using h
        | some r => simpa only [State.writeIdle, hreg] using inv_writeReg h hrst v r
      | buffer off n => exact inv_bufWriteAll h off _

theorem inv_hostRead {s : State} (h : s.Inv) (t : Target) : (s.hostRead t).Inv := by
  obtain ⟨v, draws, ht⟩ := hostRead_reply s t
  rw [ht]
  exact inv_of_eq h rfl rfl rfl rfl rfl rfl rfl rfl rfl

/-- R45: the reset state of admitted parameters. -/
theorem sound_resetWith {p : Params} (hp : p.valid) : Sound (State.resetWith p) :=
  { params := hp
    table := List.length_replicate
    memForm := List.Pairwise.nil
    memInBuffers := fun _ hc => absurd hc List.not_mem_nil
    output := Nat.zero_le _
    remainder := Nat.zero_le _
    errCode := Nat.zero_le 9
    noError := fun _ => ⟨rfl, rfl, rfl⟩ }

theorem inv_assertReset {s : State} (h : s.Inv) : s.assertReset.Inv :=
  inv_of_sound { sound_resetWith h.params with } rfl

theorem inv_releaseReset {s : State} (h : s.Inv) : s.releaseReset.Inv :=
  { h with resetIdle := fun hr => by cases hr }

/-- R260: an access that has a target is made while RST is released. -/
theorem rst_of_accessTarget {s : State} {size : AccessSize} {addr : Nat} {t : Target}
    (h : accessTarget s size addr = .ok t) : s.rst = false := by
  unfold accessTarget at h
  split at h
  · cases h
  · simpa using ‹¬ s.rst = true›

/-- Every event keeps the invariant. -/
theorem inv_of_hostEvent {s t : State} {e : HostEvent} (h : s.Inv) (ht : hostEvent s e = .next t) : t.Inv := by
  cases e with
  | read size addr =>
    cases htarget : accessTarget s size addr with
    | ok target =>
      obtain rfl := Host.Outcome.next.inj ((hostEvent_read htarget).symm.trans ht)
      exact inv_hostRead h target
    | error r => cases (hostEvent_of_accessTarget_error 0 htarget).1.symm.trans ht
  | write size addr v =>
    cases htarget : accessTarget s size addr with
    | ok target =>
      obtain rfl := Host.Outcome.next.inj ((hostEvent_write v htarget).symm.trans ht)
      exact inv_hostWrite h (rst_of_accessTarget htarget) v target
    | error r => cases (hostEvent_of_accessTarget_error v htarget).2.symm.trans ht
  | rst level =>
    cases level with
    | true =>
      obtain rfl := Host.Outcome.next.inj ht
      exact inv_assertReset h
    | false =>
      obtain rfl := Host.Outcome.next.inj ht
      exact inv_releaseReset h

theorem inv_of_hostTurn {s t : State} (h : s.Inv) (ht : hostTurn s = .next t) : t.Inv := by
  unfold hostTurn at ht
  split at ht
  · obtain rfl := Host.Outcome.next.inj ht
    exact h
  · refine inv_of_hostEvent ?_ ht
    exact inv_of_eq h rfl rfl rfl rfl rfl rfl rfl rfl rfl

/-! ### The obligations -/

/-- Settles O56: the reset state is sound and idle. -/
theorem resetMeetsTheInvariant : Obligations.ResetMeetsTheInvariant :=
  ⟨fun _ hp => inv_of_sound (sound_resetWith hp) rfl, inv_of_sound (sound_resetWith (by decide)) rfl⟩

/-- Settles O55: the engine step and the host's turn, with and without a step of LATENCY, keep the invariant. -/
theorem stepKeepsTheInvariant : Obligations.StepKeepsTheInvariant := by
  intro s t h ht
  unfold step at ht
  split at ht
  · exact inv_of_hostTurn h ht
  · split at ht
    · exact inv_of_hostTurn h ht
    · split at ht
      · exact inv_of_engineStep h ht
      · exact inv_of_hostTurn (s := s.tick) (inv_of_eq h rfl rfl rfl rfl rfl rfl rfl rfl rfl) ht

end Sys2Proof.Proofs

/-! What a command may change (R20, R27, R57, R76) and what may influence it (R32, R76). First the three ways a command
ends as what each writes, then the commands with their operands perturbed, then the obligations. -/

namespace Sys2Proof.Proofs

open Sys2Proof.Machine Sys2Proof.Laws

/-! ### What a command writes (R57, R76) -/

/-- The fields that a command may change (R76): STATUS but OVR, the output, the remainder, VAL, the Point, P_SYM, the
frame registers and the bytes of the buffers. -/
def WrittenByCommand (s t : State) : Prop :=
  t.status.ovr = s.status.ovr ∧ t =
    { s with
      pend := none, status := t.status, olen := t.olen, remOff := t.remOff, remLen := t.remLen, val := t.val
      point := t.point, sym := t.sym, frameHdr := t.frameHdr, naddr := t.naddr, addrs := t.addrs, mem := t.mem }

theorem writtenByCommand_of_ends {i : Instr} {s t : State} (h : Ends i s t) : WrittenByCommand s t := by
  cases h with
  | ok u hr =>
    rw [result_changed hr]
    exact ⟨rfl, rfl⟩
  | raised r => exact ⟨rfl, rfl⟩
  | matchedRaised n a b r => exact ⟨rfl, rfl⟩

/-- A command that is no position decoder ends with its result or undone (R230, R234). -/
theorem ends_of_not_layout {i : Instr} {s t : State} (h : Ends i s t) (hi : i ∉ layouts.map (·.1)) :
    (∃ u, Result i s u ∧ t = u.completed) ∨ ∃ r, t = raisedState s r := by
  cases h with
  | ok u hr => exact .inl ⟨u, hr, rfl⟩
  | raised r => exact .inr ⟨r, rfl⟩
  | matchedRaised n a b r hl => exact absurd (List.mem_map.mpr ⟨_, hl, rfl⟩) hi

/-- R27, R57: the output of a command, if it has not raised; if it has, none. -/
theorem output_of_ends {i : Instr} {s t : State} (h : Ends i s t) : Output s t := by
  cases h with
  | ok u hr =>
    have ho := result_output hr
    exact ho
  | raised r => exact .inl ⟨rfl, rfl⟩
  | matchedRaised n a b r => exact .inl ⟨rfl, rfl⟩

/-- R25: MATCH is the position decoders'. -/
theorem result_status {i : Instr} {s u : State} (h : Result i s u) (hi : i ∉ layouts.map (·.1)) :
    u.status = s.status := by
  cases i with
  | nop => cases h; rfl
  | b91Enc | dmmEncLat | dmmEncLon | aprsEncU | aprsEncC | ax25EncA | ax25EncF => obtain ⟨_, _, rfl⟩ := h; rfl
  | b91Dec | latPre | lonPre | aprsClass | dmmDecLat | dmmDecLon => obtain ⟨_, rfl⟩ := h; rfl
  | latDec | lonDec | altDec | rngDec => obtain ⟨_, _, rfl⟩ := h; rfl
  | altEnc => obtain ⟨_, _, _, rfl⟩ := h; rfl
  | csDec => obtain ⟨_, _, _, rfl⟩ := h; rfl
  | aprsDecU | aprsDecT | aprsDecC => exact absurd (by decide) hi
  | ax25DecA => obtain ⟨_, _, rfl⟩ := h; rfl
  | ax25DecF => obtain ⟨_, _, _, _, rfl⟩ := h; rfl

/-- R76: the commands whose only result is VAL. -/
theorem writesVal {i : Instr} {s : State} (hi : (∃ w, i = .b91Dec w) ∨ i ∈ [Instr.latPre, .lonPre, .aprsClass]) :
    i ∉ layouts.map (·.1) ∧ ∀ {u}, Result i s u → ∃ v, u = { s with val := v } := by
  simp only [List.mem_cons, List.not_mem_nil, or_false] at hi
  rcases hi with ⟨w, rfl⟩ | rfl | rfl | rfl <;> exact ⟨by simp [layouts], fun h => h⟩

/-- R76: the commands whose only result is the output. -/
theorem writesOutput {i : Instr} {s : State} (hi : (∃ w, i = .b91Enc w)
    ∨ i ∈ [Instr.dmmEncLat, .dmmEncLon, .aprsEncU, .aprsEncC, .ax25EncA, .ax25EncF]) :
    i ∉ layouts.map (·.1) ∧ ∀ {u}, Result i s u → Emitted s u := by
  simp only [List.mem_cons, List.not_mem_nil, or_false] at hi
  rcases hi with ⟨w, rfl⟩ | rfl | rfl | rfl | rfl | rfl | rfl <;> exact ⟨by simp [layouts], fun h => h⟩

/-- R152, R154: the result of a position decoder. -/
theorem decoded_of_result {i : Instr} {s u : State} (hi : i ∈ [Instr.aprsDecU, .aprsDecT, .aprsDecC])
    (h : Result i s u) : ∃ n a b, Decoded n a b s u := by
  simp only [List.mem_cons, List.not_mem_nil, or_false] at hi
  rcases hi with rfl | rfl | rfl <;> exact ⟨_, _, _, h⟩

/-! ### The obligations -/

/-- Settles O57: none of the named fields is written by a command. -/
theorem commandsLeaveHostRegisters : Obligations.CommandsLeaveHostRegisters := by
  intro i s t h
  obtain ⟨hovr, hwritten⟩ := writtenByCommand_of_ends (exec_cases h)
  refine ⟨?_, ?_, ?_, ?_, ?_, ?_, hovr, ?_, ?_, ?_, ?_, ?_, ?_⟩ <;> rw [hwritten]

/-- Settles O58: a command leaves the bytes alone or writes OBUF[0] to OBUF[OLEN - 1]. -/
theorem commandsWriteOnlyOutputBytes : Obligations.CommandsWriteOnlyOutputBytes := by
  intro i s t hp h
  have hends := exec_cases h
  have hresets : t.resets = s.resets := by rw [(writtenByCommand_of_ends hends).2]
  rcases output_of_ends hends with ⟨hmem, -⟩ | ⟨bs, hfit, hmem, holen⟩
  · exact ⟨fun a _ => State.readByte_congr hmem hresets a, fun k _ => State.readByte_congr hmem hresets _⟩
  · obtain ⟨-, ⟨-, hobuf⟩, -⟩ := hp
    have hn : t.olen.toNat = bs.length := by
      rw [holen, BitVec.toNat_ofNat]
      omega
    obtain ⟨-, -, hother⟩ := wrote_writeBytes bs hmem hresets holen
    exact ⟨fun a ha => hother a fun k _ => by omega, fun k hk => hother _ fun j hj => by omega⟩

/-- Settles O59: the result of each command, or every write undone, or, for a matched position decoder, the writes that
an error keeps. -/
theorem commandsWriteOnlyListedRegisters : Obligations.CommandsWriteOnlyListedRegisters := by
  intro i s t h
  have hends := exec_cases h
  refine ⟨fun hi => ?_, ?_, fun hi => ?_, fun hi => ?_, ?_, ?_, ?_, ?_, ?_, ?_, ?_, ?_, fun hi => ?_, ?_, ?_⟩
  · rcases ends_of_not_layout hends hi with ⟨u, hr, rfl⟩ | ⟨r, rfl⟩
    · change u.status.matched = s.status.matched
      rw [result_status hr hi]
    · rfl
  · rintro rfl
    rcases ends_of_not_layout hends (by decide) with ⟨u, rfl, rfl⟩ | ⟨r, rfl⟩ <;> rfl
  · obtain ⟨hlayout, hresult⟩ := writesVal hi
    rcases ends_of_not_layout hends hlayout with ⟨u, hr, rfl⟩ | ⟨r, rfl⟩
    · obtain ⟨v, rfl⟩ := hresult hr
      rfl
    · rfl
  · obtain ⟨hlayout, hresult⟩ := writesOutput hi
    rcases ends_of_not_layout hends hlayout with ⟨u, hr, rfl⟩ | ⟨r, rfl⟩
    · obtain ⟨bs, -, rfl⟩ := hresult hr
      rfl
    · rfl
  · rintro rfl
    rcases ends_of_not_layout hends (by decide) with ⟨u, ⟨_, _, _, rfl⟩, rfl⟩ | ⟨r, rfl⟩ <;> rfl
  · rintro rfl
    rcases ends_of_not_layout hends (by decide) with ⟨u, ⟨_, _, rfl⟩, rfl⟩ | ⟨r, rfl⟩ <;> rfl
  · rintro rfl
    rcases ends_of_not_layout hends (by decide) with ⟨u, ⟨_, _, rfl⟩, rfl⟩ | ⟨r, rfl⟩ <;> rfl
  · rintro rfl
    rcases ends_of_not_layout hends (by decide) with ⟨u, ⟨_, _, rfl⟩, rfl⟩ | ⟨r, rfl⟩ <;> rfl
  · rintro rfl
    rcases ends_of_not_layout hends (by decide) with ⟨u, ⟨_, _, _, rfl⟩, rfl⟩ | ⟨r, rfl⟩ <;> rfl
  · rintro rfl
    rcases ends_of_not_layout hends (by decide) with ⟨u, ⟨_, _, rfl⟩, rfl⟩ | ⟨r, rfl⟩ <;> rfl
  · rintro rfl
    rcases ends_of_not_layout hends (by decide) with ⟨u, ⟨_, rfl⟩, rfl⟩ | ⟨r, rfl⟩ <;> rfl
  · rintro rfl
    rcases ends_of_not_layout hends (by decide) with ⟨u, ⟨_, rfl⟩, rfl⟩ | ⟨r, rfl⟩ <;> rfl
  · cases hends with
    | ok u hr =>
      obtain ⟨n, a, b, -, rfl | ⟨-, p, rfl⟩⟩ := decoded_of_result hi hr <;> rfl
    | raised r => rfl
    | matchedRaised n a b r => rfl
  · rintro rfl
    rcases ends_of_not_layout hends (by decide) with ⟨u, ⟨_, _, rfl⟩, rfl⟩ | ⟨r, rfl⟩
    · refine ⟨rfl, fun k hk => ?_⟩
      have hne : 0 ≠ k := by omega
      simp only [State.entry, State.completed_addrs, List.getD_eq_getElem?_getD, List.getElem?_set_ne hne]
    · exact ⟨rfl, fun _ _ => rfl⟩
  · rintro rfl
    rcases ends_of_not_layout hends (by decide) with ⟨u, hr, rfl⟩ | ⟨r, rfl⟩
    · refine ⟨?_, fun hp k hk => result_decF_entry hr hp hk⟩
      obtain ⟨_, _, _, _, rfl⟩ := hr
      rfl
    · exact ⟨rfl, fun _ _ _ => rfl⟩

end Sys2Proof.Proofs

/-! What may influence a command (R32, R76, the operands column). A change of P_COURSE, P_SPEED, P_RANGE and of the NOW
sample passes through every operation that does not read them; first that, operation by operation, then the obligation. -/

namespace Sys2Proof.Proofs

open Sys2Proof.Machine Sys2Proof.Laws

/-! ### The change of a state -/

/-- A change of the NOW sample, P_COURSE, P_SPEED and P_RANGE, each by a function of its own. -/
structure Change where
  nowS : Word → Word
  course : Word → Word
  speed : Word → Word
  range : Word → Word

/-- The state after a change. -/
def Change.apply (c : Change) (s : State) : State :=
  { s with
    nowS := c.nowS s.nowS
    point :=
      { s.point with course := c.course s.point.course, speed := c.speed s.point.speed, range := c.range s.point.range } }

section
variable (c : Change)

/-- A command whose body lets the change pass answers the changed state. -/
theorem complete_change {s t : State} {x y : Except Raise State} (h : complete s x = .next t)
    (hy : y = x.map c.apply) : complete (c.apply s) y = .next (c.apply t) := by
  subst hy
  cases x with
  | ok u => obtain rfl := Host.Outcome.next.inj h; rfl
  | error r => obtain rfl := Host.Outcome.next.inj h; rfl

/-- The change passes a step that does not read it. -/
theorem bind_change {α : Type} {x y : Except Raise α} {k k' : α → Except Raise State} (hx : y = x)
    (hk : ∀ a, k' a = (k a).map c.apply) : (y >>= k') = (x >>= k).map c.apply := by
  subst hx
  cases y with
  | ok a => exact hk a
  | error r => rfl

/-- R92: output does not read the change. -/
theorem emit_change (s : State) (bs : List Byte) : emit (c.apply s) bs = (emit s bs).map c.apply := by
  unfold emit
  change (if bs.length > s.params.obufSize then _ else _) = _
  split <;> rfl

/-- The results of LAT.DEC pass for any two words, so the kernel need not compare the formulas behind them. -/
theorem okLat_change (s : State) (v w : Word) :
    (.ok { c.apply s with val := v, point := { (c.apply s).point with lat := w } } : Except Raise State) =
      (Except.ok { s with val := v, point := { s.point with lat := w } }).map c.apply := rfl

/-- As `okLat_change`, for LON.DEC. -/
theorem okLon_change (s : State) (v w : Word) :
    (.ok { c.apply s with val := v, point := { (c.apply s).point with lon := w } } : Except Raise State) =
      (Except.ok { s with val := v, point := { s.point with lon := w } }).map c.apply := rfl

/-- The same two tests on both sides. -/
theorem ite_change {p : Prop} [Decidable p] {x x' y y' : Except Raise State} (hx : x' = x.map c.apply)
    (hy : y' = y.map c.apply) : (if p then x' else y') = (if p then x else y).map c.apply := by
  split
  · exact hx
  · exact hy

theorem digitsFrom_change (s : State) (f : Field) (n i acc : Nat) :
    digitsFrom (c.apply s) f n i acc = digitsFrom s f n i acc := by
  induction n generalizing i acc with
  | zero => rfl
  | succ n ih =>
    simp only [digitsFrom, ih]
    rfl

theorem decimalsFrom_change (s : State) (f : Field) (n i acc : Nat) :
    decimalsFrom (c.apply s) f n i acc = decimalsFrom s f n i acc := by
  induction n generalizing i acc with
  | zero => rfl
  | succ n ih =>
    simp only [decimalsFrom, ih]
    rfl

theorem minutesField_change (s : State) (f : Field) (i : Nat) : minutesField (c.apply s) f i = minutesField s f i := by
  simp only [minutesField, decimalsFrom_change]
  rfl

theorem encAddrs_change (s : State) (k i : Nat) : encAddrs (c.apply s) k i = encAddrs s k i := by
  induction k generalizing i with
  | zero => rfl
  | succ k ih =>
    simp only [encAddrs, ih]
    rfl

theorem decAddrs_change (s : State) (left i : Nat) : decAddrs (c.apply s) left i = decAddrs s left i := by
  induction left generalizing i with
  | zero =>
    unfold decAddrs
    rfl
  | succ left ih =>
    unfold decAddrs
    simp only [ih]
    rfl

/-- R76: the commands that read and overwrite none of the four let the change pass. -/
theorem exec_change {i : Instr} {s t : State} (hi : i ∉ [.csDec, .rngDec, .aprsDecU, .aprsDecT, .aprsDecC])
    (h : exec i s = .next t) : exec i (c.apply s) = .next (c.apply t) := by
  cases i with
  | nop => exact complete_change (s := s) (x := .ok s) c h rfl
  | b91Enc w =>
    exact complete_change c h (bind_change c rfl fun _ => ite_change c rfl (emit_change c s _))
  | b91Dec w =>
    exact complete_change c h (bind_change c rfl fun _ => bind_change c rfl fun _ =>
      bind_change c (digitsFrom_change c s _ _ _ _) fun _ => rfl)
  | latPre | lonPre | aprsClass => exact complete_change c h (bind_change c rfl fun _ => rfl)
  | latDec =>
    exact complete_change c h (bind_change c rfl fun _ => bind_change c (digitsFrom_change c s _ _ _ _) fun _ =>
      okLat_change c s _ _)
  | lonDec =>
    exact complete_change c h (bind_change c rfl fun _ => bind_change c (digitsFrom_change c s _ _ _ _) fun _ =>
      okLon_change c s _ _)
  | altDec =>
    exact complete_change c h (bind_change c rfl fun _ => bind_change c (digitsFrom_change c s _ _ _ _) fun _ => rfl)
  | altEnc => exact complete_change c h (emit_change c { s with val := _ } _)
  | dmmEncLat | dmmEncLon => exact complete_change c h (bind_change c rfl fun _ => emit_change c s _)
  | dmmDecLat | dmmDecLon =>
    exact complete_change c h (bind_change c rfl fun _ => bind_change c (decimalsFrom_change c s _ _ _ _) fun _ =>
      bind_change c (minutesField_change c s _ _) fun _ => bind_change c rfl fun _ => rfl)
  | aprsEncU | aprsEncC =>
    exact complete_change c h (bind_change c rfl fun _ => bind_change c rfl fun _ => emit_change c s _)
  | ax25EncA => exact complete_change c h (bind_change c rfl fun _ => emit_change c s _)
  | ax25DecA => exact complete_change c h (bind_change c rfl fun _ => ite_change c rfl rfl)
  | ax25EncF =>
    exact complete_change c h (bind_change c rfl fun _ => bind_change c rfl fun _ =>
      bind_change c (encAddrs_change c s _ _) fun _ => emit_change c s _)
  | ax25DecF =>
    exact complete_change c h (bind_change c rfl fun _ => bind_change c (decAddrs_change c s _ _) fun _ =>
      ite_change c rfl rfl)
  | csDec | rngDec | aprsDecU | aprsDecT | aprsDecC => exact absurd (by decide) hi

end

/-- R34, R76: CS.DEC and RNG.DEC do not read the NOW sample either. -/
theorem exec_change_nowS {i : Instr} {s t : State} (f : Word → Word) (hi : i ∈ [Instr.csDec, .rngDec])
    (h : exec i s = .next t) : exec i (Change.apply ⟨f, id, id, id⟩ s) = .next (Change.apply ⟨f, id, id, id⟩ t) := by
  simp only [List.mem_cons, List.not_mem_nil, or_false] at hi
  rcases hi with rfl | rfl
  · exact complete_change _ h (bind_change _ rfl fun _ => bind_change _ rfl fun _ => bind_change _ rfl fun _ => rfl)
  · exact complete_change _ h (bind_change _ rfl fun _ => bind_change _ rfl fun _ => rfl)

/-! ### The obligation -/

/-- Settles O60: the two claims are the change of the three Point registers and the change of the sample. -/
theorem unlistedOperandsHaveNoInfluence : Obligations.UnlistedOperandsHaveNoInfluence := by
  intro i s t h
  refine ⟨fun hi a b c => exec_change ⟨id, fun _ => a, fun _ => b, fun _ => c⟩ hi h, fun hi n => ?_⟩
  by_cases hrange : i ∈ [Instr.csDec, .rngDec]
  · exact exec_change_nowS (fun _ => n) hrange h
  · refine exec_change ⟨fun _ => n, id, id, id⟩ (fun hmem => ?_) h
    rcases List.mem_append.mp (show i ∈ [Instr.csDec, .rngDec] ++ [.aprsDecU, .aprsDecT, .aprsDecC] from hmem) with h' | h'
    · exact hrange h'
    · exact hi h'

end Sys2Proof.Proofs
